-- ==== Sys2Proof/Word.lean ====
section
/-! DEFINITION. The machine word of SRIP-CORE: command words, register data and element indices are 32 bits wide
(spec/30_encoding.md R49, R51; spec/10_state.md R17). -/

namespace Sys2Proof

/-- One 32-bit word: a command word, the data of a register transaction, a memory element index (R17, R49). -/
abbrev Word := BitVec 32

end Sys2Proof
end

