-- ==== Sys2Proof/Syntax.lean ====
section
/-! DEFINITION. The commands of SRIP-CORE, one constructor per row of spec/opcode_table.json
(spec/30_encoding.md R52, R54). A command names no register: its operands are index fields and a class bit
(spec/10_state.md R15). Index fields are plain numbers, since R52 uses a field "as the number it spells"; their
widths are checked in WellFormed.lean. -/

namespace Sys2Proof

/-- The channel class, the 1-bit field `cls` of R52: 0 is Luma, 1 is Chroma (decision D11). -/
inductive ChannelClass
  | luma
  | chroma
deriving DecidableEq, Repr

/-- The 20 commands of spec/30_encoding.md R54, in the table's order, operands in the order of R57. -/
inductive Instr
  /-- `SYS.NOP` (R59). -/
  | sysNop
  /-- `SYS.SRESET` (R60). -/
  | sysSreset
  /-- `TW.RD k, n` (R67). -/
  | twRd (k n : Nat)
  /-- `TW.BASIS u, v, x, y` (R68). -/
  | twBasis (u v x y : Nat)
  /-- `FD.RUN` (R73). -/
  | fdRun
  /-- `ID.RUN` (R83). -/
  | idRun
  /-- `QS.DIV cls, u, v` (R92). -/
  | qsDiv (cls : ChannelClass) (u v : Nat)
  /-- `QS.BUILD cls` (R94). -/
  | qsBuild (cls : ChannelClass)
  /-- `ZZ.FWD u, v` (R104). -/
  | zzFwd (u v : Nat)
  /-- `ZZ.INV pos`, the spec's operand `s` (R105). -/
  | zzInv (pos : Nat)
  /-- `ZZ.SCAN` (R106). -/
  | zzScan
  /-- `ZZ.UNSCAN` (R107). -/
  | zzUnscan
  /-- `BC.QUANT` (R110). -/
  | bcQuant
  /-- `BC.DEQ` (R112). -/
  | bcDeq
  /-- `BC.CLAMP` (R113). -/
  | bcClamp
  /-- `BC.FWD cls` (R115). -/
  | bcFwd (cls : ChannelClass)
  /-- `BC.INV cls` (R118). -/
  | bcInv (cls : ChannelClass)
  /-- `BC.ACCLR` (R119). -/
  | bcAcclr
  /-- `IT.ENCODE` (R130). -/
  | itEncode
  /-- `IT.DECODE` (R133). -/
  | itDecode
deriving DecidableEq, Repr

end Sys2Proof
end

