-- ==== Sys2Proof/WellFormed.lean ====
section
/-! DEFINITION. Which terms of Instr a command word can spell: every index field fits the width that
spec/30_encoding.md R52 gives it. A 4-bit index of 8 to 15 IS well formed: it decodes and then faults (R55). -/

namespace Sys2Proof

/-- The operands fit the fields of the command's ARG format (R52): KN, UVXY and CUV indices are 4 bits wide, UV3
indices 3 bits, the S6 scan position 6 bits. -/
def WellFormed : Instr → Bool
  | .sysNop => true
  | .sysSreset => true
  | .twRd k n => decide (k < 16) && decide (n < 16)
  | .twBasis u v x y => decide (u < 16) && decide (v < 16) && decide (x < 16) && decide (y < 16)
  | .fdRun => true
  | .idRun => true
  | .qsDiv _ u v => decide (u < 16) && decide (v < 16)
  | .qsBuild _ => true
  | .zzFwd u v => decide (u < 8) && decide (v < 8)
  | .zzInv pos => decide (pos < 64)
  | .zzScan => true
  | .zzUnscan => true
  | .bcQuant => true
  | .bcDeq => true
  | .bcClamp => true
  | .bcFwd _ => true
  | .bcInv _ => true
  | .bcAcclr => true
  | .itEncode => true
  | .itDecode => true

end Sys2Proof
end

