-- ==== Sys2Proof/Decode.lean ====
section
/-! DEFINITION. From command words to commands and back, by the opcode map of spec/30_encoding.md R51 to R55.
The command word is one 32-bit element; no byte of it has an address (spec/20_memory.md R39). -/

namespace Sys2Proof

/-- The seven ARG formats of R52. -/
inductive Format
  | Z
  | C
  | KN
  | UVXY
  | CUV
  | UV3
  | S6
deriving DecidableEq, Repr

/-- The ways a word can be illegal, R55, in the order R55 names them. -/
inductive Illegal
  /-- `UNIT` is 8 to 15. -/
  | reservedUnit
  /-- `OP` is not assigned for the `UNIT`. -/
  | unassignedOp
  /-- `w[23:16]` is not 0. -/
  | nonzeroMiddle
  /-- A must-be-zero bit of the command's ARG format is 1. -/
  | nonzeroArgBit
deriving DecidableEq, Repr

/-- What the decoder answers for a word: one command, or an illegal word and why. -/
inductive Decoded
  | command (i : Instr)
  | illegal (why : Illegal)
deriving DecidableEq, Repr

/-- One row of the opcode map R54, with the field extraction its format has in R52. -/
structure Row where
  mnemonic : String
  format   : Format
  mtch     : Word
  mask     : Word
  build    : Word → Instr

/-- `w[lo+len-1 : lo]` read as an unsigned number (spec/00_scope.md R7). -/
def field (w : Word) (lo len : Nat) : Nat := (w.extractLsb' lo len).toNat

/-- The class bit `w[at]`: 0 is Luma, 1 is Chroma (R52). -/
def classBit (w : Word) (at_ : Nat) : ChannelClass := if w.getLsbD at_ then .chroma else .luma

/-- Units 0 to 3 of the opcode map R54. -/
def rowsSysToId : List Row :=
  [ ⟨"SYS.NOP",    .Z,    0x00000000, 0xFFFFFFFF, fun _ => .sysNop⟩,
    ⟨"SYS.SRESET", .Z,    0x01000000, 0xFFFFFFFF, fun _ => .sysSreset⟩,
    ⟨"TW.RD",      .KN,   0x10000000, 0xFFFFFF00, fun w => .twRd (field w 4 4) (field w 0 4)⟩,
    ⟨"TW.BASIS",   .UVXY, 0x11000000, 0xFFFF0000,
      fun w => .twBasis (field w 12 4) (field w 8 4) (field w 4 4) (field w 0 4)⟩,
    ⟨"FD.RUN",     .Z,    0x20000000, 0xFFFFFFFF, fun _ => .fdRun⟩,
    ⟨"ID.RUN",     .Z,    0x30000000, 0xFFFFFFFF, fun _ => .idRun⟩ ]

/-- Units 4 and 5 of the opcode map R54. -/
def rowsQsZz : List Row :=
  [ ⟨"QS.DIV",     .CUV,  0x40000000, 0xFFFFFE00, fun w => .qsDiv (classBit w 8) (field w 4 4) (field w 0 4)⟩,
    ⟨"QS.BUILD",   .C,    0x41000000, 0xFFFFFFFE, fun w => .qsBuild (classBit w 0)⟩,
    ⟨"ZZ.FWD",     .UV3,  0x50000000, 0xFFFFFFC0, fun w => .zzFwd (field w 3 3) (field w 0 3)⟩,
    ⟨"ZZ.INV",     .S6,   0x51000000, 0xFFFFFFC0, fun w => .zzInv (field w 0 6)⟩,
    ⟨"ZZ.SCAN",    .Z,    0x52000000, 0xFFFFFFFF, fun _ => .zzScan⟩,
    ⟨"ZZ.UNSCAN",  .Z,    0x53000000, 0xFFFFFFFF, fun _ => .zzUnscan⟩ ]

/-- Units 6 and 7 of the opcode map R54. -/
def rowsBcIt : List Row :=
  [ ⟨"BC.QUANT",   .Z,    0x60000000, 0xFFFFFFFF, fun _ => .bcQuant⟩,
    ⟨"BC.DEQ",     .Z,    0x61000000, 0xFFFFFFFF, fun _ => .bcDeq⟩,
    ⟨"BC.CLAMP",   .Z,    0x62000000, 0xFFFFFFFF, fun _ => .bcClamp⟩,
    ⟨"BC.FWD",     .C,    0x63000000, 0xFFFFFFFE, fun w => .bcFwd (classBit w 0)⟩,
    ⟨"BC.INV",     .C,    0x64000000, 0xFFFFFFFE, fun w => .bcInv (classBit w 0)⟩,
    ⟨"BC.ACCLR",   .Z,    0x65000000, 0xFFFFFFFF, fun _ => .bcAcclr⟩,
    ⟨"IT.ENCODE",  .Z,    0x70000000, 0xFFFFFFFF, fun _ => .itEncode⟩,
    ⟨"IT.DECODE",  .Z,    0x71000000, 0xFFFFFFFF, fun _ => .itDecode⟩ ]

/-- The opcode map R54: 20 rows. -/
def opcodeMap : List Row := rowsSysToId ++ (rowsQsZz ++ rowsBcIt)

/-- The row's test of R53, `(w & mask) == match`. -/
def Row.accepts (r : Row) (w : Word) : Bool := w &&& r.mask == r.mtch

/-- How many operations each unit has: `OP` 0 up to this number less one is assigned (R54, R55). -/
def assignedOps (unit : Nat) : Nat := [2, 2, 1, 1, 2, 4, 6, 2].getD unit 0

/-- Which of the ways of R55 makes a word illegal that no row accepts: the first that applies. -/
def whyIllegal (w : Word) : Illegal :=
  if 8 ≤ field w 28 4 then .reservedUnit
  else if assignedOps (field w 28 4) ≤ field w 24 4 then .unassignedOp
  else if field w 16 8 ≠ 0 then .nonzeroMiddle
  else .nonzeroArgBit

/-- The decoder of R53, total on every word: the row that accepts the word, or illegal. -/
def decode (w : Word) : Decoded :=
  match opcodeMap.find? (·.accepts w) with
  | some r => .command (r.build w)
  | none => .illegal (whyIllegal w)

/-- The instruction the decoder reads from a row's word as spec/opcode_table.json numbers its bits: one 32-bit word,
the bits above `nbits` zero; no longer word is a command (R51). -/
def decodeTableWord (nbits w : Nat) : Option Instr :=
  if 2 ^ 32 ≤ w % 2 ^ nbits then none
  else
    match decode (BitVec.ofNat 32 (w % 2 ^ nbits)) with
    | .command i => some i
    | .illegal _ => none

/-- `x` in the `len` bits from bit `lo` up, zero elsewhere: one field of a command word (R51, R52). -/
def place (x lo len : Nat) : Word := (BitVec.ofNat len x).setWidth 32 <<< lo

/-- The class bit's number: Luma 0, Chroma 1 (R52). -/
def ChannelClass.bit : ChannelClass → Nat
  | .luma => 0
  | .chroma => 1

/-- The command word of a command, `match | fields` (R54, R57). -/
def encode : Instr → Word
  | .sysNop => 0x00000000
  | .sysSreset => 0x01000000
  | .twRd k n => 0x10000000 ||| place k 4 4 ||| place n 0 4
  | .twBasis u v x y => 0x11000000 ||| place u 12 4 ||| place v 8 4 ||| place x 4 4 ||| place y 0 4
  | .fdRun => 0x20000000
  | .idRun => 0x30000000
  | .qsDiv cls u v => 0x40000000 ||| place cls.bit 8 1 ||| place u 4 4 ||| place v 0 4
  | .qsBuild cls => 0x41000000 ||| place cls.bit 0 1
  | .zzFwd u v => 0x50000000 ||| place u 3 3 ||| place v 0 3
  | .zzInv pos => 0x51000000 ||| place pos 0 6
  | .zzScan => 0x52000000
  | .zzUnscan => 0x53000000
  | .bcQuant => 0x60000000
  | .bcDeq => 0x61000000
  | .bcClamp => 0x62000000
  | .bcFwd cls => 0x63000000 ||| place cls.bit 0 1
  | .bcInv cls => 0x64000000 ||| place cls.bit 0 1
  | .bcAcclr => 0x65000000
  | .itEncode => 0x70000000
  | .itDecode => 0x71000000

end Sys2Proof
end

