-- ==== Sys2Proof/Config.lean ====
section
/-! DEFINITION. What one implementation of SRIP-CORE fixes and what the spec leaves open: the parameter
`MAX_BLOCKS` (spec/00_scope.md R6, decision D19), the latencies `LAT_<mnemonic>` (R6, decision D30) and the
undefined contents of storage after a hardware reset (spec/70_reset_and_hazards.md R167). Every open value is an
opaque constant: nothing can be proved of it beyond its type. -/

namespace Sys2Proof

/-- The eight memories (spec/20_memory.md R35). -/
inductive Space
  | imgi
  | imgo
  | dcs (k : Fin 3)
  | acs (k : Fin 3)
deriving DecidableEq, Repr

/-- The storage that a hardware reset leaves with no defined value (R167): the eight block buffers, the staging
buffer `ACIN` and the eight memories. -/
inductive Place
  | pixi
  | fcoef
  | div
  | qco
  | scan
  | acin
  | icoef
  | samp
  | pixo
  | mem (m : Space)
deriving DecidableEq, Repr

/-- FREE VALUE (R167, U1, U2, U7): what element `i` of a storage place of element width `w` holds after the
`epoch`-th hardware reset, until it is written. Log entry 2. -/
opaque Config.anyValue : (w : Nat) → (epoch : Nat) → Place → (i : Nat) → BitVec w

/-- The open parameter `MAX_BLOCKS` less one, in the range decision D19 allows. Log entry 3. -/
opaque Config.maxBlocksLessOne : Fin 67092481

/-- `MAX_BLOCKS`, the capacity of the memories in blocks per channel: a positive integer, at most 67092481
(R6, decision D19). -/
def Config.maxBlocks : Nat := Config.maxBlocksLessOne.val + 1

/-- The open parameter `LAT_<mnemonic>` less one, for the command whose `UNIT` and `OP` stand in the top byte
`unitOp` of its word, on an image of `nb` blocks. Log entry 6. -/
opaque Config.latencyLessOne : (unitOp : BitVec 8) → (nb : Nat) → Nat

/-- `LAT_<mnemonic>`, the clock cycles from the `CMD` write to `h_ready`: positive and finite; no rule uses it and no
architectural result depends on it (R6, spec/70_reset_and_hazards.md R177). -/
def Config.latency (unitOp : BitVec 8) (nb : Nat) : Nat := Config.latencyLessOne unitOp nb + 1

end Sys2Proof
end

