-- ==== Sys2Proof/Machine/Memory.lean ====
section
/-! DEFINITION. One element-addressed memory (spec/20_memory.md R35): a list of the elements written since the last
hardware reset, by strictly rising element index. An index that is not listed holds no value here; what it reads as
is the free value of R167, given in Ops.lean. Log entries 1 and 4. -/

namespace Sys2Proof.Machine

/-- A memory of `w`-bit elements: (element index, element) pairs. `Memory 8` is a list of `Host.Cell`. -/
abbrev Memory (w : Nat) := List (Nat × BitVec w)

/-- The canonical form: element indices strictly rising. (No entry can equal what an unlisted index holds, since that
is no value at all.) -/
abbrev Memory.wf {w : Nat} (m : Memory w) : Prop := m.Pairwise fun a b => a.1 < b.1

/-- Every listed element lies inside a space of `size` elements (R35, R38). -/
abbrev Memory.within {w : Nat} (m : Memory w) (size : Nat) : Prop := ∀ e ∈ m, e.1 < size

/-- The element written at index `i`, if any has been. -/
def Memory.find {w : Nat} (m : Memory w) (i : Nat) : Option (BitVec w) :=
  match m with
  | [] => none
  | (j, v) :: rest => if i = j then some v else Memory.find rest i

/-- Write one element, `MemWrite(SPACE[i], 1, v)` of spec/00_scope.md R9, keeping the canonical form. -/
def Memory.store {w : Nat} (m : Memory w) (i : Nat) (v : BitVec w) : Memory w :=
  match m with
  | [] => [(i, v)]
  | (j, u) :: rest =>
    if i < j then (i, v) :: (j, u) :: rest
    else if i = j then (i, v) :: rest
    else (j, u) :: Memory.store rest i v

end Sys2Proof.Machine
end

