-- ==== Sys2Proof/Machine/Tables.lean ====
section
/-! DEFINITION. The constants of SRIP-CORE that are no state (spec/10_state.md R14): the twiddle ROM, the zig-zag
table and its inverse, the power-on base divisor tables; and the shape of the block buffers (spec/00_scope.md R8). -/

namespace Sys2Proof.Machine

/-- A block buffer: 64 elements of `w` bits, element `8*a + b` at matrix position `[a][b]` (R8, R24). -/
abbrev Buf (w : Nat) := Vector (BitVec w) 64

/-- The buffer whose element `i` is `f i`. Irreducible, so that no unification unfolds a whole buffer; its one law is
`tabulate_getElem` (Laws/Buffers.lean). -/
@[irreducible] def tabulate {n w : Nat} (f : Fin n → BitVec w) : Vector (BitVec w) n := Vector.ofFn f

/-- The linear index `8*a + b` of matrix position `[a][b]` (R8). -/
def lin (a b : Fin 8) : Fin 64 := ⟨8 * a.val + b.val, by omega⟩

/-- The first index of the element with linear index `i`, `i div 8` (R8). -/
def rowOf (i : Fin 64) : Fin 8 := ⟨i.val / 8, by omega⟩

/-- The second index of the element with linear index `i`, `i mod 8` (R8). -/
def colOf (i : Fin 64) : Fin 8 := ⟨i.val % 8, by omega⟩

/-- The entry in row `a`, column `b` of a table written as rows; zero outside it. -/
def entry {α : Type} [Zero α] (rows : List (List α)) (a b : Nat) : α := (rows.getD a []).getD b 0

/-- The twiddle ROM's contents, decimal (spec/41_twiddle_rom.md R61). -/
def romRows : List (List Int) :=
  [ [23170,  23170,  23170,  23170,  23170,  23170,  23170,  23170],
    [32138,  27246,  18205,   6393,  -6393, -18205, -27246, -32138],
    [30274,  12540, -12540, -30274, -30274, -12540,  12540,  30274],
    [27246,  -6393, -32138, -18205,  18205,  32138,   6393, -27246],
    [23170, -23170, -23170,  23170,  23170, -23170, -23170,  23170],
    [18205, -32138,   6393,  27246, -27246,  -6393,  32138, -18205],
    [12540, -30274,  30274, -12540, -12540,  30274, -30274,  12540],
    [ 6393, -18205,  27246, -32138,  32138, -27246,  18205,  -6393] ]

/-- `T[k][n]`, the twiddle word of frequency `k` and position `n` (R61). -/
def twiddle (k n : Fin 8) : Int := entry romRows k.val n.val

/-- The four-index basis `B(u, v, x, y) = T[u][x] * T[v][y]` (R64). -/
def basis (u v x y : Fin 8) : Int := twiddle u x * twiddle v y

/-- The zig-zag table, the scan position of each matrix position (spec/45_zigzag_reorder.md R101). -/
def zigzagRows : List (List Nat) :=
  [ [ 0,  1,  5,  6, 14, 15, 27, 28],
    [ 2,  4,  7, 13, 16, 26, 29, 42],
    [ 3,  8, 12, 17, 25, 30, 41, 43],
    [ 9, 11, 18, 24, 31, 40, 44, 53],
    [10, 19, 23, 32, 39, 45, 52, 54],
    [20, 22, 33, 38, 46, 51, 55, 60],
    [21, 34, 37, 47, 50, 56, 59, 61],
    [35, 36, 48, 49, 57, 58, 62, 63] ]

/-- `ZZ[u][v]` (R101). -/
def zigzag (u v : Fin 8) : Fin 64 := Fin.ofNat 64 (entry zigzagRows u.val v.val)

/-- The inverse zig-zag table, eight scan positions a row (R102). -/
def unzigzagRows : List (List Nat) :=
  [ [ 0,  1,  8, 16,  9,  2,  3, 10],
    [17, 24, 32, 25, 18, 11,  4,  5],
    [12, 19, 26, 33, 40, 48, 41, 34],
    [27, 20, 13,  6,  7, 14, 21, 28],
    [35, 42, 49, 56, 57, 50, 43, 36],
    [29, 22, 15, 23, 30, 37, 44, 51],
    [58, 59, 52, 45, 38, 31, 39, 46],
    [53, 60, 61, 54, 47, 55, 62, 63] ]

/-- `IZ[s]`, the linear index of the matrix position whose scan position is `s` (R102). -/
def unzigzag (s : Fin 64) : Fin 64 := Fin.ofNat 64 (entry unzigzagRows (s.val / 8) (s.val % 8))

/-- `QDEF[0]`, the Luma base divisors after reset (spec/10_state.md R28). -/
def qdefLumaRows : List (List Nat) :=
  [ [16, 11, 10, 16,  24,  40,  51,  61],
    [12, 12, 14, 19,  26,  58,  60,  55],
    [14, 13, 16, 24,  40,  57,  69,  56],
    [14, 17, 22, 29,  51,  87,  80,  62],
    [18, 22, 37, 56,  68, 109, 103,  77],
    [24, 35, 55, 64,  81, 104, 113,  92],
    [49, 64, 78, 87, 103, 121, 120, 101],
    [72, 92, 95, 98, 112, 100, 103,  99] ]

/-- `QDEF[1]`, the Chroma base divisors after reset (R28). -/
def qdefChromaRows : List (List Nat) :=
  [ [17, 18, 24, 47, 99, 99, 99, 99],
    [18, 21, 26, 66, 99, 99, 99, 99],
    [24, 26, 56, 99, 99, 99, 99, 99],
    [47, 66, 99, 99, 99, 99, 99, 99],
    [99, 99, 99, 99, 99, 99, 99, 99],
    [99, 99, 99, 99, 99, 99, 99, 99],
    [99, 99, 99, 99, 99, 99, 99, 99],
    [99, 99, 99, 99, 99, 99, 99, 99] ]

/-- A u8 block buffer from its eight rows. -/
def bufOfRows (rows : List (List Nat)) : Buf 8 :=
  tabulate fun i => BitVec.ofNat 8 (entry rows (rowOf i).val (colOf i).val)

/-- `QDEF[c]` (R28). -/
def qdef : ChannelClass → Buf 8
  | .luma => bufOfRows qdefLumaRows
  | .chroma => bufOfRows qdefChromaRows

/-- The free contents of a buffer of `n` elements after the `epoch`-th hardware reset (R167). Log entry 2. -/
def anyBuf (w n epoch : Nat) (p : Place) : Vector (BitVec w) n :=
  tabulate fun i => Config.anyValue w epoch p i.val

/-- The `ID` register's constant, "SRIP" in ASCII (spec/10_state.md R21). -/
def idWord : Word := 0x53524950

end Sys2Proof.Machine
end

