-- ==== Sys2Proof/Machine/State.lean ====
section
/-! DEFINITION. The state of SRIP-CORE (spec/10_state.md R13), the host's ports as inputs and outputs
(spec/70_reset_and_hazards.md R178), why a step can stop, and the machine right after a hardware reset (R165 to
R169). -/

namespace Sys2Proof.Machine

/-- The four fault kinds of spec/60_exceptions.md R145. The core records one in `STATUS` and goes on (R150): to raise
one is a NEXT state of this model, never a stop. -/
inductive FaultKind
  | invalidDimensions
  | invalidIndex
  | malformedStream
  | illegalCommand
deriving DecidableEq, Repr

/-- Why a step would stop with a fault: nothing does. "There is no behaviour in this spec that is stuck: every command
terminates" (spec/93_implementation_defined.md section 1); the spec's own faults are states (`FaultKind`). Safe: no
constructor, so no run ends in one. -/
inductive Fault
deriving DecidableEq, Repr

/-- Why a step refuses. -/
inductive Refusal
  /-- Raised by `exec` for an instruction with no meaning yet; no arm of this model raises it. Safe. -/
  | notModelled (mnemonic : String)
  /-- Raised by the step when the host holds `h_valid` and `m_valid` together: "A host that breaks this is outside the
  spec (the model refuses it)" (R179, U8). Safe: no claim is made about such a host. -/
  | hostPresentsBothPorts
deriving DecidableEq, Repr

/-- The input ports of R178 over one step: the values the host holds stable until the transaction they present has
completed (R179). -/
structure Pins where
  rstN   : Bool
  hValid : Bool
  hWrite : Bool
  hAddr  : BitVec 12
  hWdata : Word
  mValid : Bool
  mWrite : Bool
  mSel   : BitVec 4
  mIndex : Word
  mWdata : Word
deriving DecidableEq, Repr

/-- The output ports of R178 at the end of a step, but for `fault`, which is the level of `STATUS.FAULT`
(`State.faultPin`). Read data is present exactly when it is valid: its port is ready and the transaction was a read. -/
structure Outputs where
  hReady : Bool
  hRdata : Option Word
  mReady : Bool
  mRdata : Option Word
deriving DecidableEq, Repr

/-- No transaction completes. -/
def Outputs.quiet : Outputs := { hReady := false, hRdata := none, mReady := false, mRdata := none }

/-- The whole state. -/
@[ext]
structure State where
  /-- `STATUS` (R19), read only; its fields are in Flags.lean. -/
  status     : Word
  /-- `ERRINFO` (R20), the word of the command that faulted. -/
  errinfo    : Word
  /-- `RESULT` (R22). -/
  result     : Word
  /-- `CF` (R23), the compression factor, 8 fraction bits. -/
  cf         : BitVec 16
  /-- `ROWS` (R23). -/
  rows       : BitVec 16
  /-- `COLS` (R23). -/
  cols       : BitVec 16
  /-- `DCIN` (R25), s16. -/
  dcin       : BitVec 16
  /-- `DCOUT` (R25), s16. -/
  dcout      : BitVec 16
  /-- `ACCNT` (R25), the pushes since the last clear, at most 127. -/
  accnt      : BitVec 7
  /-- `DCIDX[k]` (R26), the DC stream cursors. -/
  dcidx      : Vector Word 3
  /-- `ACIDX[k]` (R26), the AC stream cursors. -/
  acidx      : Vector Word 3
  /-- `DCLEN[k]` (R27), the DC stream lengths. -/
  dclen      : Vector Word 3
  /-- `ACLEN[k]` (R27), the AC stream lengths. -/
  aclen      : Vector Word 3
  /-- `PIXI` (R24), u8: the block to transform. -/
  pixi       : Buf 8
  /-- `FCOEF` (R24), s12: the forward coefficients. -/
  fcoef      : Buf 12
  /-- `DIV` (R24), u16: the scaled divisors of one class. -/
  div        : Buf 16
  /-- `QCO` (R24), s16: the quantised coefficients. -/
  qco        : Buf 16
  /-- `SCAN` (R24), s16: the quantised coefficients in scan order. -/
  scan       : Buf 16
  /-- `ACIN` (R25), s16: the staged AC values of `BC.INV`. -/
  acin       : Vector (BitVec 16) 63
  /-- `ICOEF` (R24), s32: the dequantised coefficients. -/
  icoef      : Buf 32
  /-- `SAMP` (R24), s16: the rounded, saturated inverse samples. -/
  samp       : Buf 16
  /-- `PIXO` (R24), u8: the reconstructed block. -/
  pixo       : Buf 8
  /-- `QBASE[0]` (R28), u8: the Luma base divisors. -/
  qbaseLuma   : Buf 8
  /-- `QBASE[1]` (R28), u8: the Chroma base divisors. -/
  qbaseChroma : Buf 8
  /-- `IMGI` (R35), u8: the input image. -/
  imgi       : Memory 8
  /-- `IMGO` (R35), u8: the reconstructed image. -/
  imgo       : Memory 8
  /-- `DCS[k]` (R35), s16: the DC streams. -/
  dcs        : Vector (Memory 16) 3
  /-- `ACS[k]` (R35), s16: the AC streams. -/
  acs        : Vector (Memory 16) 3
  /-- The model's own: how many hardware resets have happened, which selects the free values of unwritten storage
  (R167). Log entry 2. -/
  epoch      : Nat
  /-- The model's own: what the host will hold on the input ports, the next step's first. Log entry 5. -/
  inbox      : List Pins
  /-- The model's own: the output ports after the last step (R178). Log entry 5. -/
  outputs    : Outputs
deriving DecidableEq, Repr

/-- The machine right after its hardware reset: the registers of R166, every buffer and memory element free (R167),
no transaction presented (R169). -/
def State.reset : State where
  status      := 0
  errinfo     := 0
  result      := 0
  cf          := 0x0100
  rows        := 0
  cols        := 0
  dcin        := 0
  dcout       := 0
  accnt       := 0
  dcidx       := Vector.replicate 3 0
  acidx       := Vector.replicate 3 0
  dclen       := Vector.replicate 3 0
  aclen       := Vector.replicate 3 0
  pixi        := anyBuf 8 64 0 .pixi
  fcoef       := anyBuf 12 64 0 .fcoef
  div         := anyBuf 16 64 0 .div
  qco         := anyBuf 16 64 0 .qco
  scan        := anyBuf 16 64 0 .scan
  acin        := anyBuf 16 63 0 .acin
  icoef       := anyBuf 32 64 0 .icoef
  samp        := anyBuf 16 64 0 .samp
  pixo        := anyBuf 8 64 0 .pixo
  qbaseLuma   := qdef .luma
  qbaseChroma := qdef .chroma
  imgi        := []
  imgo        := []
  dcs         := Vector.replicate 3 []
  acs         := Vector.replicate 3 []
  epoch       := 0
  inbox       := []
  outputs     := Outputs.quiet

end Sys2Proof.Machine
end

