-- ==== Sys2Proof/Machine/Flags.lean ====
section
/-! DEFINITION. The only status flags of SRIP-CORE, `STATUS.FAULT` and `STATUS.ERRCODE` (spec/10_state.md R19, R30).
No command sets a zero, carry, sign or overflow flag. -/

namespace Sys2Proof.Machine

/-- `code(kind)` of spec/60_exceptions.md R145. -/
def FaultKind.code : FaultKind → Nat
  | .invalidDimensions => 1
  | .invalidIndex => 2
  | .malformedStream => 3
  | .illegalCommand => 4

/-- `STATUS` with `FAULT = 1` and the kind's `ERRCODE`, every other bit 0 (R19, R150). -/
def faultStatus (k : FaultKind) : Word := (BitVec.ofNat 32 k.code <<< 4) ||| 1

/-- `STATUS.FAULT`, bit 0 (R19). -/
def State.faulted (s : State) : Bool := s.status.getLsbD 0

/-- `STATUS.ERRCODE`, bits 7:4 (R19). -/
def State.errCode (s : State) : Nat := (s.status.extractLsb' 4 4).toNat

/-- The output pin `fault`, the level of `STATUS.FAULT` (R156, spec/70_reset_and_hazards.md R178). -/
def State.faultPin (s : State) : Bool := s.faulted

end Sys2Proof.Machine
end

