-- ==== Sys2Proof/Machine/Operands.lean ====
section
/-! DEFINITION. How operands are read, narrowed and written back: index checks, buffers as integer matrices, and the
four functions of spec/00_scope.md R10, "the only places where a value is rounded or narrowed". All arithmetic is on
unbounded integers (R7, R12). -/

namespace Sys2Proof.Machine

/-- An index field holds a legal index, 0 to 7 (spec/60_exceptions.md R147). -/
def legalIndex (n : Nat) : Bool := decide (n ≤ 7)

/-- The legal index that a field spells (used only where `legalIndex` holds, or where the field is 3 bits wide). -/
def toIndex (n : Nat) : Fin 8 := Fin.ofNat 8 n

/-- `sgn(a)` of R10: −1 below zero, +1 otherwise. -/
def sgn (a : Int) : Int := if a < 0 then -1 else 1

/-- `rnd32(a)` of R10: `a / 2^32` to the nearest integer, a half away from zero. -/
def rnd32 (a : Int) : Int := sgn a * (((a.natAbs + 2 ^ 31) / 2 ^ 32 : Nat) : Int)

/-- `rdiv(a, d)` of R10: `a / d` to the nearest integer, a half away from zero; `d` is at least 1. -/
def rdiv (a : Int) (d : Nat) : Int := sgn a * (((2 * a.natAbs + d) / (2 * d) : Nat) : Int)

/-- `sat16(a)` of R10. -/
def sat16 (a : Int) : Int := if a < -32768 then -32768 else if 32767 < a then 32767 else a

/-- `clamp255(a)` of R10. -/
def clamp255 (a : Int) : Int := if a < 0 then 0 else if 255 < a then 255 else a

/-- The sum of a row of eight integers. -/
def sum8 (f : Fin 8 → Int) : Int := f 0 + f 1 + f 2 + f 3 + f 4 + f 5 + f 6 + f 7

/-- A buffer of unsigned elements as an integer matrix (R7, R8). -/
def unsignedMatrix {w : Nat} (b : Buf w) (x y : Fin 8) : Int := ((b[lin x y]).toNat : Int)

/-- A buffer of signed elements as an integer matrix (R7, R8). -/
def signedMatrix {w : Nat} (b : Buf w) (u v : Fin 8) : Int := (b[lin u v]).toInt

/-- The 64-element buffer that holds an integer matrix, each element stored in `w` bits. -/
def bufOfMatrix (w : Nat) (m : Fin 8 → Fin 8 → Int) : Buf w :=
  tabulate fun i => BitVec.ofInt w (m (rowOf i) (colOf i))

/-- `for i in 0..63: dst[at i] <- src[i]`: move every element of a buffer to the place `at` gives it, starting from
what `dst` held (R106, R107). -/
@[irreducible] def scatter {w : Nat} (at_ : Fin 64 → Fin 64) (src dst : Buf w) : Buf w :=
  (List.finRange 64).foldl (fun b i => b.set (at_ i).val src[i] (at_ i).isLt) dst

/-- `if n < 63: ACIN[n] <- v` (spec/46_block_codec_engine.md R117). -/
def stageAc (acin : Vector (BitVec 16) 63) (n : Nat) (v : BitVec 16) : Vector (BitVec 16) 63 :=
  if h : n < 63 then acin.set n v h else acin

end Sys2Proof.Machine
end

