-- ==== Sys2Proof/Machine/RegMap.lean ====
section
/-! DEFINITION. The register space `REG`: 4096 word indices, which location each names, and the location's type and
access (spec/10_state.md R17, R18). -/

namespace Sys2Proof.Machine

/-- The locations of the register map R18. -/
inductive Reg
  | id
  | status
  | errinfo
  | cmd
  | result
  | cf
  | rows
  | cols
  | dcin
  | dcout
  | acpush
  | accnt
  | dcidx (k : Fin 3)
  | acidx (k : Fin 3)
  | dclen (k : Fin 3)
  | aclen (k : Fin 3)
  | pixi (i : Fin 64)
  | fcoef (i : Fin 64)
  | div (i : Fin 64)
  | qco (i : Fin 64)
  | scan (i : Fin 64)
  | acin (i : Fin 63)
  | icoef (i : Fin 64)
  | samp (i : Fin 64)
  | pixo (i : Fin 64)
  | qbase (cls : ChannelClass) (i : Fin 64)
deriving DecidableEq, Repr

/-- The access column of R18. -/
inductive Access
  | ro
  | wo
  | rw
deriving DecidableEq, Repr

/-- The access of each location (R18). -/
def Reg.access : Reg → Access
  | .id => .ro
  | .status => .ro
  | .errinfo => .ro
  | .cmd => .wo
  | .result => .ro
  | .cf => .rw
  | .rows => .rw
  | .cols => .rw
  | .dcin => .rw
  | .dcout => .ro
  | .acpush => .wo
  | .accnt => .ro
  | .dcidx _ => .ro
  | .acidx _ => .ro
  | .dclen _ => .rw
  | .aclen _ => .rw
  | .pixi _ => .rw
  | .fcoef _ => .ro
  | .div _ => .ro
  | .qco _ => .rw
  | .scan _ => .rw
  | .acin _ => .ro
  | .icoef _ => .rw
  | .samp _ => .ro
  | .pixo _ => .ro
  | .qbase _ _ => .rw

/-- The stored width of each location, the type column of R18; the two write-only locations store nothing of their own
(`ACPUSH` is s16 there; `CMD` takes the whole word). -/
def Reg.width : Reg → Nat
  | .id => 32
  | .status => 32
  | .errinfo => 32
  | .cmd => 32
  | .result => 32
  | .cf => 16
  | .rows => 16
  | .cols => 16
  | .dcin => 16
  | .dcout => 16
  | .acpush => 16
  | .accnt => 7
  | .dcidx _ => 32
  | .acidx _ => 32
  | .dclen _ => 32
  | .aclen _ => 32
  | .pixi _ => 8
  | .fcoef _ => 12
  | .div _ => 16
  | .qco _ => 16
  | .scan _ => 16
  | .acin _ => 16
  | .icoef _ => 32
  | .samp _ => 16
  | .pixo _ => 8
  | .qbase _ _ => 8

/-- Whether a location is signed, the type column of R18. -/
def Reg.signed : Reg → Bool
  | .dcin => true
  | .dcout => true
  | .acpush => true
  | .fcoef _ => true
  | .qco _ => true
  | .scan _ => true
  | .acin _ => true
  | .icoef _ => true
  | .samp _ => true
  | _ => false

/-- The word that a read returns for a location holding the low bits of `d`: the low `w` bits, zero- or sign-extended
by its type (R17). -/
def Reg.extend (r : Reg) (d : Word) : Word :=
  if r.signed then (d.setWidth r.width).signExtend 32 else (d.setWidth r.width).setWidth 32

/-- The word index of each location (R18). -/
def Reg.index : Reg → Nat
  | .id => 0x000
  | .status => 0x001
  | .errinfo => 0x002
  | .cmd => 0x003
  | .result => 0x004
  | .cf => 0x005
  | .rows => 0x006
  | .cols => 0x007
  | .dcin => 0x008
  | .dcout => 0x009
  | .acpush => 0x00A
  | .accnt => 0x00B
  | .dcidx k => 0x010 + k.val
  | .acidx k => 0x014 + k.val
  | .dclen k => 0x018 + k.val
  | .aclen k => 0x01C + k.val
  | .pixi i => 0x040 + i.val
  | .fcoef i => 0x080 + i.val
  | .div i => 0x0C0 + i.val
  | .qco i => 0x100 + i.val
  | .scan i => 0x140 + i.val
  | .acin i => 0x180 + i.val
  | .icoef i => 0x1C0 + i.val
  | .samp i => 0x200 + i.val
  | .pixo i => 0x240 + i.val
  | .qbase .luma i => 0x280 + i.val
  | .qbase .chroma i => 0x2C0 + i.val

/-- The single locations 000 to 00B (R18). -/
def singles : List Reg :=
  [.id, .status, .errinfo, .cmd, .result, .cf, .rows, .cols, .dcin, .dcout, .acpush, .accnt]

/-- The location at index `base + k` of a group of `n` locations from `base` up, if `a` lies in the group. -/
def inGroup (a base n : Nat) (mk : Fin n → Reg) : Option Reg :=
  if h : base ≤ a ∧ a < base + n then some (mk ⟨a - base, by omega⟩) else none

/-- The location an index names, none where R18 maps nothing. -/
def regAt (a : BitVec 12) : Option Reg :=
  singles[a.toNat]?
    <|> inGroup a.toNat 0x010 3 .dcidx
    <|> inGroup a.toNat 0x014 3 .acidx
    <|> inGroup a.toNat 0x018 3 .dclen
    <|> inGroup a.toNat 0x01C 3 .aclen
    <|> inGroup a.toNat 0x040 64 .pixi
    <|> inGroup a.toNat 0x080 64 .fcoef
    <|> inGroup a.toNat 0x0C0 64 .div
    <|> inGroup a.toNat 0x100 64 .qco
    <|> inGroup a.toNat 0x140 64 .scan
    <|> inGroup a.toNat 0x180 63 .acin
    <|> inGroup a.toNat 0x1C0 64 .icoef
    <|> inGroup a.toNat 0x200 64 .samp
    <|> inGroup a.toNat 0x240 64 .pixo
    <|> inGroup a.toNat 0x280 64 (.qbase .luma)
    <|> inGroup a.toNat 0x2C0 64 (.qbase .chroma)

/-- The index of `CMD`, to which the host writes command words (R22). -/
def cmdIndex : BitVec 12 := 0x003

end Sys2Proof.Machine
end

