-- ==== Sys2Proof/Machine/Ops.lean ====
section
/-! DEFINITION. The named operations over registers and memories: register reads and writes (spec/10_state.md R17),
memory reads and writes (spec/20_memory.md R35, R47), taking a fault (spec/60_exceptions.md R150), leaving the fault
state by a soft or hardware reset (R153, spec/70_reset_and_hazards.md R165 to R167), and what every command does
first (R152). -/

namespace Sys2Proof.Machine

/-- What a meaning answers. -/
abbrev Out := Host.Outcome State Fault Refusal

/-! ### Faults and resets -/

/-- `raise Fault(kind)` in a command whose word is `w` (R150): `STATUS` and `ERRINFO` are written, nothing else. -/
def raiseFault (k : FaultKind) (w : Word) (s : State) : State :=
  { s with status := faultStatus k, errinfo := w }

/-- The register values after either reset (R60, R166): buffers, `ACIN` and memories keep their contents. -/
def softReset (s : State) : State :=
  { s with
    status      := 0
    errinfo     := 0
    result      := 0
    cf          := 0x0100
    rows        := 0
    cols        := 0
    dcin        := 0
    dcout       := 0
    accnt       := 0
    dcidx       := Vector.replicate 3 0
    acidx       := Vector.replicate 3 0
    dclen       := Vector.replicate 3 0
    aclen       := Vector.replicate 3 0
    qbaseLuma   := qdef .luma
    qbaseChroma := qdef .chroma }

/-- Every element that a hardware reset leaves undefined holds a fresh free value (R167). -/
def loseStorage (s : State) : State :=
  { s with
    pixi  := anyBuf 8 64 (s.epoch + 1) .pixi
    fcoef := anyBuf 12 64 (s.epoch + 1) .fcoef
    div   := anyBuf 16 64 (s.epoch + 1) .div
    qco   := anyBuf 16 64 (s.epoch + 1) .qco
    scan  := anyBuf 16 64 (s.epoch + 1) .scan
    acin  := anyBuf 16 63 (s.epoch + 1) .acin
    icoef := anyBuf 32 64 (s.epoch + 1) .icoef
    samp  := anyBuf 16 64 (s.epoch + 1) .samp
    pixo  := anyBuf 8 64 (s.epoch + 1) .pixo
    imgi  := []
    imgo  := []
    dcs   := Vector.replicate 3 []
    acs   := Vector.replicate 3 []
    epoch := s.epoch + 1 }

/-- The hardware reset `rst_n` (R165 to R167), whether it comes between commands or cuts one short. -/
def hardReset (s : State) : State := loseStorage (softReset s)

/-- What every command but `SYS.SRESET` does: while `STATUS.FAULT` is 1, nothing (R30, R152); otherwise its own rule,
whose checks come before its first write (R151), so that a fault is taken in the state the command found (R150). The
command's word is the one that encodes it. -/
def runCommand (i : Instr) (body : State → Except FaultKind State) (s : State) : Out :=
  if s.faulted then .next s
  else
    match body s with
    | .ok t => .next t
    | .error k => .next (raiseFault k (encode i) s)

/-- `RESULT <- r`: what the five look-up commands do (spec/10_state.md R22). -/
def setResult (r : Word) (s : State) : State := { s with result := r }

/-- `ACCNT <- 0` (spec/46_block_codec_engine.md R118, R119). -/
def clearAccnt (s : State) : State := { s with accnt := 0 }

/-! ### Memories -/

/-- The memory that the host's `sel` selects, none for 8 to 15 (R47). -/
def spaceOfSel (sel : BitVec 4) : Option Space :=
  [Space.imgi, .imgo, .dcs 0, .dcs 1, .dcs 2, .acs 0, .acs 1, .acs 2][sel.toNat]?

/-- The number of elements of `IMGI` and of `IMGO` (R35). -/
def imageSize : Nat := 192 * Config.maxBlocks

/-- The number of elements of each `DCS[k]` (R35). -/
def dcsSize : Nat := Config.maxBlocks

/-- The number of elements of each `ACS[k]` (R35). -/
def acsSize : Nat := 63 * Config.maxBlocks

/-- `MemRead(IMGI[i], 1)`; an element never written since the hardware reset holds its free value (R9, R167). -/
def State.readImgi (s : State) (i : Nat) : BitVec 8 := (s.imgi.find i).getD (Config.anyValue 8 s.epoch (.mem .imgi) i)

/-- `MemRead(IMGO[i], 1)`. -/
def State.readImgo (s : State) (i : Nat) : BitVec 8 := (s.imgo.find i).getD (Config.anyValue 8 s.epoch (.mem .imgo) i)

/-- `MemRead(DCS[k][i], 1)`. -/
def State.readDcs (s : State) (k : Fin 3) (i : Nat) : BitVec 16 :=
  (s.dcs[k].find i).getD (Config.anyValue 16 s.epoch (.mem (.dcs k)) i)

/-- `MemRead(ACS[k][i], 1)`. -/
def State.readAcs (s : State) (k : Fin 3) (i : Nat) : BitVec 16 :=
  (s.acs[k].find i).getD (Config.anyValue 16 s.epoch (.mem (.acs k)) i)

/-- `MemWrite(IMGI[i], 1, v)`. -/
def State.writeImgi (s : State) (i : Nat) (v : BitVec 8) : State := { s with imgi := s.imgi.store i v }

/-- `MemWrite(IMGO[i], 1, v)`. -/
def State.writeImgo (s : State) (i : Nat) (v : BitVec 8) : State := { s with imgo := s.imgo.store i v }

/-- `MemWrite(DCS[k][i], 1, v)`. -/
def State.writeDcs (s : State) (k : Fin 3) (i : Nat) (v : BitVec 16) : State :=
  { s with dcs := s.dcs.set k.val (s.dcs[k].store i v) k.isLt }

/-- `MemWrite(ACS[k][i], 1, v)`. -/
def State.writeAcs (s : State) (k : Fin 3) (i : Nat) (v : BitVec 16) : State :=
  { s with acs := s.acs.set k.val (s.acs[k].store i v) k.isLt }

/-- A host memory read (R38, R47): the element, zero-extended from an image, sign-extended from a stream; 0 beyond the
space. -/
def hostReadSpace (p : Space) (i : Nat) (s : State) : Word :=
  match p with
  | .imgi => if imageSize ≤ i then 0 else (s.readImgi i).setWidth 32
  | .imgo => if imageSize ≤ i then 0 else (s.readImgo i).setWidth 32
  | .dcs k => if dcsSize ≤ i then 0 else (s.readDcs k i).signExtend 32
  | .acs k => if acsSize ≤ i then 0 else (s.readAcs k i).signExtend 32

/-- A host memory write (R38, R47): the low 8 or 16 bits of the data; ignored beyond the space. -/
def hostWriteSpace (p : Space) (i : Nat) (d : Word) (s : State) : State :=
  match p with
  | .imgi => if imageSize ≤ i then s else s.writeImgi i (d.setWidth 8)
  | .imgo => if imageSize ≤ i then s else s.writeImgo i (d.setWidth 8)
  | .dcs k => if dcsSize ≤ i then s else s.writeDcs k i (d.setWidth 16)
  | .acs k => if acsSize ≤ i then s else s.writeAcs k i (d.setWidth 16)

/-- The transaction `MR sel, i` (R47): the word it returns; 0 where `sel` selects nothing. -/
def hostRead (sel : BitVec 4) (i : Word) (s : State) : Word :=
  match spaceOfSel sel with
  | some p => hostReadSpace p i.toNat s
  | none => 0

/-- The transaction `MW sel, i, d` (R47), performed in the fault state too; ignored where `sel` selects nothing. -/
def hostWrite (sel : BitVec 4) (i d : Word) (s : State) : State :=
  match spaceOfSel sel with
  | some p => hostWriteSpace p i.toNat d s
  | none => s

/-! ### Registers -/

/-- `QBASE[cls]` (R28). -/
def State.qbase (s : State) : ChannelClass → Buf 8
  | .luma => s.qbaseLuma
  | .chroma => s.qbaseChroma

/-- What a read of a location returns: the value zero- or sign-extended by its type, 0 where it is write only (R17,
R18). -/
def readLocation (r : Reg) (s : State) : Word :=
  match r with
  | .id => idWord
  | .status => s.status
  | .errinfo => s.errinfo
  | .cmd => 0
  | .result => s.result
  | .cf => s.cf.setWidth 32
  | .rows => s.rows.setWidth 32
  | .cols => s.cols.setWidth 32
  | .dcin => s.dcin.signExtend 32
  | .dcout => s.dcout.signExtend 32
  | .acpush => 0
  | .accnt => s.accnt.setWidth 32
  | .dcidx k => s.dcidx[k]
  | .acidx k => s.acidx[k]
  | .dclen k => s.dclen[k]
  | .aclen k => s.aclen[k]
  | .pixi i => s.pixi[i].setWidth 32
  | .fcoef i => s.fcoef[i].signExtend 32
  | .div i => s.div[i].setWidth 32
  | .qco i => s.qco[i].signExtend 32
  | .scan i => s.scan[i].signExtend 32
  | .acin i => s.acin[i].signExtend 32
  | .icoef i => s.icoef[i]
  | .samp i => s.samp[i].signExtend 32
  | .pixo i => s.pixo[i].setWidth 32
  | .qbase cls i => (s.qbase cls)[i].setWidth 32

/-- A push to `ACPUSH` (spec/46_block_codec_engine.md R117): the first 63 since the last clear fill `ACIN` in order;
all are counted, up to 127. -/
def pushAc (d : Word) (s : State) : State :=
  { s with
    acin  := stageAc s.acin s.accnt.toNat (d.setWidth 16)
    accnt := BitVec.ofNat 7 (min 127 (s.accnt.toNat + 1)) }

/-- What a write of data `d` to a location does outside the fault state: a writable location keeps the low bits of
`d`, a read-only one ignores it, `ACPUSH` pushes, `CMD` stores nothing (R17, R18, R22). The command a write to `CMD`
executes is in Transaction.lean. -/
def writeLocation (r : Reg) (d : Word) (s : State) : State :=
  match r with
  | .id => s
  | .status => s
  | .errinfo => s
  | .cmd => s
  | .result => s
  | .cf => { s with cf := d.setWidth 16 }
  | .rows => { s with rows := d.setWidth 16 }
  | .cols => { s with cols := d.setWidth 16 }
  | .dcin => { s with dcin := d.setWidth 16 }
  | .dcout => s
  | .acpush => pushAc d s
  | .accnt => s
  | .dcidx _ => s
  | .acidx _ => s
  | .dclen k => { s with dclen := s.dclen.set k.val d k.isLt }
  | .aclen k => { s with aclen := s.aclen.set k.val d k.isLt }
  | .pixi i => { s with pixi := s.pixi.set i.val (d.setWidth 8) i.isLt }
  | .fcoef _ => s
  | .div _ => s
  | .qco i => { s with qco := s.qco.set i.val (d.setWidth 16) i.isLt }
  | .scan i => { s with scan := s.scan.set i.val (d.setWidth 16) i.isLt }
  | .acin _ => s
  | .icoef i => { s with icoef := s.icoef.set i.val d i.isLt }
  | .samp _ => s
  | .pixo _ => s
  | .qbase .luma i => { s with qbaseLuma := s.qbaseLuma.set i.val (d.setWidth 8) i.isLt }
  | .qbase .chroma i => { s with qbaseChroma := s.qbaseChroma.set i.val (d.setWidth 8) i.isLt }

/-- The transaction `RD a` (R17): the word it returns; 0 where nothing is mapped; the fault state does not matter. -/
def readReg (a : BitVec 12) (s : State) : Word :=
  match regAt a with
  | some r => readLocation r s
  | none => 0

/-- The transaction `WR a, d` with `a` not `CMD` (R17, R152): ignored in the fault state and where nothing is mapped. -/
def writeReg (a : BitVec 12) (d : Word) (s : State) : State :=
  if s.faulted then s
  else
    match regAt a with
    | some r => writeLocation r d s
    | none => s

end Sys2Proof.Machine
end

