-- ==== Sys2Proof/Machine/Fd.lean ====
section
/-! DEFINITION. `dct_forward_butterfly`, unit 2 (spec/42_dct_forward_butterfly.md): the normative double sum R70, the
butterfly R71, R72 that the hardware computes it by, and the command. -/

namespace Sys2Proof.Machine

/-- The forward accumulator, an exact integer with 32 fraction bits (R70). -/
def facc (P : Fin 8 → Fin 8 → Int) (u v : Fin 8) : Int :=
  sum8 fun x => sum8 fun y => twiddle u x * twiddle v y * P x y

/-- The forward transform: one rounding of the exact sum (R70). -/
def fdct (P : Fin 8 → Fin 8 → Int) (u v : Fin 8) : Int := rnd32 (facc P u v)

/-- The one-dimensional forward butterfly (R71); it reads the ROM at positions 0 to 3 only. -/
def forwardButterfly (a : Fin 8 → Int) (k : Fin 8) : Int :=
  if k.val % 2 = 0 then
    twiddle k 0 * (a 0 + a 7) + twiddle k 1 * (a 1 + a 6) + twiddle k 2 * (a 2 + a 5) + twiddle k 3 * (a 3 + a 4)
  else
    twiddle k 0 * (a 0 - a 7) + twiddle k 1 * (a 1 - a 6) + twiddle k 2 * (a 2 - a 5) + twiddle k 3 * (a 3 - a 4)

/-- The unit's accumulator: row pass, then column pass (R72). -/
def butterflyFacc (P : Fin 8 → Fin 8 → Int) (u v : Fin 8) : Int :=
  forwardButterfly (fun x => forwardButterfly (fun y => P x y) v) u

/-- `FCOEF[u][v] <- fdct(PIXI)[u][v]` for all 64 positions (R73, R114 step 1). -/
def transformForward (s : State) : State :=
  { s with fcoef := bufOfMatrix 12 (fdct (unsignedMatrix s.pixi)) }

/-- `FD.RUN` (R73). -/
def execFdRun (s : State) : Out := runCommand .fdRun (fun s => .ok (transformForward s)) s

end Sys2Proof.Machine
end

