-- ==== Sys2Proof/Machine/Id.lean ====
section
/-! DEFINITION. `dct_inverse_butterfly`, unit 3 (spec/43_dct_inverse_butterfly.md): the normative double sum R80, the
butterfly R81, R82 that the hardware computes it by, and the command. -/

namespace Sys2Proof.Machine

/-- The inverse accumulator, an exact integer with 32 fraction bits (R80). -/
def iacc (C : Fin 8 → Fin 8 → Int) (x y : Fin 8) : Int :=
  sum8 fun u => sum8 fun v => twiddle u x * twiddle v y * C u v

/-- The inverse transform: one rounding of the exact sum, saturated to s16 (R80). -/
def idct (C : Fin 8 → Fin 8 → Int) (x y : Fin 8) : Int := sat16 (rnd32 (iacc C x y))

/-- The even part of the inverse butterfly, `e[n]` (R81). -/
def evenPart (A : Fin 8 → Int) (n : Fin 8) : Int :=
  twiddle 0 n * A 0 + twiddle 2 n * A 2 + twiddle 4 n * A 4 + twiddle 6 n * A 6

/-- The odd part of the inverse butterfly, `o[n]` (R81). -/
def oddPart (A : Fin 8 → Int) (n : Fin 8) : Int :=
  twiddle 1 n * A 1 + twiddle 3 n * A 3 + twiddle 5 n * A 5 + twiddle 7 n * A 7

/-- The one-dimensional inverse butterfly (R81); it reads the ROM at positions 0 to 3 only. -/
def inverseButterfly (A : Fin 8 → Int) (n : Fin 8) : Int :=
  if n.val < 4 then evenPart A n + oddPart A n else evenPart A n.rev - oddPart A n.rev

/-- The unit's accumulator: column pass, then row pass (R82). -/
def butterflyIacc (C : Fin 8 → Fin 8 → Int) (x y : Fin 8) : Int :=
  inverseButterfly (fun v => inverseButterfly (fun u => C u v) x) y

/-- `SAMP[x][y] <- idct(ICOEF)[x][y]` for all 64 positions (R83, R116 step 3). -/
def transformInverse (s : State) : State :=
  { s with samp := bufOfMatrix 16 (idct (signedMatrix s.icoef)) }

/-- `ID.RUN` (R83). -/
def execIdRun (s : State) : Out := runCommand .idRun (fun s => .ok (transformInverse s)) s

end Sys2Proof.Machine
end

