-- ==== Sys2Proof/Machine/Qs.lean ====
section
/-! DEFINITION. `quantization_table_scaler`, unit 4 (spec/44_quantization_table_scaler.md). -/

namespace Sys2Proof.Machine

/-- A base entry scaled by the compression factor, rounded to nearest, at least 1 (R90). -/
def scaleDivisor (base : BitVec 8) (cf : BitVec 16) : Nat := max 1 ((base.toNat * cf.toNat + 128) / 2 ^ 8)

/-- `divisor(cls, u, v)`, with the `CF` and `QBASE` of this moment (R90). -/
def divisor (s : State) (cls : ChannelClass) (u v : Fin 8) : Nat := scaleDivisor (s.qbase cls)[lin u v] s.cf

/-- `DIV[u][v] <- divisor(cls, u, v)` for all 64 positions (R94, R114, R116). -/
def buildDivisors (cls : ChannelClass) (s : State) : State :=
  { s with div := bufOfMatrix 16 fun u v => (divisor s cls u v : Int) }

/-- `QS.DIV cls, u, v` (R92): `RESULT` is one divisor. -/
def execQsDiv (cls : ChannelClass) (u v : Nat) (s : State) : Out :=
  runCommand (.qsDiv cls u v)
    (fun s =>
      if legalIndex u && legalIndex v then
        .ok (setResult (BitVec.ofNat 32 (divisor s cls (toIndex u) (toIndex v))) s)
      else .error .invalidIndex) s

/-- `QS.BUILD cls` (R94). -/
def execQsBuild (cls : ChannelClass) (s : State) : Out :=
  runCommand (.qsBuild cls) (fun s => .ok (buildDivisors cls s)) s

end Sys2Proof.Machine
end

