-- ==== Sys2Proof/Machine/Zz.lean ====
section
/-! DEFINITION. `zigzag_reorder`, unit 5 (spec/45_zigzag_reorder.md). -/

namespace Sys2Proof.Machine

/-- `SCAN[ZZ[u][v]] <- QCO[u][v]` for all 64 positions (R106, R114 steps 3 and 4). -/
def scanBlock (s : State) : State :=
  { s with scan := scatter (fun i => zigzag (rowOf i) (colOf i)) s.qco s.scan }

/-- `QCO[IZ[s]] <- SCAN[s]` for all 64 scan positions (R107, R116 step 1). -/
def unscanBlock (s : State) : State := { s with qco := scatter unzigzag s.scan s.qco }

/-- `ZZ.FWD u, v` (R104): `RESULT` is the scan position. -/
def execZzFwd (u v : Nat) (s : State) : Out :=
  runCommand (.zzFwd u v)
    (fun s => .ok (setResult (BitVec.ofNat 32 (zigzag (toIndex u) (toIndex v)).val) s)) s

/-- `ZZ.INV s` (R105): `RESULT` is the linear index, `u` in bits 5:3 and `v` in bits 2:0. -/
def execZzInv (pos : Nat) (s : State) : Out :=
  runCommand (.zzInv pos)
    (fun s => .ok (setResult (BitVec.ofNat 32 (unzigzag (Fin.ofNat 64 pos)).val) s)) s

/-- `ZZ.SCAN` (R106). -/
def execZzScan (s : State) : Out := runCommand .zzScan (fun s => .ok (scanBlock s)) s

/-- `ZZ.UNSCAN` (R107). -/
def execZzUnscan (s : State) : Out := runCommand .zzUnscan (fun s => .ok (unscanBlock s)) s

end Sys2Proof.Machine
end

