-- ==== Sys2Proof/Machine/Bc.lean ====
section
/-! DEFINITION. `block_codec_engine`, unit 6 (spec/46_block_codec_engine.md): quantise, dequantise, clamp, the two
whole-block sequences and the AC staging. -/

namespace Sys2Proof.Machine

/-- `QCO[i] <- rdiv(FCOEF[i], max(1, DIV[i]))` for all 64 elements (R110, R114 step 2). -/
def quantise (s : State) : State :=
  { s with qco := tabulate fun i => BitVec.ofInt 16 (rdiv s.fcoef[i].toInt (max 1 s.div[i].toNat)) }

/-- `ICOEF[i] <- QCO[i] * DIV[i]` for all 64 elements, `DIV[i]` as it is (R112, R116 step 2). -/
def dequantise (s : State) : State :=
  { s with icoef := tabulate fun i => BitVec.ofInt 32 (s.qco[i].toInt * (s.div[i].toNat : Int)) }

/-- `PIXO[i] <- clamp255(SAMP[i])` for all 64 elements (R113, R116 step 4). -/
def clampSamples (s : State) : State :=
  { s with pixo := tabulate fun i => BitVec.ofInt 8 (clamp255 s.samp[i].toInt) }

/-- `DCOUT <- SCAN[0]` (R114). -/
def copyDc (s : State) : State := { s with dcout := s.scan[0] }

/-- The internal sequence `bc_forward(cls)` (R114): from `PIXI` to `DCOUT` and `SCAN`. -/
def bcForward (cls : ChannelClass) (s : State) : State :=
  copyDc (scanBlock (quantise (transformForward (buildDivisors cls s))))

/-- The internal sequence `bc_inverse(cls)` (R116): from `SCAN` to `PIXO`. -/
def bcInverse (cls : ChannelClass) (s : State) : State :=
  clampSamples (transformInverse (dequantise (buildDivisors cls (unscanBlock s))))

/-- A DC value followed by 63 AC values, in scan order (R108, R118, R133). -/
def scanOf (dc : BitVec 16) (ac : Fin 63 → BitVec 16) : Buf 16 :=
  tabulate fun j => if h : j.val = 0 then dc else ac ⟨j.val - 1, by omega⟩

/-- `SCAN[0] <- DCIN`, `SCAN[1 + i] <- ACIN[i]` (R118). -/
def loadScan (s : State) : State := { s with scan := scanOf s.dcin fun i => s.acin[i] }

/-- `BC.QUANT` (R110). -/
def execBcQuant (s : State) : Out := runCommand .bcQuant (fun s => .ok (quantise s)) s

/-- `BC.DEQ` (R112). -/
def execBcDeq (s : State) : Out := runCommand .bcDeq (fun s => .ok (dequantise s)) s

/-- `BC.CLAMP` (R113). -/
def execBcClamp (s : State) : Out := runCommand .bcClamp (fun s => .ok (clampSamples s)) s

/-- `BC.FWD cls` (R115). -/
def execBcFwd (cls : ChannelClass) (s : State) : Out :=
  runCommand (.bcFwd cls) (fun s => .ok (bcForward cls s)) s

/-- `BC.INV cls` (R118): malformed unless exactly 63 AC values have been pushed; clears the count. -/
def execBcInv (cls : ChannelClass) (s : State) : Out :=
  runCommand (.bcInv cls)
    (fun s =>
      if s.accnt.toNat = 63 then .ok (clearAccnt (bcInverse cls (loadScan s)))
      else .error .malformedStream) s

/-- `BC.ACCLR` (R119). -/
def execBcAcclr (s : State) : Out := runCommand .bcAcclr (fun s => .ok (clearAccnt s)) s

end Sys2Proof.Machine
end

