-- ==== Sys2Proof/Machine/It.lean ====
section
/-! DEFINITION. `image_tile_orchestrator`, unit 7 (spec/47_image_tile_orchestrator.md): the two image passes. -/

namespace Sys2Proof.Machine

/-- `class_of(k)`: channel 0 is Luma, channels 1 and 2 are Chroma (spec/44_quantization_table_scaler.md R91). -/
def classOf (k : Fin 3) : ChannelClass := if k = 0 then .luma else .chroma

/-- `pix_index(r, c, k)` of an image `cols` pixels wide (spec/20_memory.md R36). -/
def pixIndex (cols r c k : Nat) : Nat := (r * cols + c) * 3 + k

/-- The image element that is element `i` of block `(br, bc)` of channel `k` (R128). -/
def blockPixel (cols br bc : Nat) (k : Fin 3) (i : Fin 64) : Nat :=
  pixIndex cols (8 * br + (rowOf i).val) (8 * bc + (colOf i).val) k.val

/-- The number of blocks down the image, `nbr` (R127). -/
def State.blockRows (s : State) : Nat := s.rows.toNat / 8

/-- The number of blocks along the image, `nbc` (R127). -/
def State.blockCols (s : State) : Nat := s.cols.toNat / 8

/-- The number of blocks per channel, `nb` (R127). -/
def State.blockCount (s : State) : Nat := s.blockRows * s.blockCols

/-- `dims_ok()` (R126): both sides are multiples of 8 and the blocks do not exceed the capacity. -/
def dimsOk (s : State) : Bool :=
  s.rows.toNat % 8 == 0 && s.cols.toNat % 8 == 0 && !decide (Config.maxBlocks < s.blockCount)

/-- The six lengths are those of `nb` blocks per channel (R134). -/
def lengthsOk (s : State) : Bool :=
  (List.finRange 3).all fun k => s.dclen[k].toNat == s.blockCount && s.aclen[k].toNat == 63 * s.blockCount

/-- The cursors start at 0 at pass entry (spec/10_state.md R26). -/
def zeroCursors (s : State) : State :=
  { s with dcidx := Vector.replicate 3 0, acidx := Vector.replicate 3 0 }

/-- `DCIDX[k] <- DCIDX[k] + 1` and `ACIDX[k] <- ACIDX[k] + 63` (R130, R133). -/
def advanceCursors (k : Fin 3) (s : State) : State :=
  { s with
    dcidx := s.dcidx.set k.val (s.dcidx[k] + 1) k.isLt
    acidx := s.acidx.set k.val (s.acidx[k] + 63) k.isLt }

/-- `PIXI[x][y] <- IMGI[pix_index(...)]` for the block `(br, bc)` of channel `k` (R130). -/
def loadPixels (br bc : Nat) (k : Fin 3) (s : State) : State :=
  { s with pixi := tabulate fun i => s.readImgi (blockPixel s.cols.toNat br bc k i) }

/-- Append `DCOUT` to `DC[k]` and `SCAN[1..63]` to `AC[k]` at the cursors (R130). -/
def appendStreams (k : Fin 3) (s : State) : State :=
  (List.finRange 63).foldl
    (fun t i => t.writeAcs k (s.acidx[k].toNat + i.val) (s.scan[i.val + 1]'(by omega)))
    (s.writeDcs k s.dcidx[k].toNat s.dcout)

/-- One block of one channel of `IT.ENCODE` (R130). -/
def encodeBlock (br bc : Nat) (k : Fin 3) (s : State) : State :=
  advanceCursors k (appendStreams k (bcForward (classOf k) (loadPixels br bc k s)))

/-- `SCAN` from the streams of channel `k` at the cursors (R133). -/
def loadStreams (k : Fin 3) (s : State) : State :=
  { s with scan := scanOf (s.readDcs k s.dcidx[k].toNat) fun i => s.readAcs k (s.acidx[k].toNat + i.val) }

/-- `IMGO[pix_index(...)] <- PIXO[x][y]` for the block `(br, bc)` of channel `k` (R133). -/
def storePixels (br bc : Nat) (k : Fin 3) (s : State) : State :=
  (List.finRange 64).foldl (fun t i => t.writeImgo (blockPixel s.cols.toNat br bc k i) s.pixo[i]) s

/-- One block of one channel of `IT.DECODE` (R133). -/
def decodeBlock (br bc : Nat) (k : Fin 3) (s : State) : State :=
  storePixels br bc k (bcInverse (classOf k) (advanceCursors k (loadStreams k s)))

/-- The (block row, block column, channel) triples in the order a pass takes them: blocks in raster order, and for each
block the channels 0, 1, 2 (R131). -/
def passOrder (nbr nbc : Nat) : List (Nat × Nat × Fin 3) :=
  (List.range nbr).flatMap fun br => (List.range nbc).flatMap fun bc => (List.finRange 3).map fun k => (br, bc, k)

/-- Run one block step over the whole image (R130, R133). -/
def runPass (step : Nat → Nat → Fin 3 → State → State) (s : State) : State :=
  (passOrder s.blockRows s.blockCols).foldl (fun t b => step b.1 b.2.1 b.2.2 t) s

/-- `DCLEN[k] <- DCIDX[k]`, `ACLEN[k] <- ACIDX[k]` at pass exit (R130). -/
def setLengths (s : State) : State := { s with dclen := s.dcidx, aclen := s.acidx }

/-- `IT.ENCODE` (R130). -/
def execItEncode (s : State) : Out :=
  runCommand .itEncode
    (fun s =>
      if dimsOk s then .ok (setLengths (runPass encodeBlock (zeroCursors s)))
      else .error .invalidDimensions) s

/-- `IT.DECODE` (R133): the dimensions are checked before the lengths (R155). -/
def execItDecode (s : State) : Out :=
  runCommand .itDecode
    (fun s =>
      if dimsOk s then
        if lengthsOk s then .ok (runPass decodeBlock (zeroCursors s)) else .error .malformedStream
      else .error .invalidDimensions) s

end Sys2Proof.Machine
end

