-- ==== Sys2Proof/Machine/Sys.lean ====
section
/-! DEFINITION. The system commands, unit 0 (spec/40_sys_commands.md). -/

namespace Sys2Proof.Machine

/-- `SYS.NOP` (R59): nothing. -/
def execSysNop (s : State) : Out := runCommand .sysNop (fun s => .ok s) s

/-- `SYS.SRESET` (R60): the one command executed in the fault state too (R152). -/
def execSysSreset (s : State) : Out := .next (softReset s)

end Sys2Proof.Machine
end

