-- ==== Sys2Proof/Machine/Tw.lean ====
section
/-! DEFINITION. The commands of `twiddle_rom`, unit 1 (spec/41_twiddle_rom.md). -/

namespace Sys2Proof.Machine

/-- `TW.RD k, n` (R67): `RESULT` is the twiddle word, sign-extended. -/
def execTwRd (k n : Nat) (s : State) : Out :=
  runCommand (.twRd k n)
    (fun s =>
      if legalIndex k && legalIndex n then
        .ok (setResult (BitVec.ofInt 32 (twiddle (toIndex k) (toIndex n))) s)
      else .error .invalidIndex) s

/-- `TW.BASIS u, v, x, y` (R68): `RESULT` is one entry of the four-index basis. -/
def execTwBasis (u v x y : Nat) (s : State) : Out :=
  runCommand (.twBasis u v x y)
    (fun s =>
      if legalIndex u && legalIndex v && legalIndex x && legalIndex y then
        .ok (setResult (BitVec.ofInt 32 (basis (toIndex u) (toIndex v) (toIndex x) (toIndex y))) s)
      else .error .invalidIndex) s

end Sys2Proof.Machine
end

