-- ==== Sys2Proof/Machine/Dispatch.lean ====
section
/-! DEFINITION. One arm per command of spec/30_encoding.md R54: the meaning of each. -/

namespace Sys2Proof.Machine

open Host

def exec (i : Instr) (s : State) : Host.Outcome State Fault Refusal :=
  match i with
  | .sysNop => Sys2Proof.Machine.execSysNop s
  | .sysSreset => Sys2Proof.Machine.execSysSreset s
  | .twRd k n => Sys2Proof.Machine.execTwRd k n s
  | .twBasis u v x y => Sys2Proof.Machine.execTwBasis u v x y s
  | .fdRun => Sys2Proof.Machine.execFdRun s
  | .idRun => Sys2Proof.Machine.execIdRun s
  | .qsDiv cls u v => Sys2Proof.Machine.execQsDiv cls u v s
  | .qsBuild cls => Sys2Proof.Machine.execQsBuild cls s
  | .zzFwd u v => Sys2Proof.Machine.execZzFwd u v s
  | .zzInv pos => Sys2Proof.Machine.execZzInv pos s
  | .zzScan => Sys2Proof.Machine.execZzScan s
  | .zzUnscan => Sys2Proof.Machine.execZzUnscan s
  | .bcQuant => Sys2Proof.Machine.execBcQuant s
  | .bcDeq => Sys2Proof.Machine.execBcDeq s
  | .bcClamp => Sys2Proof.Machine.execBcClamp s
  | .bcFwd cls => Sys2Proof.Machine.execBcFwd cls s
  | .bcInv cls => Sys2Proof.Machine.execBcInv cls s
  | .bcAcclr => Sys2Proof.Machine.execBcAcclr s
  | .itEncode => Sys2Proof.Machine.execItEncode s
  | .itDecode => Sys2Proof.Machine.execItDecode s

end Sys2Proof.Machine
end

