-- ==== Sys2Proof/Machine/Transaction.lean ====
section
/-! DEFINITION. What the host does to the core: the transactions of spec/30_encoding.md R49, their presentation on the
ports (spec/70_reset_and_hazards.md R178, R179), and the core's answer to each, one atomic step (R50). -/

namespace Sys2Proof.Machine

/-- The host transactions (R49). -/
inductive Transaction
  | wr (a : BitVec 12) (d : Word)
  | rd (a : BitVec 12)
  | mw (sel : BitVec 4) (i d : Word)
  | mr (sel : BitVec 4) (i : Word)
deriving DecidableEq, Repr

/-- What the host asks of the core by the input ports. -/
inductive Request
  /-- `rst_n` is low (R165). -/
  | reset
  /-- Neither port presents a transaction. -/
  | idle
  /-- Both ports present one, which R179 forbids. -/
  | conflict
  | transaction (t : Transaction)
deriving DecidableEq, Repr

/-- Read the request off the ports (R178, R179). Reset goes before everything (R50, R167). -/
def Pins.request (p : Pins) : Request :=
  match p.rstN, p.hValid, p.mValid with
  | false, _, _ => .reset
  | true, false, false => .idle
  | true, true, true => .conflict
  | true, true, false => .transaction (if p.hWrite then .wr p.hAddr p.hWdata else .rd p.hAddr)
  | true, false, true => .transaction (if p.mWrite then .mw p.mSel p.mIndex p.mWdata else .mr p.mSel p.mIndex)

/-- The ports with nothing presented and the reset not asserted. -/
def Pins.quiet : Pins where
  rstN   := true
  hValid := false
  hWrite := false
  hAddr  := 0
  hWdata := 0
  mValid := false
  mWrite := false
  mSel   := 0
  mIndex := 0
  mWdata := 0

/-- How the host presents a transaction (R178). -/
def Transaction.pins : Transaction → Pins
  | .wr a d => { Pins.quiet with hValid := true, hWrite := true, hAddr := a, hWdata := d }
  | .rd a => { Pins.quiet with hValid := true, hAddr := a }
  | .mw sel i d => { Pins.quiet with mValid := true, mWrite := true, mSel := sel, mIndex := i, mWdata := d }
  | .mr sel i => { Pins.quiet with mValid := true, mSel := sel, mIndex := i }

/-- A transaction completes on the register port, with the data it returns if it is a read (R178, R179). -/
def answerH (d : Option Word) (s : State) : State :=
  { s with outputs := { hReady := true, hRdata := d, mReady := false, mRdata := none } }

/-- A transaction completes on the memory port. -/
def answerM (d : Option Word) (s : State) : State :=
  { s with outputs := { hReady := false, hRdata := none, mReady := true, mRdata := d } }

/-- No transaction completes in this step. -/
def answerNone (s : State) : State := { s with outputs := Outputs.quiet }

/-- A write of `w` to `CMD` (spec/10_state.md R22), in the order of spec/60_exceptions.md R155: the fault state is
tested before decoding and lets only `SYS.SRESET` through (R152); a word that decodes to no command faults (R149);
any other runs its command (R53). -/
def writeCmd (w : Word) (s : State) : Out :=
  if s.faulted then
    if w = 0x01000000 then exec .sysSreset s else .next s
  else
    match decode w with
    | .illegal _ => .next (raiseFault .illegalCommand w s)
    | .command i => exec i s

/-- One transaction, performed whole (R49, R50); reads have no side effect (spec/20_memory.md R41). -/
def perform (t : Transaction) (s : State) : Out :=
  match t with
  | .wr a d => if a = cmdIndex then writeCmd d (answerH none s) else .next (writeReg a d (answerH none s))
  | .rd a => .next (answerH (some (readReg a s)) s)
  | .mw sel i d => .next (hostWrite sel i d (answerM none s))
  | .mr sel i => .next (answerM (some (hostRead sel i s)) s)

/-- Answer a request. -/
def answer (r : Request) (s : State) : Out :=
  match r with
  | .reset => .next (hardReset (answerNone s))
  | .idle => .next (answerNone s)
  | .conflict => .refused .hostPresentsBothPorts
  | .transaction t => perform t s

/-- The state that an input step starts from: what the host holds on the ports is no longer to come. -/
def afterInput (rest : List Pins) (s : State) : State := { s with inbox := rest }

/-- The next step of the machine: with nothing left in the inbox the host stays quiet. -/
def serve (s : State) : Out :=
  match s.inbox with
  | [] => answer .idle s
  | p :: rest => answer p.request (afterInput rest s)

/-- The host's transactions one after the other, each complete before the next begins (spec/20_memory.md R44). -/
def performAll : List Transaction → State → Out
  | [], s => .next s
  | t :: rest, s =>
    match perform t s with
    | .next s' => performAll rest s'
    | .fault f => .fault f
    | .refused r => .refused r

/-- The state in which the host is about to write the word `w` to `CMD`. -/
def presentCommand (w : Word) (s : State) : State :=
  { s with inbox := (Transaction.wr cmdIndex w).pins :: s.inbox }

end Sys2Proof.Machine
end

