-- ==== Sys2Proof/Machine/Step.lean ====
section
/-! DEFINITION. One step of SRIP-CORE: the next host transaction, or a hardware reset, or a step in which the host
does nothing (spec/30_encoding.md R50). The core fetches no instructions (spec/10_state.md R16): a command comes to
run when the host writes it to `CMD`. -/

namespace Sys2Proof.Machine

/-- One step. -/
def step (s : State) : Host.Outcome State Fault Refusal := serve s

/-- `s` with the host about to write the row's word to `CMD`, so that the next step runs it (R16, R22). Log entry 5. -/
def State.withFetchWord (s : State) (nbits w : Nat) : State :=
  presentCommand (BitVec.ofNat 32 (w % 2 ^ nbits)) s

end Sys2Proof.Machine
end

