-- ==== Sys2Proof/Machine/Pseudo.lean ====
section
/-! DEFINITION. The assembler's command line and the pseudo-instructions, each a fixed expansion into host transactions
(spec/30_encoding.md R57, R58). -/

namespace Sys2Proof.Machine

/-- The register write `WR <reg>, <value>` (R57). -/
def Reg.write (r : Reg) (d : Word) : Transaction := .wr (BitVec.ofNat 12 r.index) d

/-- The line `CMD <mnemonic> [operands]`: a `WR` of the command word to `CMD` (R57). -/
def commandLine (i : Instr) : Transaction := .wr cmdIndex (encode i)

/-- The pseudo-instructions of R58. -/
inductive Pseudo
  | setcf (v : Word)
  | setdim (rows cols : Word)
  | ldblk (vs : Vector Word 64)
  | ldtab (cls : ChannelClass) (vs : Vector Word 64)
  | pushac (v : Word)
  | ldac (vs : Vector Word 63)
  | reset
deriving DecidableEq, Repr

/-- The expansion of a pseudo-instruction (R58). -/
def Pseudo.expand : Pseudo → List Transaction
  | .setcf v => [Reg.write .cf v]
  | .setdim r c => [Reg.write .rows r, Reg.write .cols c]
  | .ldblk vs => (List.finRange 64).map fun i => Reg.write (.pixi i) vs[i]
  | .ldtab cls vs => (List.finRange 64).map fun i => Reg.write (.qbase cls i) vs[i]
  | .pushac v => [Reg.write .acpush v]
  | .ldac vs => commandLine .bcAcclr :: (List.finRange 63).map fun i => Reg.write .acpush vs[i]
  | .reset => [commandLine .sysSreset]

end Sys2Proof.Machine
end

