-- ==== Sys2Proof/Safety.lean ====
section
/-! DEFINITION. What the claims about SRIP-CORE speak of: which states keep the spec's promises (the invariant), which
command raises which fault, and the must-be-zero bits of a command word. -/

namespace Sys2Proof.Machine

/-- How many low bits of `ARG` the command of a unit and operation uses; the bits above them, up to bit 23, must be
zero (spec/30_encoding.md R51, R52). -/
def argWidth (unit op : Nat) : Nat :=
  match unit, op with
  | 1, 0 => 8
  | 1, 1 => 16
  | 4, 0 => 9
  | 4, 1 => 1
  | 5, 0 => 6
  | 5, 1 => 6
  | 6, 3 => 1
  | 6, 4 => 1
  | _, _ => 0

/-- Some index field of the command holds 8 or more (spec/60_exceptions.md R147). -/
def indexOutOfRange : Instr → Bool
  | .twRd k n => decide (7 < k) || decide (7 < n)
  | .twBasis u v x y => decide (7 < u) || decide (7 < v) || decide (7 < x) || decide (7 < y)
  | .qsDiv _ u v => decide (7 < u) || decide (7 < v)
  | _ => false

/-- The fault a command raises in a state with `STATUS.FAULT = 0`, if it raises one: the table R162, its
`IllegalCommand` column apart, and the priority R155. -/
def commandFault (i : Instr) (s : State) : Option FaultKind :=
  if indexOutOfRange i then some .invalidIndex
  else
    match i with
    | .bcInv _ => if s.accnt.toNat = 63 then none else some .malformedStream
    | .itEncode => if dimsOk s then none else some .invalidDimensions
    | .itDecode =>
      if dimsOk s then if lengthsOk s then none else some .malformedStream else some .invalidDimensions
    | _ => none

/-- The number of elements of each memory (spec/20_memory.md R35). -/
def spaceSize : Space → Nat
  | .imgi => imageSize
  | .imgo => imageSize
  | .dcs _ => dcsSize
  | .acs _ => acsSize

/-- The word a host read of an element returns after a host write of `d` to it: the low 8 bits zero-extended in an
image, the low 16 bits sign-extended in a stream (R47). -/
def spaceExtend : Space → Word → Word
  | .imgi, d => (d.setWidth 8).setWidth 32
  | .imgo, d => (d.setWidth 8).setWidth 32
  | .dcs _, d => (d.setWidth 16).signExtend 32
  | .acs _, d => (d.setWidth 16).signExtend 32

/-- Every memory is in its canonical form and lists only elements of its space (spec/20_memory.md R35, R38). -/
def State.memoriesOk (s : State) : Prop :=
  (s.imgi.wf ∧ s.imgi.within imageSize) ∧ (s.imgo.wf ∧ s.imgo.within imageSize) ∧
  ∀ k : Fin 3, (s.dcs[k].wf ∧ s.dcs[k].within dcsSize) ∧ (s.acs[k].wf ∧ s.acs[k].within acsSize)

/-- `STATUS` and `ERRINFO` tell the truth (spec/10_state.md R19, R20; spec/60_exceptions.md R145 to R150): both are
zero, or `STATUS` holds one fault kind, every other bit zero, and `ERRINFO` a command word that can raise it. -/
def State.faultRecordOk (s : State) : Prop :=
  (s.status = 0 ∧ s.errinfo = 0) ∨
  (s.status = faultStatus .invalidDimensions ∧
    (decode s.errinfo = .command .itEncode ∨ decode s.errinfo = .command .itDecode)) ∨
  (s.status = faultStatus .invalidIndex ∧ ∃ i, decode s.errinfo = .command i ∧ indexOutOfRange i = true) ∨
  (s.status = faultStatus .malformedStream ∧
    (decode s.errinfo = .command .itDecode ∨ ∃ cls, decode s.errinfo = .command (.bcInv cls))) ∨
  (s.status = faultStatus .illegalCommand ∧ ∃ why, decode s.errinfo = .illegal why)

/-- A matrix of intensities, every element in 0..255 (spec/10_state.md R24). -/
def isPixelBlock (P : Fin 8 → Fin 8 → Int) : Prop := ∀ x y, 0 ≤ P x y ∧ P x y ≤ 255

/-- A matrix of s32 elements (spec/43_dct_inverse_butterfly.md R79). -/
def isWordMatrix (C : Fin 8 → Fin 8 → Int) : Prop := ∀ u v, -2 ^ 31 ≤ C u v ∧ C u v < 2 ^ 31

/-- The invariant every step keeps. -/
def State.Inv (s : State) : Prop := s.memoriesOk ∧ s.faultRecordOk

/-- A safe state: it meets the invariant and the core is not in the fault state, so that commands run. -/
def State.Safe (s : State) : Prop := s.Inv ∧ s.faulted = false

/-- The register values after either reset (spec/70_reset_and_hazards.md R166): `ID` is its constant, `CMD` and
`ACPUSH` hold nothing. -/
def State.registersReset (s : State) : Prop :=
  readLocation .id s = 0x53524950 ∧ readLocation .cmd s = 0 ∧ readLocation .acpush s = 0 ∧
  s.status = 0 ∧ s.errinfo = 0 ∧ s.result = 0 ∧ s.cf = 0x0100 ∧ s.rows = 0 ∧ s.cols = 0 ∧
  s.dcin = 0 ∧ s.dcout = 0 ∧ s.accnt = 0 ∧
  (∀ k : Fin 3, s.dcidx[k] = 0 ∧ s.acidx[k] = 0 ∧ s.dclen[k] = 0 ∧ s.aclen[k] = 0) ∧
  (∀ cls i, (s.qbase cls)[(i : Fin 64)] = (qdef cls)[i])

end Sys2Proof.Machine
end

