-- ==== Sys2Proof/Certificates/Slice0/Obligations.lean ====
section
/-! DEFINITION. The statements for the provers, from the numbered rules of spec/. A statement about a command names the
whole next state, `{ s with … }`: every register, buffer, memory and flag it does not list is the one of `s`, so that
every element of every memory reads as before. -/

open Sys2Proof Sys2Proof.Machine

/-! ### Encoding -/

/-- R53, R54: the decoder gives back every well-formed command from its word, with every operand. -/
def Obligations.DecodeOfEncode : Prop :=
  ∀ i : Instr, WellFormed i = true → decode (encode i) = .command i

/-- R51 to R54: a word that decodes is the word of the command it decodes to; no bit is dropped or ignored. -/
def Obligations.EncodeOfDecode : Prop :=
  ∀ (w : Word) (i : Instr), decode w = .command i → WellFormed i = true ∧ encode i = w

/-- R53: "At most one row matches". -/
def Obligations.NoWordMatchesTwoRows : Prop :=
  ∀ (w : Word) (r₁ r₂ : Row), r₁ ∈ opcodeMap → r₂ ∈ opcodeMap →
    r₁.accepts w = true → r₂.accepts w = true → r₁.mnemonic = r₂.mnemonic

/-- R55: exactly these words are illegal; writing one raises IllegalCommand and does nothing else; an index field of 8
to 15 is not illegal, it decodes and raises InvalidIndex. -/
def Obligations.IllegalWordsFault : Prop :=
  (∀ w : Word, (∃ why, decode w = .illegal why) ↔
    (8 ≤ field w 28 4 ∨ assignedOps (field w 28 4) ≤ field w 24 4 ∨ field w 16 8 ≠ 0 ∨
      field w (argWidth (field w 28 4) (field w 24 4)) (16 - argWidth (field w 28 4) (field w 24 4)) ≠ 0)) ∧
  (∀ (w : Word) (why : Illegal) (s : State), decode w = .illegal why → s.faulted = false →
    writeCmd w s = .next (raiseFault .illegalCommand w s)) ∧
  (∀ (i : Instr) (s : State), WellFormed i = true → indexOutOfRange i = true → s.faulted = false →
    decode (encode i) = .command i ∧ writeCmd (encode i) s = .next (raiseFault .invalidIndex (encode i) s))

/-- R57 and the examples of R67, R68, R92, R94, R104, R105, R115: these words stand for these commands. -/
def Obligations.ExampleWordsDecode : Prop :=
  decode 0x10000010 = .command (.twRd 1 0) ∧
  decode 0x11001073 = .command (.twBasis 1 0 7 3) ∧
  decode 0x20000000 = .command .fdRun ∧
  decode 0x30000000 = .command .idRun ∧
  decode 0x40000101 = .command (.qsDiv .chroma 0 1) ∧
  decode 0x41000001 = .command (.qsBuild .chroma) ∧
  decode 0x5000001C = .command (.zzFwd 3 4) ∧
  decode 0x51000011 = .command (.zzInv 17) ∧
  decode 0x63000000 = .command (.bcFwd .luma) ∧
  decode 0x71000000 = .command .itDecode ∧
  decode 0x01000001 = .illegal .nonzeroArgBit ∧
  decode 0x80000000 = .illegal .reservedUnit

/-! ### The host's transactions -/

/-- R18: a word index names a location exactly when it is the location's index in the map. -/
def Obligations.RegisterIndicesFollowTheMap : Prop :=
  ∀ (a : BitVec 12) (r : Reg), regAt a = some r ↔ a.toNat = r.index

/-- R17: what a read of each index of the map returns, the location's own field extended by its type, in the fault
state too; what a register write stores, by width, signedness and access; a write to one location leaves every other
register and every memory element as it was; in the fault state every write is ignored but that of `SYS.SRESET` to
`CMD`. -/
def Obligations.RegisterAccessFollowsTheMap : Prop :=
  ∀ (s : State) (a : BitVec 12) (d : Word),
    (readReg 0x000 s = 0x53524950 ∧ readReg 0x001 s = s.status ∧ readReg 0x002 s = s.errinfo ∧ readReg 0x003 s = 0 ∧
      readReg 0x004 s = s.result ∧ (readReg 0x005 s).toNat = s.cf.toNat ∧ (readReg 0x006 s).toNat = s.rows.toNat ∧
      (readReg 0x007 s).toNat = s.cols.toNat ∧ (readReg 0x008 s).toInt = s.dcin.toInt ∧
      (readReg 0x009 s).toInt = s.dcout.toInt ∧ readReg 0x00A s = 0 ∧ (readReg 0x00B s).toNat = s.accnt.toNat) ∧
    (∀ k : Fin 3, readReg (BitVec.ofNat 12 (0x010 + k)) s = s.dcidx[k] ∧
      readReg (BitVec.ofNat 12 (0x014 + k)) s = s.acidx[k] ∧ readReg (BitVec.ofNat 12 (0x018 + k)) s = s.dclen[k] ∧
      readReg (BitVec.ofNat 12 (0x01C + k)) s = s.aclen[k]) ∧
    (∀ i : Fin 64, (readReg (BitVec.ofNat 12 (0x040 + i)) s).toNat = s.pixi[i].toNat ∧
      (readReg (BitVec.ofNat 12 (0x080 + i)) s).toInt = s.fcoef[i].toInt ∧
      (readReg (BitVec.ofNat 12 (0x0C0 + i)) s).toNat = s.div[i].toNat ∧
      (readReg (BitVec.ofNat 12 (0x100 + i)) s).toInt = s.qco[i].toInt ∧
      (readReg (BitVec.ofNat 12 (0x140 + i)) s).toInt = s.scan[i].toInt ∧
      (readReg (BitVec.ofNat 12 (0x1C0 + i)) s).toInt = s.icoef[i].toInt ∧
      (readReg (BitVec.ofNat 12 (0x200 + i)) s).toInt = s.samp[i].toInt ∧
      (readReg (BitVec.ofNat 12 (0x240 + i)) s).toNat = s.pixo[i].toNat ∧
      (readReg (BitVec.ofNat 12 (0x280 + i)) s).toNat = s.qbaseLuma[i].toNat ∧
      (readReg (BitVec.ofNat 12 (0x2C0 + i)) s).toNat = s.qbaseChroma[i].toNat) ∧
    (∀ i : Fin 63, (readReg (BitVec.ofNat 12 (0x180 + i)) s).toInt = s.acin[i].toInt) ∧
    (regAt a = none → readReg a s = 0 ∧ writeReg a d s = s) ∧
    (s.faulted = true → (a ≠ cmdIndex → writeReg a d s = s) ∧
      (a ≠ cmdIndex ∨ d ≠ 0x01000000 → perform (.wr a d) s = .next (answerH none s))) ∧
    ∀ r, regAt a = some r →
      readReg a s = r.extend (readReg a s) ∧
      (r.access = .wo → readReg a s = 0) ∧
      (r.access = .ro → writeReg a d s = s) ∧
      (r.access = .rw → s.faulted = false →
        readReg a (writeReg a d s) = r.extend d ∧
        (∀ b, b ≠ a → readReg b (writeReg a d s) = readReg b s) ∧
        (∀ sel i, hostRead sel i (writeReg a d s) = hostRead sel i s))

/-- R22, R50, R53: when the host writes to `CMD` a word that decodes, outside the fault state, the step is the
command's meaning, with the inbox shortened and the register port answering; so also after `withFetchWord`. -/
def Obligations.StepRunsTheDecodedCommand : Prop :=
  ∀ (s : State) (w : Word) (i : Instr), s.faulted = false → decode w = .command i →
    (∀ rest, s.inbox = (Transaction.wr cmdIndex w).pins :: rest →
      step s = exec i (answerH none (afterInput rest s))) ∧
    step (s.withFetchWord 32 w.toNat) = exec i (answerH none s)

/-- R41, R44, R47, R49: every other transaction is one step that does just that transaction; a read changes nothing
but the answer on its port. With an empty inbox a step changes nothing but the ports (log entry 5). -/
def Obligations.StepServesOneTransaction : Prop :=
  ∀ s : State,
    (∀ a rest, s.inbox = (Transaction.rd a).pins :: rest →
      step s = .next (answerH (some (readReg a s)) (afterInput rest s))) ∧
    (∀ a d rest, a ≠ cmdIndex → s.inbox = (Transaction.wr a d).pins :: rest →
      step s = .next (writeReg a d (answerH none (afterInput rest s)))) ∧
    (∀ sel i rest, s.inbox = (Transaction.mr sel i).pins :: rest →
      step s = .next (answerM (some (hostRead sel i s)) (afterInput rest s))) ∧
    (∀ sel i d rest, s.inbox = (Transaction.mw sel i d).pins :: rest →
      step s = .next (hostWrite sel i d (answerM none (afterInput rest s)))) ∧
    (s.inbox = [] → step s = .next (answerNone s))

/-- R178, R179, R165, R167: the ports carry each transaction as it is; both ports together are refused; `rst_n` low is
the hardware reset, whatever else the ports present (log entry 12), after which the registers hold their reset values
and every element of the buffers and memories its free value (log entry 2). -/
def Obligations.PortsCarryTheHostsRequests : Prop :=
  (∀ t : Transaction, t.pins.request = .transaction t) ∧
  (∀ (s : State) (p : Pins) (rest : List Pins), s.inbox = p :: rest →
    (p.rstN = true → p.hValid = true → p.mValid = true → step s = .refused .hostPresentsBothPorts) ∧
    (p.rstN = false → ∃ t, step s = .next t ∧ t.registersReset ∧ t.inbox = rest ∧ t.epoch = s.epoch + 1 ∧
      (∀ i : Fin 64, t.pixi[i] = Config.anyValue 8 t.epoch .pixi i ∧ t.fcoef[i] = Config.anyValue 12 t.epoch .fcoef i ∧
        t.div[i] = Config.anyValue 16 t.epoch .div i ∧ t.qco[i] = Config.anyValue 16 t.epoch .qco i ∧
        t.scan[i] = Config.anyValue 16 t.epoch .scan i ∧ t.icoef[i] = Config.anyValue 32 t.epoch .icoef i ∧
        t.samp[i] = Config.anyValue 16 t.epoch .samp i ∧ t.pixo[i] = Config.anyValue 8 t.epoch .pixo i) ∧
      (∀ i : Fin 63, t.acin[i] = Config.anyValue 16 t.epoch .acin i) ∧
      (∀ a, t.readImgi a = Config.anyValue 8 t.epoch (.mem .imgi) a ∧
        t.readImgo a = Config.anyValue 8 t.epoch (.mem .imgo) a) ∧
      (∀ k a, t.readDcs k a = Config.anyValue 16 t.epoch (.mem (.dcs k)) a ∧
        t.readAcs k a = Config.anyValue 16 t.epoch (.mem (.acs k)) a)))

/-- R152: while `STATUS.FAULT` is 1 a `CMD` write of 0x01000000 runs `SYS.SRESET` and any other does nothing, every
other register write does nothing, and register reads, memory reads and memory writes are as normal. -/
def Obligations.FaultStateRefusesAllButSreset : Prop :=
  ∀ (s : State) (rest : List Pins), s.faulted = true →
    (∀ w, s.inbox = (Transaction.wr cmdIndex w).pins :: rest →
      step s = .next (if w = 0x01000000 then softReset (answerH none (afterInput rest s))
        else answerH none (afterInput rest s))) ∧
    (∀ a d, a ≠ cmdIndex → s.inbox = (Transaction.wr a d).pins :: rest →
      step s = .next (answerH none (afterInput rest s))) ∧
    (∀ a, s.inbox = (Transaction.rd a).pins :: rest →
      step s = .next (answerH (some (readReg a s)) (afterInput rest s))) ∧
    (∀ sel i, s.inbox = (Transaction.mr sel i).pins :: rest →
      step s = .next (answerM (some (hostRead sel i s)) (afterInput rest s))) ∧
    (∀ sel i d, s.inbox = (Transaction.mw sel i d).pins :: rest →
      step s = .next (hostWrite sel i d (answerM none (afterInput rest s))))

/-- R117: a push stores the low 16 bits at `ACIN[ACCNT]` while `ACCNT` is below 63, and counts up to 127. -/
def Obligations.AcPushFillsTheStagingBuffer : Prop :=
  ∀ (s : State) (d : Word), s.faulted = false →
    ∃ t, perform (.wr 0x00A d) s = .next t ∧
      t.accnt.toNat = min 127 (s.accnt.toNat + 1) ∧
      (∀ i : Fin 63, t.acin[i] = if i.val = s.accnt.toNat then d.setWidth 16 else s.acin[i]) ∧
      t = { answerH none s with acin := t.acin, accnt := t.accnt }

/-- R58: what the expansions of the loading pseudo-instructions leave, from every state outside the fault state. -/
def Obligations.PseudoInstructionsLoadTheirTargets : Prop :=
  ∀ s : State, s.faulted = false →
    (∀ vs : Vector Word 64, ∃ t, performAll (Pseudo.ldblk vs).expand s = .next t ∧
      (∀ i : Fin 64, t.pixi[i] = vs[i].setWidth 8) ∧ t = { answerH none s with pixi := t.pixi }) ∧
    (∀ vs : Vector Word 63, ∃ t, performAll (Pseudo.ldac vs).expand s = .next t ∧
      t.accnt = 63 ∧ (∀ i : Fin 63, t.acin[i] = vs[i].setWidth 16) ∧
      t = { answerH none s with acin := t.acin, accnt := t.accnt }) ∧
    (∀ r c : Word, performAll (Pseudo.setdim r c).expand s =
      .next { answerH none s with rows := r.setWidth 16, cols := c.setWidth 16 })

/-- R35, R38, R47: which memory `sel` selects and how many elements it has; a host read inside a space gives the
element, zero-extended from an image, sign-extended from a stream; after a host write of the element it gives the low
bits written, extended, and every other element and every register reads as before; beyond a space, and where `sel`
selects nothing, writes are ignored and reads give 0. -/
def Obligations.MemoryReadAfterWrite : Prop :=
  ∀ (s : State) (sel : BitVec 4) (i d : Word),
    (spaceOfSel sel = none ↔ 8 ≤ sel.toNat) ∧
    (spaceOfSel 0 = some .imgi ∧ spaceOfSel 1 = some .imgo ∧
      ∀ k : Fin 3, spaceOfSel (BitVec.ofNat 4 (2 + k)) = some (.dcs k) ∧
        spaceOfSel (BitVec.ofNat 4 (5 + k)) = some (.acs k)) ∧
    (spaceSize .imgi = 192 * Config.maxBlocks ∧ spaceSize .imgo = 192 * Config.maxBlocks ∧
      ∀ k, spaceSize (.dcs k) = Config.maxBlocks ∧ spaceSize (.acs k) = 63 * Config.maxBlocks) ∧
    (i.toNat < 192 * Config.maxBlocks → (hostRead 0 i s).toNat = (s.readImgi i.toNat).toNat ∧
      (hostRead 1 i s).toNat = (s.readImgo i.toNat).toNat) ∧
    (∀ k : Fin 3,
      (i.toNat < Config.maxBlocks → (hostRead (BitVec.ofNat 4 (2 + k)) i s).toInt = (s.readDcs k i.toNat).toInt) ∧
      (i.toNat < 63 * Config.maxBlocks →
        (hostRead (BitVec.ofNat 4 (5 + k)) i s).toInt = (s.readAcs k i.toNat).toInt)) ∧
    (∀ b, readReg b (hostWrite sel i d s) = readReg b s) ∧
    (spaceOfSel sel = none → hostWrite sel i d s = s ∧ hostRead sel i s = 0) ∧
    (∀ m, spaceOfSel sel = some m → spaceSize m ≤ i.toNat → hostWrite sel i d s = s ∧ hostRead sel i s = 0) ∧
    (∀ m, spaceOfSel sel = some m → i.toNat < spaceSize m →
      hostRead sel i (hostWrite sel i d s) = spaceExtend m d ∧
      ∀ sel' j, sel' ≠ sel ∨ j ≠ i → hostRead sel' j (hostWrite sel i d s) = hostRead sel' j s)

/-! ### Reset and faults -/

/-- R166: the register values after either reset, and in the initial state. -/
def Obligations.RegistersAfterEitherReset : Prop :=
  State.reset.registersReset ∧ ∀ s : State, (softReset s).registersReset ∧ (hardReset s).registersReset

/-- R60: `SYS.SRESET`, the word 0x01000000, runs in every state, the fault state too; it resets the registers and
keeps every buffer, `ACIN` and every memory element. It also keeps the model's own fields `epoch`, `inbox` and
`outputs`, which is the model's choice (log entries 2 and 5). -/
def Obligations.SresetResetsRegistersKeepsStorage : Prop :=
  decode 0x01000000 = .command .sysSreset ∧ ∀ s : State,
    ∃ t, exec .sysSreset s = .next t ∧ t.registersReset ∧ t.faulted = false ∧ t.errCode = 0 ∧
    t.pixi = s.pixi ∧ t.fcoef = s.fcoef ∧ t.div = s.div ∧ t.qco = s.qco ∧ t.scan = s.scan ∧ t.acin = s.acin ∧
    t.icoef = s.icoef ∧ t.samp = s.samp ∧ t.pixo = s.pixo ∧
    (∀ a, t.readImgi a = s.readImgi a ∧ t.readImgo a = s.readImgo a) ∧
    (∀ k a, t.readDcs k a = s.readDcs k a ∧ t.readAcs k a = s.readAcs k a) ∧
    t.epoch = s.epoch ∧ t.inbox = s.inbox ∧ t.outputs = s.outputs

/-- R150: to raise a fault writes `STATUS.FAULT`, `STATUS.ERRCODE` and `ERRINFO` and nothing else; the codes are those
of the table in R145. -/
def Obligations.FaultEntryWritesStatusAndErrinfo : Prop :=
  ∀ (k : FaultKind) (w : Word) (s : State),
    (raiseFault k w s).faulted = true ∧ (raiseFault k w s).errCode = k.code ∧ (raiseFault k w s).errinfo = w ∧
    field (raiseFault k w s).status 1 3 = 0 ∧ field (raiseFault k w s).status 8 24 = 0 ∧
    raiseFault k w s = { s with status := (raiseFault k w s).status, errinfo := w } ∧
    (raiseFault .invalidDimensions w s).errCode = 1 ∧ (raiseFault .invalidIndex w s).errCode = 2 ∧
    (raiseFault .malformedStream w s).errCode = 3 ∧ (raiseFault .illegalCommand w s).errCode = 4

/-- R30, R152: every command but `SYS.SRESET` tests `STATUS.FAULT` first and, where it is 1, changes nothing. -/
def Obligations.CommandsAreRefusedWhileFaulted : Prop :=
  ∀ (i : Instr) (s : State), i ≠ .sysSreset → s.faulted = true → exec i s = .next s

/-- R145 to R148, R151, R155, R162: outside the fault state a command faults exactly when the table says so, with that
kind and its own word, and then changes nothing but `STATUS` and `ERRINFO`; otherwise it ends outside the fault
state. The dimensions are good when both sides are multiples of 8 and the blocks at most `MAX_BLOCKS` (R126), the
lengths when all six are those of that many blocks (R134). -/
def Obligations.CommandFaultsArePrecise : Prop :=
  (∀ s : State,
    (dimsOk s = true ↔ s.rows.toNat % 8 = 0 ∧ s.cols.toNat % 8 = 0 ∧
      (s.rows.toNat / 8) * (s.cols.toNat / 8) ≤ Config.maxBlocks) ∧
    (lengthsOk s = true ↔ ∀ k : Fin 3, s.dclen[k].toNat = (s.rows.toNat / 8) * (s.cols.toNat / 8) ∧
      s.aclen[k].toNat = 63 * ((s.rows.toNat / 8) * (s.cols.toNat / 8)))) ∧
  ∀ (i : Instr) (s : State), s.faulted = false →
    (∀ k, commandFault i s = some k → exec i s = .next (raiseFault k (encode i) s)) ∧
    (commandFault i s = none → ∃ t, exec i s = .next t ∧ t.faulted = false)

/-- R153: the fault state ends only by `SYS.SRESET` or by the hardware reset. -/
def Obligations.OnlyResetsLeaveTheFaultState : Prop :=
  ∀ s t : State, s.faulted = true → step s = .next t → t.faulted = false →
    ∃ p rest, s.inbox = p :: rest ∧
      (p.request = .reset ∨ p.request = .transaction (.wr cmdIndex 0x01000000))

/-! ### SYS and TW -/

/-- R59: `SYS.NOP`, the word 0, changes nothing, in the fault state or out of it. -/
def Obligations.NopChangesNothing : Prop :=
  decode 0x00000000 = .command .sysNop ∧ ∀ s : State, exec .sysNop s = .next s

/-- R67: `TW.RD k, n` puts the twiddle word, as a signed number, in `RESULT` and changes nothing else; an index above
7 faults with the command's word. -/
def Obligations.TwRdReadsTheRom : Prop :=
  ∀ (k n : Nat) (s : State), s.faulted = false → k < 16 → n < 16 →
    encode (.twRd k n) = BitVec.ofNat 32 (0x10000000 + 16 * k + n) ∧
    (∀ (hk : k < 8) (hn : n < 8), ∃ r : Word, exec (.twRd k n) s = .next { s with result := r } ∧
      r.toInt = twiddle ⟨k, hk⟩ ⟨n, hn⟩) ∧
    (7 < k ∨ 7 < n → exec (.twRd k n) s =
      .next (raiseFault .invalidIndex (BitVec.ofNat 32 (0x10000000 + 16 * k + n)) s))

/-- R68, R64: `TW.BASIS u, v, x, y` puts the exact product of two twiddle words in `RESULT`: it fits s32. -/
def Obligations.TwBasisIsTheExactProduct : Prop :=
  ∀ (u v x y : Nat) (s : State), s.faulted = false → u < 16 → v < 16 → x < 16 → y < 16 →
    encode (.twBasis u v x y) = BitVec.ofNat 32 (0x11000000 + 4096 * u + 256 * v + 16 * x + y) ∧
    (∀ (hu : u < 8) (hv : v < 8) (hx : x < 8) (hy : y < 8), ∃ r : Word,
      exec (.twBasis u v x y) s = .next { s with result := r } ∧
      r.toInt = twiddle ⟨u, hu⟩ ⟨x, hx⟩ * twiddle ⟨v, hv⟩ ⟨y, hy⟩) ∧
    (7 < u ∨ 7 < v ∨ 7 < x ∨ 7 < y → exec (.twBasis u v x y) s =
      .next (raiseFault .invalidIndex (BitVec.ofNat 32 (0x11000000 + 4096 * u + 256 * v + 16 * x + y)) s))

/-! ### Rounding -/

/-- R11: both rounding functions are odd. -/
def Obligations.RoundingIsOdd : Prop :=
  (∀ a : Int, rnd32 (-a) = -rnd32 a) ∧ ∀ (a : Int) (d : Nat), 1 ≤ d → rdiv (-a) d = -rdiv a d

/-- R10: both rounding functions give a nearest integer, and on an exact half the one farther from zero. -/
def Obligations.RoundingIsToNearest : Prop :=
  (∀ a : Int, 2 * (2 ^ 32 * rnd32 a - a).natAbs ≤ 2 ^ 32 ∧
    (2 * (2 ^ 32 * rnd32 a - a).natAbs = 2 ^ 32 → a.natAbs < (2 ^ 32 * rnd32 a).natAbs)) ∧
  (∀ (a : Int) (d : Nat), 1 ≤ d → 2 * ((d : Int) * rdiv a d - a).natAbs ≤ d ∧
    (2 * ((d : Int) * rdiv a d - a).natAbs = d → a.natAbs < ((d : Int) * rdiv a d).natAbs))

/-! ### FD -/

/-- R73, R70, R72: `FD.RUN`, the word 0x20000000, puts in `FCOEF` the once-rounded exact double sum over `PIXI`, the
same integers that the two butterfly passes give in either order, none of them cut by the 12 bits; nothing else
changes. -/
def Obligations.FdRunIsTheRoundedDoubleSum : Prop :=
  decode 0x20000000 = .command .fdRun ∧ ∀ s : State, s.faulted = false →
    ∃ c : Buf 12, exec .fdRun s = .next { s with fcoef := c } ∧
      ∀ u v, signedMatrix c u v =
          rnd32 (sum8 fun x => sum8 fun y => twiddle u x * twiddle v y * unsignedMatrix s.pixi x y) ∧
        signedMatrix c u v = rnd32 (butterflyFacc (unsignedMatrix s.pixi) u v) ∧
        signedMatrix c u v =
          rnd32 (forwardButterfly (fun y => forwardButterfly (fun x => unsignedMatrix s.pixi x y) u) v)

/-- R74: the bounds of the forward path for every block of intensities, and that the accumulator's are reached. -/
def Obligations.ForwardBounds : Prop :=
  (∀ P, isPixelBlock P →
    (∀ x v, (forwardButterfly (P x) v).natAbs ≤ 47266800) ∧
    ∀ u v, (-4380687024000 ≤ facc P u v ∧ facc P u v ≤ 8761374048000) ∧
      (-1020 ≤ fdct P u v ∧ fdct P u v ≤ 2040) ∧
      (u ≠ 0 ∨ v ≠ 0 → (fdct P u v).natAbs ≤ 1020)) ∧
  facc (fun _ _ => 255) 0 0 = 8761374048000 ∧ (47266800 : Int) < 2 ^ 26 ∧ (8761374048000 : Int) < 2 ^ 43 ∧
  (∀ u v, (u, v) ∈ [((0 : Fin 8), (4 : Fin 8)), (4, 0), (4, 4)] →
    facc (fun x y => if basis u v x y < 0 then 255 else 0) u v = -4380687024000)

/-- R71: the forward butterfly is the eight-term sum, for every integer vector. -/
def Obligations.ForwardButterflyIsTheSum : Prop :=
  ∀ (a : Fin 8 → Int) (k : Fin 8), forwardButterfly a k = sum8 fun n => twiddle k n * a n

/-- R72: the row pass followed by the column pass computes the double sum exactly, and so do the passes in the other
order. -/
def Obligations.ForwardPassesComputeTheDoubleSum : Prop :=
  ∀ (P : Fin 8 → Fin 8 → Int) (u v : Fin 8), butterflyFacc P u v = facc P u v ∧
    forwardButterfly (fun y => forwardButterfly (fun x => P x y) u) v = facc P u v

/-- R76: a flat block has no AC energy, and its DC coefficient is 8 times its value. -/
def Obligations.FlatBlockHasOnlyDc : Prop :=
  sum8 (twiddle 0) = 185360 ∧ (∀ k : Fin 8, k ≠ 0 → sum8 (twiddle k) = 0) ∧ ∀ (p : Int) (u v : Fin 8),
    facc (fun _ _ => p) u v = p * (sum8 (twiddle u)) * (sum8 (twiddle v)) ∧
    (u ≠ 0 ∨ v ≠ 0 → fdct (fun _ _ => p) u v = 0) ∧
    (0 ≤ p → p ≤ 255 → fdct (fun _ _ => p) 0 0 = 8 * p)

/-- R77: transposing or reflecting a block transposes or alternates the signs of its transform; the accumulator is
additive, the rounded transform is not. -/
def Obligations.ForwardSymmetries : Prop :=
  (∀ (P Q : Fin 8 → Fin 8 → Int) (u v : Fin 8),
    fdct (fun x y => P y x) u v = fdct P v u ∧
    facc (fun x y => P x y + Q x y) u v = facc P u v + facc Q u v ∧
    fdct (fun x y => P x y.rev) u v = (-1) ^ v.val * fdct P u v ∧
    fdct (fun x y => P x.rev y) u v = (-1) ^ u.val * fdct P u v) ∧
  ∃ (P Q : Fin 8 → Fin 8 → Int) (u v : Fin 8), fdct (fun x y => P x y + Q x y) u v ≠ fdct P u v + fdct Q u v

/-! ### ID -/

/-- R83, R80, R82: `ID.RUN`, the word 0x30000000, puts in `SAMP` the rounded, saturated exact double sum over `ICOEF`,
the same integers that the two butterfly passes give in either order; nothing else changes. The saturation never
changes the clamped intensity. -/
def Obligations.IdRunIsTheSaturatedDoubleSum : Prop :=
  decode 0x30000000 = .command .idRun ∧ (∀ a : Int, clamp255 (sat16 a) = clamp255 a) ∧
  ∀ s : State, s.faulted = false →
    ∃ c : Buf 16, exec .idRun s = .next { s with samp := c } ∧
      ∀ x y, signedMatrix c x y =
          sat16 (rnd32 (sum8 fun u => sum8 fun v => twiddle u x * twiddle v y * signedMatrix s.icoef u v)) ∧
        signedMatrix c x y = sat16 (rnd32 (butterflyIacc (signedMatrix s.icoef) x y)) ∧
        signedMatrix c x y =
          sat16 (rnd32 (inverseButterfly (fun u => inverseButterfly (fun v => signedMatrix s.icoef u v) y) x))

/-- R84: the bounds of the inverse path for every matrix of s32 elements. -/
def Obligations.InverseBounds : Prop :=
  (∀ C, isWordMatrix C →
    (∀ x v, (inverseButterfly (fun u => C u v) x).natAbs ≤ 2 ^ 31 * 173136) ∧
    ∀ x y, (iacc C x y).natAbs ≤ 64373129811389841408 ∧ (rnd32 (iacc C x y)).natAbs ≤ 14988037248 ∧
      -32768 ≤ idct C x y ∧ idct C x y ≤ 32767) ∧
  (2 ^ 31 * 173136 < 2 ^ 49 ∧ 2 ^ 31 * 173136 ^ 2 = 64373129811389841408 ∧ 64373129811389841408 < 2 ^ 66 ∧
    14988037248 < 2 ^ 34)

/-- R81: the inverse butterfly is the eight-term sum, for every integer vector. -/
def Obligations.InverseButterflyIsTheSum : Prop :=
  ∀ (A : Fin 8 → Int) (n : Fin 8), inverseButterfly A n = sum8 fun k => twiddle k n * A k

/-- R82: the column pass followed by the row pass computes the double sum exactly, and so do the passes in the other
order. -/
def Obligations.InversePassesComputeTheDoubleSum : Prop :=
  ∀ (C : Fin 8 → Fin 8 → Int) (x y : Fin 8), butterflyIacc C x y = iacc C x y ∧
    inverseButterfly (fun u => inverseButterfly (fun v => C u v) y) x = iacc C x y

/-- R85: what a DC-only matrix gives at every sample. -/
def Obligations.DcOnlyMatrixIsFlat : Prop :=
  (∀ (c : Int) (x y : Fin 8),
    idct (fun u v => if u = 0 ∧ v = 0 then c else 0) x y = sat16 (rnd32 (c * 536848900))) ∧
  (∀ (p : Int) (x y : Fin 8), 0 ≤ p → p ≤ 255 → idct (fun u v => if u = 0 ∧ v = 0 then 8 * p else 0) x y = p) ∧
  ∀ x y : Fin 8, idct (fun u v => if u = 0 ∧ v = 0 then 1020 else 0) x y = 127

/-- R86: forward then inverse without quantisation is off by at most 4 at every sample, for every block: before the last
rounding by less than half of (173136/65536)², plus 0.025, which is less than 3.515 (all scaled by 40 * 2^32). -/
def Obligations.RoundTripIsWithinFour : Prop :=
  (∀ P, isPixelBlock P → ∀ x y,
    40 * (iacc (fdct P) x y - 2 ^ 32 * P x y).natAbs < 20 * 173136 ^ 2 + 2 ^ 32 ∧
    (idct (fdct P) x y - P x y).natAbs ≤ 4) ∧
  1000 * (20 * 173136 ^ 2 + 2 ^ 32) < 40 * 3515 * 2 ^ 32

/-! ### QS -/

/-- R92, R90: `QS.DIV cls, u, v` puts one divisor, whole, in `RESULT`; an index above 7 faults with the command's
word. -/
def Obligations.QsDivGivesOneDivisor : Prop :=
  ∀ (cls : ChannelClass) (u v : Nat) (s : State), s.faulted = false → u < 16 → v < 16 →
    encode (.qsDiv cls u v) = BitVec.ofNat 32 (0x40000000 + 256 * cls.bit + 16 * u + v) ∧
    (∀ (hu : u < 8) (hv : v < 8), ∃ r : Word, exec (.qsDiv cls u v) s = .next { s with result := r } ∧
      r.toNat = max 1 (((s.qbase cls)[lin ⟨u, hu⟩ ⟨v, hv⟩].toNat * s.cf.toNat + 128) / 256)) ∧
    (7 < u ∨ 7 < v → exec (.qsDiv cls u v) s =
      .next (raiseFault .invalidIndex (BitVec.ofNat 32 (0x40000000 + 256 * cls.bit + 16 * u + v)) s))

/-- R94: `QS.BUILD cls`, the word 0x41000000 plus the class, puts the 64 divisors of the class, none cut by the 16
bits, in `DIV`; nothing else changes. No later register write changes `DIV`. -/
def Obligations.QsBuildGivesAllDivisors : Prop :=
  ∀ (cls : ChannelClass) (s : State), s.faulted = false →
    decode (BitVec.ofNat 32 (0x41000000 + cls.bit)) = .command (.qsBuild cls) ∧
    ∃ d : Buf 16, exec (.qsBuild cls) s = .next { s with div := d } ∧
      (∀ u v, d[lin u v].toNat = max 1 (((s.qbase cls)[lin u v].toNat * s.cf.toNat + 128) / 256)) ∧
      ∀ a x, (writeReg a x { s with div := d }).div = d

/-- R93: every divisor lies in 1..65279 and the product before the shift in 24 bits. -/
def Obligations.DivisorRange : Prop :=
  ∀ (s : State) (cls : ChannelClass) (u v : Fin 8),
    1 ≤ divisor s cls u v ∧ divisor s cls u v ≤ 65279 ∧
    (s.qbase cls)[lin u v].toNat * s.cf.toNat + 128 ≤ 16711553

/-- R95: a larger compression factor gives no smaller divisor, at every position. -/
def Obligations.DivisorGrowsWithFactor : Prop :=
  ∀ (s : State) (c₁ c₂ : BitVec 16) (cls : ChannelClass) (u v : Fin 8), c₁.toNat ≤ c₂.toNat →
    divisor { s with cf := c₁ } cls u v ≤ divisor { s with cf := c₂ } cls u v

/-- R96, R97: at factor 1.0 the divisor is the base entry, or 1 where that is 0; at factor 0, and wherever the rounded
product is 0, it is 1. -/
def Obligations.DivisorAtFactorsOneAndZero : Prop :=
  (∀ (s : State) (cls : ChannelClass) (u v : Fin 8),
    (s.cf = 0x0100 → divisor s cls u v = if (s.qbase cls)[lin u v] = 0 then 1 else (s.qbase cls)[lin u v].toNat) ∧
    (s.cf = 0 → divisor s cls u v = 1) ∧
    (((s.qbase cls)[lin u v].toNat * s.cf.toNat + 128) / 256 = 0 → divisor s cls u v = 1)) ∧
  (∀ s : State, divisor (softReset s) .luma 0 0 = 16 ∧ divisor (softReset s) .chroma 0 0 = 17 ∧
    divisor (softReset s) .luma 7 7 = 99 ∧ divisor (softReset s) .chroma 7 7 = 99)

/-! ### ZZ -/

/-- R104, R105, R100, R103: `ZZ.FWD` gives the table's scan position, which numbers the positions diagonal by diagonal,
even diagonals with `u` falling, odd ones with `u` rising, and `ZZ.INV` undoes it; each writes `RESULT` only. -/
def Obligations.ZigzagLookupsAreInverse : Prop :=
  ∀ (s : State) (u v u' v' : Fin 8) (pos : Fin 64), s.faulted = false →
    encode (.zzFwd u v) = BitVec.ofNat 32 (0x50000000 + 8 * u + v) ∧
    encode (.zzInv pos) = BitVec.ofNat 32 (0x51000000 + pos) ∧
    exec (.zzFwd u v) s = .next { s with result := BitVec.ofNat 32 (zigzag u v) } ∧
    ((zigzag u v).val < (zigzag u' v').val ↔
      u.val + v < u'.val + v' ∨
      (u.val + v = u'.val + v' ∧ if (u.val + v) % 2 = 0 then u'.val < u else u.val < u')) ∧
    exec (.zzInv (zigzag u v)) s = .next { s with result := BitVec.ofNat 32 (8 * u + v) } ∧
    (∃ q : Word, exec (.zzInv pos) s = .next { s with result := q } ∧ q.toNat = (unzigzag pos).val ∧
      exec (.zzFwd (q.toNat / 8) (q.toNat % 8)) s = .next { s with result := BitVec.ofNat 32 pos })

/-- R106, R107: `ZZ.SCAN`, the word 0x52000000, moves every element of `QCO` to its scan position in `SCAN`;
`ZZ.UNSCAN`, 0x53000000, moves every element of `SCAN` back to its matrix position in `QCO`; nothing else changes. -/
def Obligations.ScanAndUnscanMoveEveryElement : Prop :=
  decode 0x52000000 = .command .zzScan ∧ decode 0x53000000 = .command .zzUnscan ∧ ∀ s : State, s.faulted = false →
    (∃ b : Buf 16, exec .zzScan s = .next { s with scan := b } ∧ ∀ u v, b[zigzag u v] = s.qco[lin u v]) ∧
    (∃ b : Buf 16, exec .zzUnscan s = .next { s with qco := b } ∧ ∀ j : Fin 64, b[unzigzag j] = s.scan[j])

/-- R108: after `ZZ.SCAN` a `ZZ.UNSCAN` changes nothing, and the other way round; the first and last AC values are
those the rule names. That the first two are (0,1) and (1,0), in this order, rests on the direction of the first
zig-zag step, general knowledge of the spec (log entry 10). -/
def Obligations.ScanAndUnscanUndoEachOther : Prop :=
  ∀ s : State, s.faulted = false →
    (∃ t, exec .zzScan s = .next t ∧ exec .zzUnscan t = .next t ∧ t.scan[0] = s.qco[0] ∧
      t.scan[1] = s.qco[1] ∧ t.scan[2] = s.qco[8] ∧ t.scan[63] = s.qco[63] ∧
      ∀ u v, zigzag u v ≠ 0 → ∃ i : Fin 63, i.val = (zigzag u v).val - 1 ∧ t.scan[i.val + 1] = s.qco[lin u v]) ∧
    (∃ t, exec .zzUnscan s = .next t ∧ exec .zzScan t = .next t)

/-! ### BC -/

/-- R110: `BC.QUANT`, the word 0x60000000, puts in `QCO` each coefficient over its divisor, a zero divisor acting as
1, rounded and not cut by the 16 bits; nothing else changes. -/
def Obligations.BcQuantDividesAndRounds : Prop :=
  decode 0x60000000 = .command .bcQuant ∧ ∀ s : State, s.faulted = false →
    ∃ q : Buf 16, exec .bcQuant s = .next { s with qco := q } ∧
      ∀ i : Fin 64, q[i].toInt = rdiv s.fcoef[i].toInt (max 1 s.div[i].toNat)

/-- R111: a quantised coefficient is no larger than the coefficient and off by at most half its divisor; after
`FD.RUN` it lies in −1020..2040. -/
def Obligations.QuantisationErrorIsHalfADivisor : Prop :=
  (∀ (a : Int) (d : Nat), 1 ≤ d → (rdiv a d).natAbs ≤ a.natAbs) ∧
  (∀ s t : State, s.faulted = false → exec .bcQuant s = .next t → ∀ i : Fin 64,
    t.qco[i].toInt.natAbs ≤ s.fcoef[i].toInt.natAbs ∧
    -2048 ≤ t.qco[i].toInt ∧ t.qco[i].toInt ≤ 2047 ∧
    (t.qco[i].toInt * ((max 1 s.div[i].toNat : Nat) : Int) - s.fcoef[i].toInt).natAbs ≤ max 1 s.div[i].toNat / 2) ∧
  (∀ s t u : State, s.faulted = false → exec .fdRun s = .next t → exec .bcQuant t = .next u → ∀ i : Fin 64,
    -1020 ≤ u.qco[i].toInt ∧ u.qco[i].toInt ≤ 2040)

/-- R112, R113: `BC.DEQ`, the word 0x61000000, puts in `ICOEF` the exact products `QCO * DIV`; `BC.CLAMP`, 0x62000000,
puts in `PIXO` the samples clamped to 0..255; nothing else changes. -/
def Obligations.DeqIsExactAndClampIsInRange : Prop :=
  decode 0x61000000 = .command .bcDeq ∧ decode 0x62000000 = .command .bcClamp ∧ ∀ s : State, s.faulted = false →
    (∃ b : Buf 32, exec .bcDeq s = .next { s with icoef := b } ∧
      ∀ i : Fin 64, b[i].toInt = s.qco[i].toInt * (s.div[i].toNat : Int)) ∧
    (∃ p : Buf 8, exec .bcClamp s = .next { s with pixo := p } ∧
      ∀ i : Fin 64, (p[i].toNat : Int) =
        if s.samp[i].toInt < 0 then 0 else if 255 < s.samp[i].toInt then 255 else s.samp[i].toInt)

/-- R114, R115: `BC.FWD cls` is `QS.BUILD cls; FD.RUN; BC.QUANT; ZZ.SCAN` and the copy of `SCAN[0]` to `DCOUT`; it
changes `DIV`, `FCOEF`, `QCO`, `SCAN`, `DCOUT` and nothing else. -/
def Obligations.BcFwdIsTheStepSequence : Prop :=
  ∀ (cls : ChannelClass) (s : State), s.faulted = false →
    encode (.bcFwd cls) = BitVec.ofNat 32 (0x63000000 + cls.bit) ∧
    ∃ s₁ s₂ s₃ s₄, exec (.qsBuild cls) s = .next s₁ ∧ exec .fdRun s₁ = .next s₂ ∧ exec .bcQuant s₂ = .next s₃ ∧
      exec .zzScan s₃ = .next s₄ ∧ exec (.bcFwd cls) s = .next { s₄ with dcout := s₄.scan[0] } ∧
      s₄ = { s with div := s₁.div, fcoef := s₂.fcoef, qco := s₃.qco, scan := s₄.scan } ∧
      (∀ i : Fin 64, 1 ≤ s₁.div[i].toNat)

/-- R116, R118: with exactly 63 pushes `BC.INV cls` loads `SCAN` from `DCIN` and `ACIN`, runs
`ZZ.UNSCAN; QS.BUILD cls; BC.DEQ; ID.RUN; BC.CLAMP` and clears `ACCNT`, and changes nothing else; with any other count
it faults and writes nothing, not even `ACCNT`. -/
def Obligations.BcInvIsTheStepSequence : Prop :=
  ∀ (cls : ChannelClass) (s : State), s.faulted = false →
    encode (.bcInv cls) = BitVec.ofNat 32 (0x64000000 + cls.bit) ∧
    (s.accnt.toNat ≠ 63 →
      exec (.bcInv cls) s = .next (raiseFault .malformedStream (BitVec.ofNat 32 (0x64000000 + cls.bit)) s)) ∧
    (s.accnt.toNat = 63 → ∃ (b : Buf 16) (s₁ s₂ s₃ s₄ s₅ : State), b[(0 : Fin 64)] = s.dcin ∧
      (∀ i : Fin 63, b[i.val + 1] = s.acin[i]) ∧
      exec .zzUnscan { s with scan := b } = .next s₁ ∧ exec (.qsBuild cls) s₁ = .next s₂ ∧
      exec .bcDeq s₂ = .next s₃ ∧ exec .idRun s₃ = .next s₄ ∧ exec .bcClamp s₄ = .next s₅ ∧
      exec (.bcInv cls) s = .next { s₅ with accnt := 0 } ∧
      s₅ = { s with scan := b, qco := s₁.qco, div := s₂.div, icoef := s₃.icoef, samp := s₄.samp, pixo := s₅.pixo })

/-- R119, R173: `BC.ACCLR`, the word 0x65000000, clears `ACCNT`, keeps `ACIN` and everything else, and the next push
goes to `ACIN[0]`. -/
def Obligations.AcclrRestartsTheStaging : Prop :=
  ∀ (s : State) (d : Word), s.faulted = false →
    decode 0x65000000 = .command .bcAcclr ∧ exec .bcAcclr s = .next { s with accnt := 0 } ∧
    ∃ t, performAll [commandLine .bcAcclr, .wr 0x00A d] s = .next t ∧ t.accnt = 1 ∧ t.acin[0] = d.setWidth 16 ∧
      ∀ i : Fin 63, i ≠ 0 → t.acin[i] = s.acin[i]

/-- R121: a flat block encodes to one DC value and no AC value, whatever the factor and the tables; decoding that gives
a flat block, the same one whenever the DC divisor divides 8 times its value. -/
def Obligations.FlatBlockThroughTheEngine : Prop :=
  ∀ (s : State) (cls : ChannelClass) (p : BitVec 8), s.faulted = false →
    ((∀ i : Fin 64, s.pixi[i] = p) → ∃ t, exec (.bcFwd cls) s = .next t ∧
      t.dcout.toInt = rdiv (8 * (p.toNat : Int)) (divisor s cls 0 0) ∧ t.scan[0] = t.dcout ∧
      ∀ i : Fin 63, t.scan[i.val + 1] = 0) ∧
    (s.accnt.toNat = 63 → (∀ i : Fin 63, s.acin[i] = 0) →
      s.dcin.toInt = rdiv (8 * (p.toNat : Int)) (divisor s cls 0 0) → ∃ t, exec (.bcInv cls) s = .next t ∧
      ∀ i : Fin 64, (t.pixo[i].toNat : Int) =
          clamp255 (rnd32 (s.dcin.toInt * (divisor s cls 0 0 : Int) * 536848900)) ∧
        (divisor s cls 0 0 ∣ 8 * p.toNat → t.pixo[i] = p))

/-- R120: `BC.FWD` and then `BC.INV` of what it gave, with the same factor and tables: every dequantised coefficient is
within half its divisor of the coefficient, and the block is the clamped inverse transform of them; with every
divisor 1, as at factor 0, no coefficient changes and no pixel is off by more than 4. -/
def Obligations.EngineRoundTripError : Prop :=
  ∀ (s t u : State) (cls : ChannelClass), s.faulted = false → exec (.bcFwd cls) s = .next t →
    u.dcin = t.dcout → (∀ i : Fin 63, u.acin[i] = t.scan[i.val + 1]) → u.accnt.toNat = 63 → u.faulted = false →
    u.cf = s.cf → u.qbase cls = s.qbase cls →
    ∃ r, exec (.bcInv cls) u = .next r ∧
      (∀ i : Fin 64, (r.icoef[i].toInt - t.fcoef[i].toInt).natAbs ≤ t.div[i].toNat / 2) ∧
      (∀ x y, (r.pixo[lin x y].toNat : Int) = clamp255 (idct (signedMatrix r.icoef) x y)) ∧
      ((∀ i : Fin 64, t.div[i] = 1) → ∀ i : Fin 64, r.icoef[i].toInt = t.fcoef[i].toInt ∧
        ((r.pixo[i].toNat : Int) - s.pixi[i].toNat).natAbs ≤ 4) ∧
      (s.cf = 0 → ∀ i : Fin 64, t.div[i] = 1)

/-! ### IT -/

/-- R130, R127, R128, R131, R132, R135, R140, R141: with good dimensions `IT.ENCODE` completes; block `b` of channel
`k` in raster order leaves its DC value at `DCS[k][b]` and its 63 AC values from `ACS[k][63*b]` up; stream elements
beyond are as before; the cursors and lengths are `nb` and `63*nb`; the block buffers hold the last block of channel 2,
or are unchanged where there is no block; nothing else changes. First the terms it uses: the pixel address of R36 and
R128, the block load, the class of a channel (R91), the block counts (R127), and that `bcForward` is what `BC.FWD`
does. -/
def Obligations.EncodeFillsTheStreams : Prop :=
  (∀ (cols br bc : Nat) (k : Fin 3) (i : Fin 64),
    blockPixel cols br bc k i = ((8 * br + i / 8) * cols + (8 * bc + i % 8)) * 3 + k) ∧
  (classOf 0 = .luma ∧ classOf 1 = .chroma ∧ classOf 2 = .chroma) ∧
  (∀ (s : State) (br bc : Nat) (k : Fin 3), ∃ b : Buf 8, loadPixels br bc k s = { s with pixi := b } ∧
    ∀ i : Fin 64, b[i] = s.readImgi (blockPixel s.cols.toNat br bc k i)) ∧
  (∀ s : State, s.blockRows = s.rows.toNat / 8 ∧ s.blockCols = s.cols.toNat / 8 ∧
    s.blockCount = s.blockRows * s.blockCols) ∧
  (∀ (cls : ChannelClass) (s : State), s.faulted = false → exec (.bcFwd cls) s = .next (bcForward cls s)) ∧
  ∀ s : State, s.faulted = false → dimsOk s = true → ∃ t, exec .itEncode s = .next t ∧
    (∀ (br bc : Nat) (k : Fin 3), br < s.blockRows → bc < s.blockCols →
      t.readDcs k (br * s.blockCols + bc) = (bcForward (classOf k) (loadPixels br bc k s)).dcout ∧
      ∀ i : Fin 63, t.readAcs k (63 * (br * s.blockCols + bc) + i.val) =
        (bcForward (classOf k) (loadPixels br bc k s)).scan[i.val + 1]) ∧
    (∀ (k : Fin 3) (a : Nat), (s.blockCount ≤ a → t.readDcs k a = s.readDcs k a) ∧
      (63 * s.blockCount ≤ a → t.readAcs k a = s.readAcs k a)) ∧
    (∀ a, t.readImgi a = s.readImgi a ∧ t.readImgo a = s.readImgo a) ∧
    (∀ k : Fin 3, t.dcidx[k].toNat = s.blockCount ∧ t.acidx[k].toNat = 63 * s.blockCount ∧
      t.dclen[k] = t.dcidx[k] ∧ t.aclen[k] = t.acidx[k]) ∧
    (0 < s.blockCount → ∃ e, e = bcForward .chroma (loadPixels (s.blockRows - 1) (s.blockCols - 1) 2 s) ∧
      t.pixi = e.pixi ∧ t.div = e.div ∧ t.fcoef = e.fcoef ∧ t.qco = e.qco ∧ t.scan = e.scan ∧ t.dcout = e.dcout) ∧
    (s.blockCount = 0 → t = { s with dcidx := t.dcidx, acidx := t.acidx, dclen := t.dclen, aclen := t.aclen }) ∧
    t = { s with
      pixi := t.pixi, div := t.div, fcoef := t.fcoef, qco := t.qco, scan := t.scan, dcout := t.dcout,
      dcs := t.dcs, acs := t.acs, dcidx := t.dcidx, acidx := t.acidx, dclen := t.dclen, aclen := t.aclen }

/-- R133, R127, R128, R135, R140, R141: with good dimensions and lengths `IT.DECODE` completes; every pixel of block
`b` of channel `k` is the one `bc_inverse` gives from `DCS[k][b]` and the 63 elements from `ACS[k][63*b]` up; these
are the first `3*ROWS*COLS` elements of `IMGO`, and those beyond are as before; the cursors are `nb` and `63*nb`; the
block buffers hold the last block of channel 2, or are unchanged where there is no block; nothing else changes. First
the terms it uses: the order of a block's values in `SCAN`, and that `bcInverse` is what `BC.INV` does; the pixel
address and the classes are in EncodeFillsTheStreams. -/
def Obligations.DecodeFillsTheImage : Prop :=
  (∀ (dc : BitVec 16) (ac : Fin 63 → BitVec 16), (scanOf dc ac)[(0 : Fin 64)] = dc ∧
    ∀ i : Fin 63, (scanOf dc ac)[i.val + 1] = ac i) ∧
  (∀ (cls : ChannelClass) (s : State), s.faulted = false → s.accnt.toNat = 63 →
    exec (.bcInv cls) s =
      .next { bcInverse cls { s with scan := scanOf s.dcin fun i => s.acin[i] } with accnt := 0 }) ∧
  ∀ s : State, s.faulted = false → dimsOk s = true → lengthsOk s = true → ∃ t, exec .itDecode s = .next t ∧
    (∀ (br bc : Nat) (k : Fin 3) (i : Fin 64), br < s.blockRows → bc < s.blockCols →
      blockPixel s.cols.toNat br bc k i < 3 * s.rows.toNat * s.cols.toNat ∧
      t.readImgo (blockPixel s.cols.toNat br bc k i) =
        (bcInverse (classOf k) { s with
          scan := scanOf (s.readDcs k (br * s.blockCols + bc))
            fun j => s.readAcs k (63 * (br * s.blockCols + bc) + j.val) }).pixo[i]) ∧
    (∀ a, a < 3 * s.rows.toNat * s.cols.toNat → ∃ br bc k i, br < s.blockRows ∧ bc < s.blockCols ∧
      a = blockPixel s.cols.toNat br bc k i) ∧
    (∀ a, 3 * s.rows.toNat * s.cols.toNat ≤ a → t.readImgo a = s.readImgo a) ∧
    (∀ a, t.readImgi a = s.readImgi a) ∧
    (∀ k a, t.readDcs k a = s.readDcs k a ∧ t.readAcs k a = s.readAcs k a) ∧
    (∀ k : Fin 3, t.dcidx[k].toNat = s.blockCount ∧ t.acidx[k].toNat = 63 * s.blockCount) ∧
    (0 < s.blockCount → ∃ d, d = bcInverse .chroma { s with
        scan := scanOf (s.readDcs 2 (s.blockCount - 1)) fun j => s.readAcs 2 (63 * (s.blockCount - 1) + j.val) } ∧
      t.scan = d.scan ∧ t.qco = d.qco ∧ t.div = d.div ∧ t.icoef = d.icoef ∧ t.samp = d.samp ∧ t.pixo = d.pixo) ∧
    (s.blockCount = 0 → t = { s with dcidx := t.dcidx, acidx := t.acidx }) ∧
    t = { s with
      scan := t.scan, qco := t.qco, div := t.div, icoef := t.icoef, samp := t.samp, pixo := t.pixo,
      imgo := t.imgo, dcidx := t.dcidx, acidx := t.acidx }

/-! ### The whole machine -/

/-- R43, R98, R137: no command writes `IMGI`, `ACIN` or what the host has yet to present; none but `SYS.SRESET` writes
`CF`, `QBASE`, `ROWS`, `COLS` or `DCIN`. -/
def Obligations.CommandsKeepTheirInputs : Prop :=
  ∀ (i : Instr) (s t : State), exec i s = .next t →
    (∀ a, t.readImgi a = s.readImgi a) ∧ t.imgi = s.imgi ∧ t.acin = s.acin ∧
    t.epoch = s.epoch ∧ t.inbox = s.inbox ∧ t.outputs = s.outputs ∧
    (i ≠ .sysSreset → t.cf = s.cf ∧ t.rows = s.rows ∧ t.cols = s.cols ∧ t.dcin = s.dcin ∧
      ∀ cls, t.qbase cls = s.qbase cls)

/-- R22, R26, R27, R32, R43: but for `SYS.SRESET`, only the five lookups write `RESULT`, only the image passes touch
the cursors, only `IT.ENCODE` the lengths and the streams, only `IT.DECODE` the output image. -/
def Obligations.OnlyTheirCommandsWriteResultAndStreams : Prop :=
  ∀ (i : Instr) (s t : State), exec i s = .next t → i ≠ .sysSreset →
    ((∀ k n, i ≠ .twRd k n) → (∀ u v x y, i ≠ .twBasis u v x y) → (∀ cls u v, i ≠ .qsDiv cls u v) →
      (∀ u v, i ≠ .zzFwd u v) → (∀ pos, i ≠ .zzInv pos) → t.result = s.result) ∧
    (i ≠ .itEncode → i ≠ .itDecode → t.dcidx = s.dcidx ∧ t.acidx = s.acidx) ∧
    (i ≠ .itEncode → t.dclen = s.dclen ∧ t.aclen = s.aclen ∧
      ∀ k a, t.readDcs k a = s.readDcs k a ∧ t.readAcs k a = s.readAcs k a) ∧
    (i ≠ .itDecode → ∀ a, t.readImgo a = s.readImgo a)

/-- R19, R20, R35, R38: every step keeps the invariant: the memories list only elements of their spaces, and `STATUS`
and `ERRINFO` tell the truth about the fault. That the memories are lists in canonical form, indices strictly rising, is
the model's own form (log entries 1 and 4). -/
def Obligations.StepKeepsTheInvariant : Prop :=
  ∀ s t : State, s.Inv → step s = .next t → t.Inv

/-- R169: the state after reset meets the invariant, whose canonical form of the memories is the model's own (log
entries 1 and 4). -/
def Obligations.ResetMeetsTheInvariant : Prop := State.reset.Inv

/-- R19: under the invariant `FAULT` is 1 exactly when `ERRCODE` is not 0, no code above 4 occurs, and the other bits
read as 0. -/
def Obligations.StatusFieldsAgree : Prop :=
  ∀ s : State, s.Inv →
    (s.faulted = true ↔ s.errCode ≠ 0) ∧ s.errCode ≤ 4 ∧ field s.status 1 3 = 0 ∧ field s.status 8 24 = 0 ∧
    readReg 0x001 s = s.status
end

