-- ==== Sys2Proof/Laws/Buffers.lean ====
section
/-! SUPPORT. Reading the block buffers: tabulated buffers, integer matrices, and the scatter of the zig-zag commands. -/

namespace Sys2Proof.Machine

@[simp] theorem tabulate_getElem {n w : Nat} (f : Fin n → BitVec w) (i : Nat) (h : i < n) :
    (tabulate f)[i] = f ⟨i, h⟩ := by
  unfold tabulate
  exact Vector.getElem_ofFn h

@[simp] theorem rowOf_lin (a b : Fin 8) : rowOf (lin a b) = a := by
  ext; simp only [rowOf, lin]; omega

@[simp] theorem colOf_lin (a b : Fin 8) : colOf (lin a b) = b := by
  ext; simp only [colOf, lin]; omega

@[simp] theorem lin_rowOf_colOf (i : Fin 64) : lin (rowOf i) (colOf i) = i := by
  ext; simp only [rowOf, colOf, lin]; omega

theorem lin_val (a b : Fin 8) : (lin a b).val = 8 * a.val + b.val := rfl

/-- A statement about every matrix position is one about every linear index. -/
theorem forall_lin {p : Fin 64 → Prop} : (∀ a b, p (lin a b)) ↔ ∀ i, p i :=
  ⟨fun h i => by simpa using h (rowOf i) (colOf i), fun h a b => h (lin a b)⟩

@[simp] theorem anyBuf_getElem (w n epoch : Nat) (p : Place) (i : Nat) (h : i < n) :
    (anyBuf w n epoch p)[i] = Config.anyValue w epoch p i := by
  simp [anyBuf]

@[simp] theorem bufOfMatrix_getElem {w : Nat} (m : Fin 8 → Fin 8 → Int) (i : Nat) (h : i < 64) :
    (bufOfMatrix w m)[i] = BitVec.ofInt w (m (rowOf ⟨i, h⟩) (colOf ⟨i, h⟩)) := by
  simp [bufOfMatrix]

theorem bufOfMatrix_lin {w : Nat} (m : Fin 8 → Fin 8 → Int) (a b : Fin 8) :
    (bufOfMatrix w m)[lin a b] = BitVec.ofInt w (m a b) := by
  show (bufOfMatrix w m)[(lin a b).val] = _
  rw [bufOfMatrix_getElem]
  simp

/-- A signed element that fits its width is stored without loss (R12). -/
theorem toInt_ofInt_of_fits {w : Nat} {x : Int} (hw : 0 < w) (lo : -(2 ^ (w - 1)) ≤ x) (hi : x < 2 ^ (w - 1)) :
    (BitVec.ofInt w x).toInt = x := by
  rw [BitVec.toInt_ofInt]
  have h2 : ((2 ^ w : Nat) : Int) = 2 * 2 ^ (w - 1) := by
    obtain ⟨k, rfl⟩ : ∃ k, w = k + 1 := ⟨w - 1, by omega⟩
    push_cast [pow_succ]
    ring
  refine Int.bmod_eq_of_le ?_ ?_
  · omega
  · omega

/-- An unsigned element that fits its width is stored without loss (R12). -/
theorem toNat_ofInt_of_fits {w : Nat} {n : Nat} (h : n < 2 ^ w) : (BitVec.ofInt w (n : Int)).toNat = n := by
  rw [BitVec.ofInt_natCast, BitVec.toNat_ofNat, Nat.mod_eq_of_lt h]

theorem signedMatrix_bufOfMatrix {w : Nat} {m : Fin 8 → Fin 8 → Int} (hw : 0 < w) {a b : Fin 8}
    (lo : -(2 ^ (w - 1)) ≤ m a b) (hi : m a b < 2 ^ (w - 1)) : signedMatrix (bufOfMatrix w m) a b = m a b := by
  rw [signedMatrix, bufOfMatrix_lin, toInt_ofInt_of_fits hw lo hi]

/-- One fold of writes at distinct places: what each place holds afterwards. -/
theorem foldl_set_getElem {w : Nat} (at_ : Fin 64 → Fin 64) (src : Buf w) (l : List (Fin 64)) (dst : Buf w)
    (hinj : Function.Injective at_) (j : Fin 64) :
    (l.foldl (fun b i => b.set (at_ i).val src[i] (at_ i).isLt) dst)[at_ j] =
      if j ∈ l then src[j] else dst[at_ j] := by
  induction l generalizing dst with
  | nil => simp
  | cons i rest ih =>
    rw [List.foldl_cons, ih]
    by_cases hj : j ∈ rest
    · simp [hj]
    · by_cases hij : j = i
      · subst hij; simp [hj]
      · have : (at_ i).val ≠ (at_ j).val := fun h => hij (hinj (Fin.ext h)).symm
        simp [hj, hij, this]

/-- What `scatter` leaves at the place each element goes to, when no two go to the same one. -/
theorem scatter_getElem {w : Nat} {at_ : Fin 64 → Fin 64} (hinj : Function.Injective at_) (src dst : Buf w)
    (j : Fin 64) : (scatter at_ src dst)[at_ j] = src[j] := by
  unfold scatter
  rw [foldl_set_getElem at_ src _ dst hinj j]
  simp

/-! ### The zig-zag tables -/

/-- `IZ` undoes `ZZ` (R103). -/
theorem unzigzag_zigzag : ∀ i : Fin 64, unzigzag (zigzag (rowOf i) (colOf i)) = i := by decide +kernel

/-- `ZZ` undoes `IZ` (R103). -/
theorem zigzag_unzigzag : ∀ j : Fin 64, zigzag (rowOf (unzigzag j)) (colOf (unzigzag j)) = j := by decide +kernel

/-- Equal indices read the same element. -/
theorem getElem_congr {w : Nat} (b : Buf w) {i j : Fin 64} (h : i = j) : b[i] = b[j] := by
  subst h; rfl

/-- Buffers with the same elements are the same. -/
theorem buf_ext {w : Nat} {a b : Buf w} (h : ∀ i : Fin 64, a[i] = b[i]) : a = b := by
  ext i hi : 1
  exact h ⟨i, hi⟩

/-- What `ZZ.SCAN` leaves in each scan position. -/
theorem scatter_zigzag (src dst : Buf 16) (j : Fin 64) :
    (scatter (fun i => zigzag (rowOf i) (colOf i)) src dst)[j] = src[unzigzag j] := by
  have hinj : Function.Injective fun i : Fin 64 => zigzag (rowOf i) (colOf i) := fun a b h => by
    rw [← unzigzag_zigzag a, ← unzigzag_zigzag b]
    exact congrArg unzigzag h
  rw [← scatter_getElem hinj src dst (unzigzag j)]
  exact getElem_congr _ (zigzag_unzigzag j).symm

/-- What `ZZ.UNSCAN` leaves in each matrix position. -/
theorem scatter_unzigzag (src dst : Buf 16) (i : Fin 64) :
    (scatter unzigzag src dst)[i] = src[zigzag (rowOf i) (colOf i)] := by
  have hinj : Function.Injective unzigzag := fun a b h => by
    rw [← zigzag_unzigzag a, ← zigzag_unzigzag b, h]
  rw [← scatter_getElem hinj src dst (zigzag (rowOf i) (colOf i))]
  exact getElem_congr _ (unzigzag_zigzag i).symm

/-! ### The staging buffer -/

/-- What each staged element is after a push. -/
@[simp] theorem stageAc_getElem (acin : Vector (BitVec 16) 63) (n : Nat) (v : BitVec 16) (i : Nat) (h : i < 63) :
    (stageAc acin n v)[i] = if i = n then v else acin[i] := by
  unfold stageAc
  split
  · by_cases hi : n = i
    · simp [hi]
    · simp [hi, Ne.symm hi]
  · rw [if_neg (by omega)]

end Sys2Proof.Machine
end

