-- ==== Sys2Proof/Laws/Memory.lean ====
section
/-! SUPPORT. The laws of an element memory: read after write, writes keep the canonical form and the bounds, and equal
contents are equal data. -/

namespace Sys2Proof.Machine

variable {w : Nat}

@[simp] theorem Memory.find_nil (i : Nat) : Memory.find ([] : Memory w) i = none := rfl

theorem Memory.find_cons (j : Nat) (v : BitVec w) (m : Memory w) (i : Nat) :
    Memory.find ((j, v) :: m) i = if i = j then some v else Memory.find m i := rfl

theorem Memory.store_cons (j : Nat) (u : BitVec w) (m : Memory w) (i : Nat) (v : BitVec w) :
    Memory.store ((j, u) :: m) i v =
      if i < j then (i, v) :: (j, u) :: m else if i = j then (i, v) :: m else (j, u) :: Memory.store m i v := rfl

/-- Every entry after a write is the written one or was there before. -/
theorem Memory.mem_store {m : Memory w} {i : Nat} {v : BitVec w} {e : Nat × BitVec w}
    (h : e ∈ m.store i v) : e = (i, v) ∨ e ∈ m := by
  induction m with
  | nil => exact .inl (by simpa [Memory.store] using h)
  | cons p rest ih =>
    obtain ⟨j, u⟩ := p
    rw [Memory.store_cons] at h
    split at h
    · simpa using h
    · split at h
      · rcases List.mem_cons.1 h with h | h
        · exact .inl h
        · exact .inr (List.mem_cons_of_mem _ h)
      · rcases List.mem_cons.1 h with h | h
        · exact .inr (h ▸ List.mem_cons_self)
        · exact (ih h).imp id (List.mem_cons_of_mem _)

/-- A write keeps the canonical form. -/
theorem Memory.store_wf {m : Memory w} (h : m.wf) (i : Nat) (v : BitVec w) : (m.store i v).wf := by
  induction m with
  | nil => simp [Memory.store, Memory.wf]
  | cons p rest ih =>
    obtain ⟨j, u⟩ := p
    obtain ⟨hj, hrest⟩ := List.pairwise_cons.1 h
    rw [Memory.store_cons]
    split
    · rename_i hlt
      refine List.pairwise_cons.2 ⟨fun e he => ?_, h⟩
      rcases List.mem_cons.1 he with rfl | he
      · exact hlt
      · exact hlt.trans (hj e he)
    · split
      · rename_i _ heq
        subst heq
        exact List.pairwise_cons.2 ⟨hj, hrest⟩
      · refine List.pairwise_cons.2 ⟨fun e he => ?_, ih hrest⟩
        rcases Memory.mem_store he with rfl | he
        · show j < i
          omega
        · exact hj e he

/-- A write inside the space lists nothing outside it. -/
theorem Memory.store_within {m : Memory w} {size : Nat} (h : m.within size) {i : Nat} (hi : i < size)
    (v : BitVec w) : (m.store i v).within size := by
  intro e he
  rcases Memory.mem_store he with rfl | he
  · exact hi
  · exact h e he

/-- A read of the written element gives the value written. -/
@[simp] theorem Memory.find_store_same (m : Memory w) (i : Nat) (v : BitVec w) : (m.store i v).find i = some v := by
  induction m with
  | nil => simp [Memory.store, Memory.find]
  | cons p rest ih =>
    obtain ⟨j, u⟩ := p
    rw [Memory.store_cons]
    split
    · simp [Memory.find_cons]
    · split
      · simp [Memory.find_cons]
      · rename_i _ hne
        rw [Memory.find_cons, if_neg hne, ih]

/-- A write leaves every other element alone. -/
theorem Memory.find_store_other (m : Memory w) {i j : Nat} (h : j ≠ i) (v : BitVec w) :
    (m.store i v).find j = m.find j := by
  induction m with
  | nil => simp [Memory.store, Memory.find, h]
  | cons p rest ih =>
    obtain ⟨k, u⟩ := p
    rw [Memory.store_cons]
    split
    · rw [Memory.find_cons, if_neg h]
    · split
      · rename_i _ heq
        subst heq
        rw [Memory.find_cons, if_neg h, Memory.find_cons, if_neg h]
      · rw [Memory.find_cons, Memory.find_cons, ih]

theorem Memory.find_store (m : Memory w) (i j : Nat) (v : BitVec w) :
    (m.store i v).find j = if j = i then some v else m.find j := by
  split
  · rename_i h; rw [h, Memory.find_store_same]
  · rename_i h; exact Memory.find_store_other m h v

theorem Memory.find_eq_none_of_lt {m : Memory w} {i : Nat} (h : ∀ e ∈ m, i < e.1) : m.find i = none := by
  induction m with
  | nil => rfl
  | cons p rest ih =>
    obtain ⟨j, u⟩ := p
    have : i < j := h (j, u) List.mem_cons_self
    rw [Memory.find_cons, if_neg (by omega), ih fun e he => h e (List.mem_cons_of_mem _ he)]

/-- Canonical memories with the same contents are the same data. -/
theorem Memory.eq_of_find_eq {m m' : Memory w} (hm : m.wf) (hm' : m'.wf) (h : ∀ i, m.find i = m'.find i) : m = m' := by
  induction m generalizing m' with
  | nil =>
    cases m' with
    | nil => rfl
    | cons q _ =>
      obtain ⟨k, v⟩ := q
      simpa [Memory.find_cons] using h k
  | cons p rest ih =>
    obtain ⟨j, u⟩ := p
    obtain ⟨hj, hrest⟩ := List.pairwise_cons.1 hm
    cases m' with
    | nil => simpa [Memory.find_cons] using h j
    | cons q rest' =>
      obtain ⟨k, v⟩ := q
      obtain ⟨hk, hrest'⟩ := List.pairwise_cons.1 hm'
      have hfind : ∀ i, (if i = j then some u else Memory.find rest i) = if i = k then some v else Memory.find rest' i := h
      have hjk : j = k := by
        rcases Nat.lt_trichotomy j k with hlt | heq | hlt
        · have h1 := hfind j
          rw [if_pos rfl, if_neg (by omega), Memory.find_eq_none_of_lt fun e he => hlt.trans (hk e he)] at h1
          cases h1
        · exact heq
        · have h1 := hfind k
          rw [if_neg (by omega), if_pos rfl, Memory.find_eq_none_of_lt fun e he => hlt.trans (hj e he)] at h1
          cases h1
      subst hjk
      have huv : u = v := by simpa using hfind j
      subst huv
      refine congrArg _ (ih hrest hrest' fun i => ?_)
      by_cases hi : i = j
      · subst hi
        rw [Memory.find_eq_none_of_lt hj, Memory.find_eq_none_of_lt hk]
      · simpa [hi] using hfind i

end Sys2Proof.Machine
end

