-- ==== Sys2Proof/Laws/State.lean ====
section
/-! SUPPORT. One lemma per field per update of State, true by rfl: simp reads any field after any named update without
unfolding the update. The proofs are written `(rfl)`, so that simp rewrites with the lemmas and leaves the kernel no
update to unfold. -/

namespace Sys2Proof.Machine

variable (s : State)

/-! ### raiseFault -/

section
variable (k : FaultKind) (w : Word)

@[simp] theorem raiseFault_status : (raiseFault k w s).status = faultStatus k := (rfl)
@[simp] theorem raiseFault_errinfo : (raiseFault k w s).errinfo = w := (rfl)
@[simp] theorem raiseFault_result : (raiseFault k w s).result = s.result := (rfl)
@[simp] theorem raiseFault_cf : (raiseFault k w s).cf = s.cf := (rfl)
@[simp] theorem raiseFault_rows : (raiseFault k w s).rows = s.rows := (rfl)
@[simp] theorem raiseFault_cols : (raiseFault k w s).cols = s.cols := (rfl)
@[simp] theorem raiseFault_dcin : (raiseFault k w s).dcin = s.dcin := (rfl)
@[simp] theorem raiseFault_dcout : (raiseFault k w s).dcout = s.dcout := (rfl)
@[simp] theorem raiseFault_accnt : (raiseFault k w s).accnt = s.accnt := (rfl)
@[simp] theorem raiseFault_dcidx : (raiseFault k w s).dcidx = s.dcidx := (rfl)
@[simp] theorem raiseFault_acidx : (raiseFault k w s).acidx = s.acidx := (rfl)
@[simp] theorem raiseFault_dclen : (raiseFault k w s).dclen = s.dclen := (rfl)
@[simp] theorem raiseFault_aclen : (raiseFault k w s).aclen = s.aclen := (rfl)
@[simp] theorem raiseFault_pixi : (raiseFault k w s).pixi = s.pixi := (rfl)
@[simp] theorem raiseFault_fcoef : (raiseFault k w s).fcoef = s.fcoef := (rfl)
@[simp] theorem raiseFault_div : (raiseFault k w s).div = s.div := (rfl)
@[simp] theorem raiseFault_qco : (raiseFault k w s).qco = s.qco := (rfl)
@[simp] theorem raiseFault_scan : (raiseFault k w s).scan = s.scan := (rfl)
@[simp] theorem raiseFault_acin : (raiseFault k w s).acin = s.acin := (rfl)
@[simp] theorem raiseFault_icoef : (raiseFault k w s).icoef = s.icoef := (rfl)
@[simp] theorem raiseFault_samp : (raiseFault k w s).samp = s.samp := (rfl)
@[simp] theorem raiseFault_pixo : (raiseFault k w s).pixo = s.pixo := (rfl)
@[simp] theorem raiseFault_qbaseLuma : (raiseFault k w s).qbaseLuma = s.qbaseLuma := (rfl)
@[simp] theorem raiseFault_qbaseChroma : (raiseFault k w s).qbaseChroma = s.qbaseChroma := (rfl)
@[simp] theorem raiseFault_imgi : (raiseFault k w s).imgi = s.imgi := (rfl)
@[simp] theorem raiseFault_imgo : (raiseFault k w s).imgo = s.imgo := (rfl)
@[simp] theorem raiseFault_dcs : (raiseFault k w s).dcs = s.dcs := (rfl)
@[simp] theorem raiseFault_acs : (raiseFault k w s).acs = s.acs := (rfl)
@[simp] theorem raiseFault_epoch : (raiseFault k w s).epoch = s.epoch := (rfl)
@[simp] theorem raiseFault_inbox : (raiseFault k w s).inbox = s.inbox := (rfl)
@[simp] theorem raiseFault_outputs : (raiseFault k w s).outputs = s.outputs := (rfl)

end

/-! ### softReset -/

@[simp] theorem softReset_status : (softReset s).status = 0 := (rfl)
@[simp] theorem softReset_errinfo : (softReset s).errinfo = 0 := (rfl)
@[simp] theorem softReset_result : (softReset s).result = 0 := (rfl)
@[simp] theorem softReset_cf : (softReset s).cf = 0x0100 := (rfl)
@[simp] theorem softReset_rows : (softReset s).rows = 0 := (rfl)
@[simp] theorem softReset_cols : (softReset s).cols = 0 := (rfl)
@[simp] theorem softReset_dcin : (softReset s).dcin = 0 := (rfl)
@[simp] theorem softReset_dcout : (softReset s).dcout = 0 := (rfl)
@[simp] theorem softReset_accnt : (softReset s).accnt = 0 := (rfl)
@[simp] theorem softReset_dcidx : (softReset s).dcidx = Vector.replicate 3 0 := (rfl)
@[simp] theorem softReset_acidx : (softReset s).acidx = Vector.replicate 3 0 := (rfl)
@[simp] theorem softReset_dclen : (softReset s).dclen = Vector.replicate 3 0 := (rfl)
@[simp] theorem softReset_aclen : (softReset s).aclen = Vector.replicate 3 0 := (rfl)
@[simp] theorem softReset_pixi : (softReset s).pixi = s.pixi := (rfl)
@[simp] theorem softReset_fcoef : (softReset s).fcoef = s.fcoef := (rfl)
@[simp] theorem softReset_div : (softReset s).div = s.div := (rfl)
@[simp] theorem softReset_qco : (softReset s).qco = s.qco := (rfl)
@[simp] theorem softReset_scan : (softReset s).scan = s.scan := (rfl)
@[simp] theorem softReset_acin : (softReset s).acin = s.acin := (rfl)
@[simp] theorem softReset_icoef : (softReset s).icoef = s.icoef := (rfl)
@[simp] theorem softReset_samp : (softReset s).samp = s.samp := (rfl)
@[simp] theorem softReset_pixo : (softReset s).pixo = s.pixo := (rfl)
@[simp] theorem softReset_qbaseLuma : (softReset s).qbaseLuma = qdef .luma := (rfl)
@[simp] theorem softReset_qbaseChroma : (softReset s).qbaseChroma = qdef .chroma := (rfl)
@[simp] theorem softReset_imgi : (softReset s).imgi = s.imgi := (rfl)
@[simp] theorem softReset_imgo : (softReset s).imgo = s.imgo := (rfl)
@[simp] theorem softReset_dcs : (softReset s).dcs = s.dcs := (rfl)
@[simp] theorem softReset_acs : (softReset s).acs = s.acs := (rfl)
@[simp] theorem softReset_epoch : (softReset s).epoch = s.epoch := (rfl)
@[simp] theorem softReset_inbox : (softReset s).inbox = s.inbox := (rfl)
@[simp] theorem softReset_outputs : (softReset s).outputs = s.outputs := (rfl)

/-! ### loseStorage -/

@[simp] theorem loseStorage_status : (loseStorage s).status = s.status := (rfl)
@[simp] theorem loseStorage_errinfo : (loseStorage s).errinfo = s.errinfo := (rfl)
@[simp] theorem loseStorage_result : (loseStorage s).result = s.result := (rfl)
@[simp] theorem loseStorage_cf : (loseStorage s).cf = s.cf := (rfl)
@[simp] theorem loseStorage_rows : (loseStorage s).rows = s.rows := (rfl)
@[simp] theorem loseStorage_cols : (loseStorage s).cols = s.cols := (rfl)
@[simp] theorem loseStorage_dcin : (loseStorage s).dcin = s.dcin := (rfl)
@[simp] theorem loseStorage_dcout : (loseStorage s).dcout = s.dcout := (rfl)
@[simp] theorem loseStorage_accnt : (loseStorage s).accnt = s.accnt := (rfl)
@[simp] theorem loseStorage_dcidx : (loseStorage s).dcidx = s.dcidx := (rfl)
@[simp] theorem loseStorage_acidx : (loseStorage s).acidx = s.acidx := (rfl)
@[simp] theorem loseStorage_dclen : (loseStorage s).dclen = s.dclen := (rfl)
@[simp] theorem loseStorage_aclen : (loseStorage s).aclen = s.aclen := (rfl)
@[simp] theorem loseStorage_pixi : (loseStorage s).pixi = anyBuf 8 64 (s.epoch + 1) .pixi := (rfl)
@[simp] theorem loseStorage_fcoef : (loseStorage s).fcoef = anyBuf 12 64 (s.epoch + 1) .fcoef := (rfl)
@[simp] theorem loseStorage_div : (loseStorage s).div = anyBuf 16 64 (s.epoch + 1) .div := (rfl)
@[simp] theorem loseStorage_qco : (loseStorage s).qco = anyBuf 16 64 (s.epoch + 1) .qco := (rfl)
@[simp] theorem loseStorage_scan : (loseStorage s).scan = anyBuf 16 64 (s.epoch + 1) .scan := (rfl)
@[simp] theorem loseStorage_acin : (loseStorage s).acin = anyBuf 16 63 (s.epoch + 1) .acin := (rfl)
@[simp] theorem loseStorage_icoef : (loseStorage s).icoef = anyBuf 32 64 (s.epoch + 1) .icoef := (rfl)
@[simp] theorem loseStorage_samp : (loseStorage s).samp = anyBuf 16 64 (s.epoch + 1) .samp := (rfl)
@[simp] theorem loseStorage_pixo : (loseStorage s).pixo = anyBuf 8 64 (s.epoch + 1) .pixo := (rfl)
@[simp] theorem loseStorage_qbaseLuma : (loseStorage s).qbaseLuma = s.qbaseLuma := (rfl)
@[simp] theorem loseStorage_qbaseChroma : (loseStorage s).qbaseChroma = s.qbaseChroma := (rfl)
@[simp] theorem loseStorage_imgi : (loseStorage s).imgi = [] := (rfl)
@[simp] theorem loseStorage_imgo : (loseStorage s).imgo = [] := (rfl)
@[simp] theorem loseStorage_dcs : (loseStorage s).dcs = Vector.replicate 3 [] := (rfl)
@[simp] theorem loseStorage_acs : (loseStorage s).acs = Vector.replicate 3 [] := (rfl)
@[simp] theorem loseStorage_epoch : (loseStorage s).epoch = s.epoch + 1 := (rfl)
@[simp] theorem loseStorage_inbox : (loseStorage s).inbox = s.inbox := (rfl)
@[simp] theorem loseStorage_outputs : (loseStorage s).outputs = s.outputs := (rfl)

/-! ### setResult -/

section
variable (r : Word)

@[simp] theorem setResult_status : (setResult r s).status = s.status := (rfl)
@[simp] theorem setResult_errinfo : (setResult r s).errinfo = s.errinfo := (rfl)
@[simp] theorem setResult_result : (setResult r s).result = r := (rfl)
@[simp] theorem setResult_cf : (setResult r s).cf = s.cf := (rfl)
@[simp] theorem setResult_rows : (setResult r s).rows = s.rows := (rfl)
@[simp] theorem setResult_cols : (setResult r s).cols = s.cols := (rfl)
@[simp] theorem setResult_dcin : (setResult r s).dcin = s.dcin := (rfl)
@[simp] theorem setResult_dcout : (setResult r s).dcout = s.dcout := (rfl)
@[simp] theorem setResult_accnt : (setResult r s).accnt = s.accnt := (rfl)
@[simp] theorem setResult_dcidx : (setResult r s).dcidx = s.dcidx := (rfl)
@[simp] theorem setResult_acidx : (setResult r s).acidx = s.acidx := (rfl)
@[simp] theorem setResult_dclen : (setResult r s).dclen = s.dclen := (rfl)
@[simp] theorem setResult_aclen : (setResult r s).aclen = s.aclen := (rfl)
@[simp] theorem setResult_pixi : (setResult r s).pixi = s.pixi := (rfl)
@[simp] theorem setResult_fcoef : (setResult r s).fcoef = s.fcoef := (rfl)
@[simp] theorem setResult_div : (setResult r s).div = s.div := (rfl)
@[simp] theorem setResult_qco : (setResult r s).qco = s.qco := (rfl)
@[simp] theorem setResult_scan : (setResult r s).scan = s.scan := (rfl)
@[simp] theorem setResult_acin : (setResult r s).acin = s.acin := (rfl)
@[simp] theorem setResult_icoef : (setResult r s).icoef = s.icoef := (rfl)
@[simp] theorem setResult_samp : (setResult r s).samp = s.samp := (rfl)
@[simp] theorem setResult_pixo : (setResult r s).pixo = s.pixo := (rfl)
@[simp] theorem setResult_qbaseLuma : (setResult r s).qbaseLuma = s.qbaseLuma := (rfl)
@[simp] theorem setResult_qbaseChroma : (setResult r s).qbaseChroma = s.qbaseChroma := (rfl)
@[simp] theorem setResult_imgi : (setResult r s).imgi = s.imgi := (rfl)
@[simp] theorem setResult_imgo : (setResult r s).imgo = s.imgo := (rfl)
@[simp] theorem setResult_dcs : (setResult r s).dcs = s.dcs := (rfl)
@[simp] theorem setResult_acs : (setResult r s).acs = s.acs := (rfl)
@[simp] theorem setResult_epoch : (setResult r s).epoch = s.epoch := (rfl)
@[simp] theorem setResult_inbox : (setResult r s).inbox = s.inbox := (rfl)
@[simp] theorem setResult_outputs : (setResult r s).outputs = s.outputs := (rfl)

end

/-! ### clearAccnt -/

@[simp] theorem clearAccnt_status : (clearAccnt s).status = s.status := (rfl)
@[simp] theorem clearAccnt_errinfo : (clearAccnt s).errinfo = s.errinfo := (rfl)
@[simp] theorem clearAccnt_result : (clearAccnt s).result = s.result := (rfl)
@[simp] theorem clearAccnt_cf : (clearAccnt s).cf = s.cf := (rfl)
@[simp] theorem clearAccnt_rows : (clearAccnt s).rows = s.rows := (rfl)
@[simp] theorem clearAccnt_cols : (clearAccnt s).cols = s.cols := (rfl)
@[simp] theorem clearAccnt_dcin : (clearAccnt s).dcin = s.dcin := (rfl)
@[simp] theorem clearAccnt_dcout : (clearAccnt s).dcout = s.dcout := (rfl)
@[simp] theorem clearAccnt_accnt : (clearAccnt s).accnt = 0 := (rfl)
@[simp] theorem clearAccnt_dcidx : (clearAccnt s).dcidx = s.dcidx := (rfl)
@[simp] theorem clearAccnt_acidx : (clearAccnt s).acidx = s.acidx := (rfl)
@[simp] theorem clearAccnt_dclen : (clearAccnt s).dclen = s.dclen := (rfl)
@[simp] theorem clearAccnt_aclen : (clearAccnt s).aclen = s.aclen := (rfl)
@[simp] theorem clearAccnt_pixi : (clearAccnt s).pixi = s.pixi := (rfl)
@[simp] theorem clearAccnt_fcoef : (clearAccnt s).fcoef = s.fcoef := (rfl)
@[simp] theorem clearAccnt_div : (clearAccnt s).div = s.div := (rfl)
@[simp] theorem clearAccnt_qco : (clearAccnt s).qco = s.qco := (rfl)
@[simp] theorem clearAccnt_scan : (clearAccnt s).scan = s.scan := (rfl)
@[simp] theorem clearAccnt_acin : (clearAccnt s).acin = s.acin := (rfl)
@[simp] theorem clearAccnt_icoef : (clearAccnt s).icoef = s.icoef := (rfl)
@[simp] theorem clearAccnt_samp : (clearAccnt s).samp = s.samp := (rfl)
@[simp] theorem clearAccnt_pixo : (clearAccnt s).pixo = s.pixo := (rfl)
@[simp] theorem clearAccnt_qbaseLuma : (clearAccnt s).qbaseLuma = s.qbaseLuma := (rfl)
@[simp] theorem clearAccnt_qbaseChroma : (clearAccnt s).qbaseChroma = s.qbaseChroma := (rfl)
@[simp] theorem clearAccnt_imgi : (clearAccnt s).imgi = s.imgi := (rfl)
@[simp] theorem clearAccnt_imgo : (clearAccnt s).imgo = s.imgo := (rfl)
@[simp] theorem clearAccnt_dcs : (clearAccnt s).dcs = s.dcs := (rfl)
@[simp] theorem clearAccnt_acs : (clearAccnt s).acs = s.acs := (rfl)
@[simp] theorem clearAccnt_epoch : (clearAccnt s).epoch = s.epoch := (rfl)
@[simp] theorem clearAccnt_inbox : (clearAccnt s).inbox = s.inbox := (rfl)
@[simp] theorem clearAccnt_outputs : (clearAccnt s).outputs = s.outputs := (rfl)

/-! ### answerH -/

section
variable (d : Option Word)

@[simp] theorem answerH_status : (answerH d s).status = s.status := (rfl)
@[simp] theorem answerH_errinfo : (answerH d s).errinfo = s.errinfo := (rfl)
@[simp] theorem answerH_result : (answerH d s).result = s.result := (rfl)
@[simp] theorem answerH_cf : (answerH d s).cf = s.cf := (rfl)
@[simp] theorem answerH_rows : (answerH d s).rows = s.rows := (rfl)
@[simp] theorem answerH_cols : (answerH d s).cols = s.cols := (rfl)
@[simp] theorem answerH_dcin : (answerH d s).dcin = s.dcin := (rfl)
@[simp] theorem answerH_dcout : (answerH d s).dcout = s.dcout := (rfl)
@[simp] theorem answerH_accnt : (answerH d s).accnt = s.accnt := (rfl)
@[simp] theorem answerH_dcidx : (answerH d s).dcidx = s.dcidx := (rfl)
@[simp] theorem answerH_acidx : (answerH d s).acidx = s.acidx := (rfl)
@[simp] theorem answerH_dclen : (answerH d s).dclen = s.dclen := (rfl)
@[simp] theorem answerH_aclen : (answerH d s).aclen = s.aclen := (rfl)
@[simp] theorem answerH_pixi : (answerH d s).pixi = s.pixi := (rfl)
@[simp] theorem answerH_fcoef : (answerH d s).fcoef = s.fcoef := (rfl)
@[simp] theorem answerH_div : (answerH d s).div = s.div := (rfl)
@[simp] theorem answerH_qco : (answerH d s).qco = s.qco := (rfl)
@[simp] theorem answerH_scan : (answerH d s).scan = s.scan := (rfl)
@[simp] theorem answerH_acin : (answerH d s).acin = s.acin := (rfl)
@[simp] theorem answerH_icoef : (answerH d s).icoef = s.icoef := (rfl)
@[simp] theorem answerH_samp : (answerH d s).samp = s.samp := (rfl)
@[simp] theorem answerH_pixo : (answerH d s).pixo = s.pixo := (rfl)
@[simp] theorem answerH_qbaseLuma : (answerH d s).qbaseLuma = s.qbaseLuma := (rfl)
@[simp] theorem answerH_qbaseChroma : (answerH d s).qbaseChroma = s.qbaseChroma := (rfl)
@[simp] theorem answerH_imgi : (answerH d s).imgi = s.imgi := (rfl)
@[simp] theorem answerH_imgo : (answerH d s).imgo = s.imgo := (rfl)
@[simp] theorem answerH_dcs : (answerH d s).dcs = s.dcs := (rfl)
@[simp] theorem answerH_acs : (answerH d s).acs = s.acs := (rfl)
@[simp] theorem answerH_epoch : (answerH d s).epoch = s.epoch := (rfl)
@[simp] theorem answerH_inbox : (answerH d s).inbox = s.inbox := (rfl)
@[simp] theorem answerH_outputs : (answerH d s).outputs = { hReady := true, hRdata := d, mReady := false, mRdata := none } := (rfl)

end

/-! ### answerM -/

section
variable (d : Option Word)

@[simp] theorem answerM_status : (answerM d s).status = s.status := (rfl)
@[simp] theorem answerM_errinfo : (answerM d s).errinfo = s.errinfo := (rfl)
@[simp] theorem answerM_result : (answerM d s).result = s.result := (rfl)
@[simp] theorem answerM_cf : (answerM d s).cf = s.cf := (rfl)
@[simp] theorem answerM_rows : (answerM d s).rows = s.rows := (rfl)
@[simp] theorem answerM_cols : (answerM d s).cols = s.cols := (rfl)
@[simp] theorem answerM_dcin : (answerM d s).dcin = s.dcin := (rfl)
@[simp] theorem answerM_dcout : (answerM d s).dcout = s.dcout := (rfl)
@[simp] theorem answerM_accnt : (answerM d s).accnt = s.accnt := (rfl)
@[simp] theorem answerM_dcidx : (answerM d s).dcidx = s.dcidx := (rfl)
@[simp] theorem answerM_acidx : (answerM d s).acidx = s.acidx := (rfl)
@[simp] theorem answerM_dclen : (answerM d s).dclen = s.dclen := (rfl)
@[simp] theorem answerM_aclen : (answerM d s).aclen = s.aclen := (rfl)
@[simp] theorem answerM_pixi : (answerM d s).pixi = s.pixi := (rfl)
@[simp] theorem answerM_fcoef : (answerM d s).fcoef = s.fcoef := (rfl)
@[simp] theorem answerM_div : (answerM d s).div = s.div := (rfl)
@[simp] theorem answerM_qco : (answerM d s).qco = s.qco := (rfl)
@[simp] theorem answerM_scan : (answerM d s).scan = s.scan := (rfl)
@[simp] theorem answerM_acin : (answerM d s).acin = s.acin := (rfl)
@[simp] theorem answerM_icoef : (answerM d s).icoef = s.icoef := (rfl)
@[simp] theorem answerM_samp : (answerM d s).samp = s.samp := (rfl)
@[simp] theorem answerM_pixo : (answerM d s).pixo = s.pixo := (rfl)
@[simp] theorem answerM_qbaseLuma : (answerM d s).qbaseLuma = s.qbaseLuma := (rfl)
@[simp] theorem answerM_qbaseChroma : (answerM d s).qbaseChroma = s.qbaseChroma := (rfl)
@[simp] theorem answerM_imgi : (answerM d s).imgi = s.imgi := (rfl)
@[simp] theorem answerM_imgo : (answerM d s).imgo = s.imgo := (rfl)
@[simp] theorem answerM_dcs : (answerM d s).dcs = s.dcs := (rfl)
@[simp] theorem answerM_acs : (answerM d s).acs = s.acs := (rfl)
@[simp] theorem answerM_epoch : (answerM d s).epoch = s.epoch := (rfl)
@[simp] theorem answerM_inbox : (answerM d s).inbox = s.inbox := (rfl)
@[simp] theorem answerM_outputs : (answerM d s).outputs = { hReady := false, hRdata := none, mReady := true, mRdata := d } := (rfl)

end

/-! ### answerNone -/

@[simp] theorem answerNone_status : (answerNone s).status = s.status := (rfl)
@[simp] theorem answerNone_errinfo : (answerNone s).errinfo = s.errinfo := (rfl)
@[simp] theorem answerNone_result : (answerNone s).result = s.result := (rfl)
@[simp] theorem answerNone_cf : (answerNone s).cf = s.cf := (rfl)
@[simp] theorem answerNone_rows : (answerNone s).rows = s.rows := (rfl)
@[simp] theorem answerNone_cols : (answerNone s).cols = s.cols := (rfl)
@[simp] theorem answerNone_dcin : (answerNone s).dcin = s.dcin := (rfl)
@[simp] theorem answerNone_dcout : (answerNone s).dcout = s.dcout := (rfl)
@[simp] theorem answerNone_accnt : (answerNone s).accnt = s.accnt := (rfl)
@[simp] theorem answerNone_dcidx : (answerNone s).dcidx = s.dcidx := (rfl)
@[simp] theorem answerNone_acidx : (answerNone s).acidx = s.acidx := (rfl)
@[simp] theorem answerNone_dclen : (answerNone s).dclen = s.dclen := (rfl)
@[simp] theorem answerNone_aclen : (answerNone s).aclen = s.aclen := (rfl)
@[simp] theorem answerNone_pixi : (answerNone s).pixi = s.pixi := (rfl)
@[simp] theorem answerNone_fcoef : (answerNone s).fcoef = s.fcoef := (rfl)
@[simp] theorem answerNone_div : (answerNone s).div = s.div := (rfl)
@[simp] theorem answerNone_qco : (answerNone s).qco = s.qco := (rfl)
@[simp] theorem answerNone_scan : (answerNone s).scan = s.scan := (rfl)
@[simp] theorem answerNone_acin : (answerNone s).acin = s.acin := (rfl)
@[simp] theorem answerNone_icoef : (answerNone s).icoef = s.icoef := (rfl)
@[simp] theorem answerNone_samp : (answerNone s).samp = s.samp := (rfl)
@[simp] theorem answerNone_pixo : (answerNone s).pixo = s.pixo := (rfl)
@[simp] theorem answerNone_qbaseLuma : (answerNone s).qbaseLuma = s.qbaseLuma := (rfl)
@[simp] theorem answerNone_qbaseChroma : (answerNone s).qbaseChroma = s.qbaseChroma := (rfl)
@[simp] theorem answerNone_imgi : (answerNone s).imgi = s.imgi := (rfl)
@[simp] theorem answerNone_imgo : (answerNone s).imgo = s.imgo := (rfl)
@[simp] theorem answerNone_dcs : (answerNone s).dcs = s.dcs := (rfl)
@[simp] theorem answerNone_acs : (answerNone s).acs = s.acs := (rfl)
@[simp] theorem answerNone_epoch : (answerNone s).epoch = s.epoch := (rfl)
@[simp] theorem answerNone_inbox : (answerNone s).inbox = s.inbox := (rfl)
@[simp] theorem answerNone_outputs : (answerNone s).outputs = Outputs.quiet := (rfl)

/-! ### afterInput -/

section
variable (rest : List Pins)

@[simp] theorem afterInput_status : (afterInput rest s).status = s.status := (rfl)
@[simp] theorem afterInput_errinfo : (afterInput rest s).errinfo = s.errinfo := (rfl)
@[simp] theorem afterInput_result : (afterInput rest s).result = s.result := (rfl)
@[simp] theorem afterInput_cf : (afterInput rest s).cf = s.cf := (rfl)
@[simp] theorem afterInput_rows : (afterInput rest s).rows = s.rows := (rfl)
@[simp] theorem afterInput_cols : (afterInput rest s).cols = s.cols := (rfl)
@[simp] theorem afterInput_dcin : (afterInput rest s).dcin = s.dcin := (rfl)
@[simp] theorem afterInput_dcout : (afterInput rest s).dcout = s.dcout := (rfl)
@[simp] theorem afterInput_accnt : (afterInput rest s).accnt = s.accnt := (rfl)
@[simp] theorem afterInput_dcidx : (afterInput rest s).dcidx = s.dcidx := (rfl)
@[simp] theorem afterInput_acidx : (afterInput rest s).acidx = s.acidx := (rfl)
@[simp] theorem afterInput_dclen : (afterInput rest s).dclen = s.dclen := (rfl)
@[simp] theorem afterInput_aclen : (afterInput rest s).aclen = s.aclen := (rfl)
@[simp] theorem afterInput_pixi : (afterInput rest s).pixi = s.pixi := (rfl)
@[simp] theorem afterInput_fcoef : (afterInput rest s).fcoef = s.fcoef := (rfl)
@[simp] theorem afterInput_div : (afterInput rest s).div = s.div := (rfl)
@[simp] theorem afterInput_qco : (afterInput rest s).qco = s.qco := (rfl)
@[simp] theorem afterInput_scan : (afterInput rest s).scan = s.scan := (rfl)
@[simp] theorem afterInput_acin : (afterInput rest s).acin = s.acin := (rfl)
@[simp] theorem afterInput_icoef : (afterInput rest s).icoef = s.icoef := (rfl)
@[simp] theorem afterInput_samp : (afterInput rest s).samp = s.samp := (rfl)
@[simp] theorem afterInput_pixo : (afterInput rest s).pixo = s.pixo := (rfl)
@[simp] theorem afterInput_qbaseLuma : (afterInput rest s).qbaseLuma = s.qbaseLuma := (rfl)
@[simp] theorem afterInput_qbaseChroma : (afterInput rest s).qbaseChroma = s.qbaseChroma := (rfl)
@[simp] theorem afterInput_imgi : (afterInput rest s).imgi = s.imgi := (rfl)
@[simp] theorem afterInput_imgo : (afterInput rest s).imgo = s.imgo := (rfl)
@[simp] theorem afterInput_dcs : (afterInput rest s).dcs = s.dcs := (rfl)
@[simp] theorem afterInput_acs : (afterInput rest s).acs = s.acs := (rfl)
@[simp] theorem afterInput_epoch : (afterInput rest s).epoch = s.epoch := (rfl)
@[simp] theorem afterInput_inbox : (afterInput rest s).inbox = rest := (rfl)
@[simp] theorem afterInput_outputs : (afterInput rest s).outputs = s.outputs := (rfl)

end

/-! ### presentCommand -/

section
variable (w : Word)

@[simp] theorem presentCommand_status : (presentCommand w s).status = s.status := (rfl)
@[simp] theorem presentCommand_errinfo : (presentCommand w s).errinfo = s.errinfo := (rfl)
@[simp] theorem presentCommand_result : (presentCommand w s).result = s.result := (rfl)
@[simp] theorem presentCommand_cf : (presentCommand w s).cf = s.cf := (rfl)
@[simp] theorem presentCommand_rows : (presentCommand w s).rows = s.rows := (rfl)
@[simp] theorem presentCommand_cols : (presentCommand w s).cols = s.cols := (rfl)
@[simp] theorem presentCommand_dcin : (presentCommand w s).dcin = s.dcin := (rfl)
@[simp] theorem presentCommand_dcout : (presentCommand w s).dcout = s.dcout := (rfl)
@[simp] theorem presentCommand_accnt : (presentCommand w s).accnt = s.accnt := (rfl)
@[simp] theorem presentCommand_dcidx : (presentCommand w s).dcidx = s.dcidx := (rfl)
@[simp] theorem presentCommand_acidx : (presentCommand w s).acidx = s.acidx := (rfl)
@[simp] theorem presentCommand_dclen : (presentCommand w s).dclen = s.dclen := (rfl)
@[simp] theorem presentCommand_aclen : (presentCommand w s).aclen = s.aclen := (rfl)
@[simp] theorem presentCommand_pixi : (presentCommand w s).pixi = s.pixi := (rfl)
@[simp] theorem presentCommand_fcoef : (presentCommand w s).fcoef = s.fcoef := (rfl)
@[simp] theorem presentCommand_div : (presentCommand w s).div = s.div := (rfl)
@[simp] theorem presentCommand_qco : (presentCommand w s).qco = s.qco := (rfl)
@[simp] theorem presentCommand_scan : (presentCommand w s).scan = s.scan := (rfl)
@[simp] theorem presentCommand_acin : (presentCommand w s).acin = s.acin := (rfl)
@[simp] theorem presentCommand_icoef : (presentCommand w s).icoef = s.icoef := (rfl)
@[simp] theorem presentCommand_samp : (presentCommand w s).samp = s.samp := (rfl)
@[simp] theorem presentCommand_pixo : (presentCommand w s).pixo = s.pixo := (rfl)
@[simp] theorem presentCommand_qbaseLuma : (presentCommand w s).qbaseLuma = s.qbaseLuma := (rfl)
@[simp] theorem presentCommand_qbaseChroma : (presentCommand w s).qbaseChroma = s.qbaseChroma := (rfl)
@[simp] theorem presentCommand_imgi : (presentCommand w s).imgi = s.imgi := (rfl)
@[simp] theorem presentCommand_imgo : (presentCommand w s).imgo = s.imgo := (rfl)
@[simp] theorem presentCommand_dcs : (presentCommand w s).dcs = s.dcs := (rfl)
@[simp] theorem presentCommand_acs : (presentCommand w s).acs = s.acs := (rfl)
@[simp] theorem presentCommand_epoch : (presentCommand w s).epoch = s.epoch := (rfl)
@[simp] theorem presentCommand_inbox : (presentCommand w s).inbox = (Transaction.wr cmdIndex w).pins :: s.inbox := (rfl)
@[simp] theorem presentCommand_outputs : (presentCommand w s).outputs = s.outputs := (rfl)

end

/-! ### pushAc -/

section
variable (d : Word)

@[simp] theorem pushAc_status : (pushAc d s).status = s.status := (rfl)
@[simp] theorem pushAc_errinfo : (pushAc d s).errinfo = s.errinfo := (rfl)
@[simp] theorem pushAc_result : (pushAc d s).result = s.result := (rfl)
@[simp] theorem pushAc_cf : (pushAc d s).cf = s.cf := (rfl)
@[simp] theorem pushAc_rows : (pushAc d s).rows = s.rows := (rfl)
@[simp] theorem pushAc_cols : (pushAc d s).cols = s.cols := (rfl)
@[simp] theorem pushAc_dcin : (pushAc d s).dcin = s.dcin := (rfl)
@[simp] theorem pushAc_dcout : (pushAc d s).dcout = s.dcout := (rfl)
@[simp] theorem pushAc_accnt : (pushAc d s).accnt = BitVec.ofNat 7 (min 127 (s.accnt.toNat + 1)) := (rfl)
@[simp] theorem pushAc_dcidx : (pushAc d s).dcidx = s.dcidx := (rfl)
@[simp] theorem pushAc_acidx : (pushAc d s).acidx = s.acidx := (rfl)
@[simp] theorem pushAc_dclen : (pushAc d s).dclen = s.dclen := (rfl)
@[simp] theorem pushAc_aclen : (pushAc d s).aclen = s.aclen := (rfl)
@[simp] theorem pushAc_pixi : (pushAc d s).pixi = s.pixi := (rfl)
@[simp] theorem pushAc_fcoef : (pushAc d s).fcoef = s.fcoef := (rfl)
@[simp] theorem pushAc_div : (pushAc d s).div = s.div := (rfl)
@[simp] theorem pushAc_qco : (pushAc d s).qco = s.qco := (rfl)
@[simp] theorem pushAc_scan : (pushAc d s).scan = s.scan := (rfl)
@[simp] theorem pushAc_acin : (pushAc d s).acin = stageAc s.acin s.accnt.toNat (d.setWidth 16) := (rfl)
@[simp] theorem pushAc_icoef : (pushAc d s).icoef = s.icoef := (rfl)
@[simp] theorem pushAc_samp : (pushAc d s).samp = s.samp := (rfl)
@[simp] theorem pushAc_pixo : (pushAc d s).pixo = s.pixo := (rfl)
@[simp] theorem pushAc_qbaseLuma : (pushAc d s).qbaseLuma = s.qbaseLuma := (rfl)
@[simp] theorem pushAc_qbaseChroma : (pushAc d s).qbaseChroma = s.qbaseChroma := (rfl)
@[simp] theorem pushAc_imgi : (pushAc d s).imgi = s.imgi := (rfl)
@[simp] theorem pushAc_imgo : (pushAc d s).imgo = s.imgo := (rfl)
@[simp] theorem pushAc_dcs : (pushAc d s).dcs = s.dcs := (rfl)
@[simp] theorem pushAc_acs : (pushAc d s).acs = s.acs := (rfl)
@[simp] theorem pushAc_epoch : (pushAc d s).epoch = s.epoch := (rfl)
@[simp] theorem pushAc_inbox : (pushAc d s).inbox = s.inbox := (rfl)
@[simp] theorem pushAc_outputs : (pushAc d s).outputs = s.outputs := (rfl)

end

/-! ### transformForward -/

@[simp] theorem transformForward_status : (transformForward s).status = s.status := (rfl)
@[simp] theorem transformForward_errinfo : (transformForward s).errinfo = s.errinfo := (rfl)
@[simp] theorem transformForward_result : (transformForward s).result = s.result := (rfl)
@[simp] theorem transformForward_cf : (transformForward s).cf = s.cf := (rfl)
@[simp] theorem transformForward_rows : (transformForward s).rows = s.rows := (rfl)
@[simp] theorem transformForward_cols : (transformForward s).cols = s.cols := (rfl)
@[simp] theorem transformForward_dcin : (transformForward s).dcin = s.dcin := (rfl)
@[simp] theorem transformForward_dcout : (transformForward s).dcout = s.dcout := (rfl)
@[simp] theorem transformForward_accnt : (transformForward s).accnt = s.accnt := (rfl)
@[simp] theorem transformForward_dcidx : (transformForward s).dcidx = s.dcidx := (rfl)
@[simp] theorem transformForward_acidx : (transformForward s).acidx = s.acidx := (rfl)
@[simp] theorem transformForward_dclen : (transformForward s).dclen = s.dclen := (rfl)
@[simp] theorem transformForward_aclen : (transformForward s).aclen = s.aclen := (rfl)
@[simp] theorem transformForward_pixi : (transformForward s).pixi = s.pixi := (rfl)
@[simp] theorem transformForward_fcoef : (transformForward s).fcoef = bufOfMatrix 12 (fdct (unsignedMatrix s.pixi)) := (rfl)
@[simp] theorem transformForward_div : (transformForward s).div = s.div := (rfl)
@[simp] theorem transformForward_qco : (transformForward s).qco = s.qco := (rfl)
@[simp] theorem transformForward_scan : (transformForward s).scan = s.scan := (rfl)
@[simp] theorem transformForward_acin : (transformForward s).acin = s.acin := (rfl)
@[simp] theorem transformForward_icoef : (transformForward s).icoef = s.icoef := (rfl)
@[simp] theorem transformForward_samp : (transformForward s).samp = s.samp := (rfl)
@[simp] theorem transformForward_pixo : (transformForward s).pixo = s.pixo := (rfl)
@[simp] theorem transformForward_qbaseLuma : (transformForward s).qbaseLuma = s.qbaseLuma := (rfl)
@[simp] theorem transformForward_qbaseChroma : (transformForward s).qbaseChroma = s.qbaseChroma := (rfl)
@[simp] theorem transformForward_imgi : (transformForward s).imgi = s.imgi := (rfl)
@[simp] theorem transformForward_imgo : (transformForward s).imgo = s.imgo := (rfl)
@[simp] theorem transformForward_dcs : (transformForward s).dcs = s.dcs := (rfl)
@[simp] theorem transformForward_acs : (transformForward s).acs = s.acs := (rfl)
@[simp] theorem transformForward_epoch : (transformForward s).epoch = s.epoch := (rfl)
@[simp] theorem transformForward_inbox : (transformForward s).inbox = s.inbox := (rfl)
@[simp] theorem transformForward_outputs : (transformForward s).outputs = s.outputs := (rfl)

/-! ### transformInverse -/

@[simp] theorem transformInverse_status : (transformInverse s).status = s.status := (rfl)
@[simp] theorem transformInverse_errinfo : (transformInverse s).errinfo = s.errinfo := (rfl)
@[simp] theorem transformInverse_result : (transformInverse s).result = s.result := (rfl)
@[simp] theorem transformInverse_cf : (transformInverse s).cf = s.cf := (rfl)
@[simp] theorem transformInverse_rows : (transformInverse s).rows = s.rows := (rfl)
@[simp] theorem transformInverse_cols : (transformInverse s).cols = s.cols := (rfl)
@[simp] theorem transformInverse_dcin : (transformInverse s).dcin = s.dcin := (rfl)
@[simp] theorem transformInverse_dcout : (transformInverse s).dcout = s.dcout := (rfl)
@[simp] theorem transformInverse_accnt : (transformInverse s).accnt = s.accnt := (rfl)
@[simp] theorem transformInverse_dcidx : (transformInverse s).dcidx = s.dcidx := (rfl)
@[simp] theorem transformInverse_acidx : (transformInverse s).acidx = s.acidx := (rfl)
@[simp] theorem transformInverse_dclen : (transformInverse s).dclen = s.dclen := (rfl)
@[simp] theorem transformInverse_aclen : (transformInverse s).aclen = s.aclen := (rfl)
@[simp] theorem transformInverse_pixi : (transformInverse s).pixi = s.pixi := (rfl)
@[simp] theorem transformInverse_fcoef : (transformInverse s).fcoef = s.fcoef := (rfl)
@[simp] theorem transformInverse_div : (transformInverse s).div = s.div := (rfl)
@[simp] theorem transformInverse_qco : (transformInverse s).qco = s.qco := (rfl)
@[simp] theorem transformInverse_scan : (transformInverse s).scan = s.scan := (rfl)
@[simp] theorem transformInverse_acin : (transformInverse s).acin = s.acin := (rfl)
@[simp] theorem transformInverse_icoef : (transformInverse s).icoef = s.icoef := (rfl)
@[simp] theorem transformInverse_samp : (transformInverse s).samp = bufOfMatrix 16 (idct (signedMatrix s.icoef)) := (rfl)
@[simp] theorem transformInverse_pixo : (transformInverse s).pixo = s.pixo := (rfl)
@[simp] theorem transformInverse_qbaseLuma : (transformInverse s).qbaseLuma = s.qbaseLuma := (rfl)
@[simp] theorem transformInverse_qbaseChroma : (transformInverse s).qbaseChroma = s.qbaseChroma := (rfl)
@[simp] theorem transformInverse_imgi : (transformInverse s).imgi = s.imgi := (rfl)
@[simp] theorem transformInverse_imgo : (transformInverse s).imgo = s.imgo := (rfl)
@[simp] theorem transformInverse_dcs : (transformInverse s).dcs = s.dcs := (rfl)
@[simp] theorem transformInverse_acs : (transformInverse s).acs = s.acs := (rfl)
@[simp] theorem transformInverse_epoch : (transformInverse s).epoch = s.epoch := (rfl)
@[simp] theorem transformInverse_inbox : (transformInverse s).inbox = s.inbox := (rfl)
@[simp] theorem transformInverse_outputs : (transformInverse s).outputs = s.outputs := (rfl)

/-! ### buildDivisors -/

section
variable (cls : ChannelClass)

@[simp] theorem buildDivisors_status : (buildDivisors cls s).status = s.status := (rfl)
@[simp] theorem buildDivisors_errinfo : (buildDivisors cls s).errinfo = s.errinfo := (rfl)
@[simp] theorem buildDivisors_result : (buildDivisors cls s).result = s.result := (rfl)
@[simp] theorem buildDivisors_cf : (buildDivisors cls s).cf = s.cf := (rfl)
@[simp] theorem buildDivisors_rows : (buildDivisors cls s).rows = s.rows := (rfl)
@[simp] theorem buildDivisors_cols : (buildDivisors cls s).cols = s.cols := (rfl)
@[simp] theorem buildDivisors_dcin : (buildDivisors cls s).dcin = s.dcin := (rfl)
@[simp] theorem buildDivisors_dcout : (buildDivisors cls s).dcout = s.dcout := (rfl)
@[simp] theorem buildDivisors_accnt : (buildDivisors cls s).accnt = s.accnt := (rfl)
@[simp] theorem buildDivisors_dcidx : (buildDivisors cls s).dcidx = s.dcidx := (rfl)
@[simp] theorem buildDivisors_acidx : (buildDivisors cls s).acidx = s.acidx := (rfl)
@[simp] theorem buildDivisors_dclen : (buildDivisors cls s).dclen = s.dclen := (rfl)
@[simp] theorem buildDivisors_aclen : (buildDivisors cls s).aclen = s.aclen := (rfl)
@[simp] theorem buildDivisors_pixi : (buildDivisors cls s).pixi = s.pixi := (rfl)
@[simp] theorem buildDivisors_fcoef : (buildDivisors cls s).fcoef = s.fcoef := (rfl)
@[simp] theorem buildDivisors_div : (buildDivisors cls s).div = bufOfMatrix 16 fun u v => (divisor s cls u v : Int) := (rfl)
@[simp] theorem buildDivisors_qco : (buildDivisors cls s).qco = s.qco := (rfl)
@[simp] theorem buildDivisors_scan : (buildDivisors cls s).scan = s.scan := (rfl)
@[simp] theorem buildDivisors_acin : (buildDivisors cls s).acin = s.acin := (rfl)
@[simp] theorem buildDivisors_icoef : (buildDivisors cls s).icoef = s.icoef := (rfl)
@[simp] theorem buildDivisors_samp : (buildDivisors cls s).samp = s.samp := (rfl)
@[simp] theorem buildDivisors_pixo : (buildDivisors cls s).pixo = s.pixo := (rfl)
@[simp] theorem buildDivisors_qbaseLuma : (buildDivisors cls s).qbaseLuma = s.qbaseLuma := (rfl)
@[simp] theorem buildDivisors_qbaseChroma : (buildDivisors cls s).qbaseChroma = s.qbaseChroma := (rfl)
@[simp] theorem buildDivisors_imgi : (buildDivisors cls s).imgi = s.imgi := (rfl)
@[simp] theorem buildDivisors_imgo : (buildDivisors cls s).imgo = s.imgo := (rfl)
@[simp] theorem buildDivisors_dcs : (buildDivisors cls s).dcs = s.dcs := (rfl)
@[simp] theorem buildDivisors_acs : (buildDivisors cls s).acs = s.acs := (rfl)
@[simp] theorem buildDivisors_epoch : (buildDivisors cls s).epoch = s.epoch := (rfl)
@[simp] theorem buildDivisors_inbox : (buildDivisors cls s).inbox = s.inbox := (rfl)
@[simp] theorem buildDivisors_outputs : (buildDivisors cls s).outputs = s.outputs := (rfl)

end

/-! ### scanBlock -/

@[simp] theorem scanBlock_status : (scanBlock s).status = s.status := (rfl)
@[simp] theorem scanBlock_errinfo : (scanBlock s).errinfo = s.errinfo := (rfl)
@[simp] theorem scanBlock_result : (scanBlock s).result = s.result := (rfl)
@[simp] theorem scanBlock_cf : (scanBlock s).cf = s.cf := (rfl)
@[simp] theorem scanBlock_rows : (scanBlock s).rows = s.rows := (rfl)
@[simp] theorem scanBlock_cols : (scanBlock s).cols = s.cols := (rfl)
@[simp] theorem scanBlock_dcin : (scanBlock s).dcin = s.dcin := (rfl)
@[simp] theorem scanBlock_dcout : (scanBlock s).dcout = s.dcout := (rfl)
@[simp] theorem scanBlock_accnt : (scanBlock s).accnt = s.accnt := (rfl)
@[simp] theorem scanBlock_dcidx : (scanBlock s).dcidx = s.dcidx := (rfl)
@[simp] theorem scanBlock_acidx : (scanBlock s).acidx = s.acidx := (rfl)
@[simp] theorem scanBlock_dclen : (scanBlock s).dclen = s.dclen := (rfl)
@[simp] theorem scanBlock_aclen : (scanBlock s).aclen = s.aclen := (rfl)
@[simp] theorem scanBlock_pixi : (scanBlock s).pixi = s.pixi := (rfl)
@[simp] theorem scanBlock_fcoef : (scanBlock s).fcoef = s.fcoef := (rfl)
@[simp] theorem scanBlock_div : (scanBlock s).div = s.div := (rfl)
@[simp] theorem scanBlock_qco : (scanBlock s).qco = s.qco := (rfl)
@[simp] theorem scanBlock_scan : (scanBlock s).scan = scatter (fun i => zigzag (rowOf i) (colOf i)) s.qco s.scan := (rfl)
@[simp] theorem scanBlock_acin : (scanBlock s).acin = s.acin := (rfl)
@[simp] theorem scanBlock_icoef : (scanBlock s).icoef = s.icoef := (rfl)
@[simp] theorem scanBlock_samp : (scanBlock s).samp = s.samp := (rfl)
@[simp] theorem scanBlock_pixo : (scanBlock s).pixo = s.pixo := (rfl)
@[simp] theorem scanBlock_qbaseLuma : (scanBlock s).qbaseLuma = s.qbaseLuma := (rfl)
@[simp] theorem scanBlock_qbaseChroma : (scanBlock s).qbaseChroma = s.qbaseChroma := (rfl)
@[simp] theorem scanBlock_imgi : (scanBlock s).imgi = s.imgi := (rfl)
@[simp] theorem scanBlock_imgo : (scanBlock s).imgo = s.imgo := (rfl)
@[simp] theorem scanBlock_dcs : (scanBlock s).dcs = s.dcs := (rfl)
@[simp] theorem scanBlock_acs : (scanBlock s).acs = s.acs := (rfl)
@[simp] theorem scanBlock_epoch : (scanBlock s).epoch = s.epoch := (rfl)
@[simp] theorem scanBlock_inbox : (scanBlock s).inbox = s.inbox := (rfl)
@[simp] theorem scanBlock_outputs : (scanBlock s).outputs = s.outputs := (rfl)

/-! ### unscanBlock -/

@[simp] theorem unscanBlock_status : (unscanBlock s).status = s.status := (rfl)
@[simp] theorem unscanBlock_errinfo : (unscanBlock s).errinfo = s.errinfo := (rfl)
@[simp] theorem unscanBlock_result : (unscanBlock s).result = s.result := (rfl)
@[simp] theorem unscanBlock_cf : (unscanBlock s).cf = s.cf := (rfl)
@[simp] theorem unscanBlock_rows : (unscanBlock s).rows = s.rows := (rfl)
@[simp] theorem unscanBlock_cols : (unscanBlock s).cols = s.cols := (rfl)
@[simp] theorem unscanBlock_dcin : (unscanBlock s).dcin = s.dcin := (rfl)
@[simp] theorem unscanBlock_dcout : (unscanBlock s).dcout = s.dcout := (rfl)
@[simp] theorem unscanBlock_accnt : (unscanBlock s).accnt = s.accnt := (rfl)
@[simp] theorem unscanBlock_dcidx : (unscanBlock s).dcidx = s.dcidx := (rfl)
@[simp] theorem unscanBlock_acidx : (unscanBlock s).acidx = s.acidx := (rfl)
@[simp] theorem unscanBlock_dclen : (unscanBlock s).dclen = s.dclen := (rfl)
@[simp] theorem unscanBlock_aclen : (unscanBlock s).aclen = s.aclen := (rfl)
@[simp] theorem unscanBlock_pixi : (unscanBlock s).pixi = s.pixi := (rfl)
@[simp] theorem unscanBlock_fcoef : (unscanBlock s).fcoef = s.fcoef := (rfl)
@[simp] theorem unscanBlock_div : (unscanBlock s).div = s.div := (rfl)
@[simp] theorem unscanBlock_qco : (unscanBlock s).qco = scatter unzigzag s.scan s.qco := (rfl)
@[simp] theorem unscanBlock_scan : (unscanBlock s).scan = s.scan := (rfl)
@[simp] theorem unscanBlock_acin : (unscanBlock s).acin = s.acin := (rfl)
@[simp] theorem unscanBlock_icoef : (unscanBlock s).icoef = s.icoef := (rfl)
@[simp] theorem unscanBlock_samp : (unscanBlock s).samp = s.samp := (rfl)
@[simp] theorem unscanBlock_pixo : (unscanBlock s).pixo = s.pixo := (rfl)
@[simp] theorem unscanBlock_qbaseLuma : (unscanBlock s).qbaseLuma = s.qbaseLuma := (rfl)
@[simp] theorem unscanBlock_qbaseChroma : (unscanBlock s).qbaseChroma = s.qbaseChroma := (rfl)
@[simp] theorem unscanBlock_imgi : (unscanBlock s).imgi = s.imgi := (rfl)
@[simp] theorem unscanBlock_imgo : (unscanBlock s).imgo = s.imgo := (rfl)
@[simp] theorem unscanBlock_dcs : (unscanBlock s).dcs = s.dcs := (rfl)
@[simp] theorem unscanBlock_acs : (unscanBlock s).acs = s.acs := (rfl)
@[simp] theorem unscanBlock_epoch : (unscanBlock s).epoch = s.epoch := (rfl)
@[simp] theorem unscanBlock_inbox : (unscanBlock s).inbox = s.inbox := (rfl)
@[simp] theorem unscanBlock_outputs : (unscanBlock s).outputs = s.outputs := (rfl)

/-! ### quantise -/

@[simp] theorem quantise_status : (quantise s).status = s.status := (rfl)
@[simp] theorem quantise_errinfo : (quantise s).errinfo = s.errinfo := (rfl)
@[simp] theorem quantise_result : (quantise s).result = s.result := (rfl)
@[simp] theorem quantise_cf : (quantise s).cf = s.cf := (rfl)
@[simp] theorem quantise_rows : (quantise s).rows = s.rows := (rfl)
@[simp] theorem quantise_cols : (quantise s).cols = s.cols := (rfl)
@[simp] theorem quantise_dcin : (quantise s).dcin = s.dcin := (rfl)
@[simp] theorem quantise_dcout : (quantise s).dcout = s.dcout := (rfl)
@[simp] theorem quantise_accnt : (quantise s).accnt = s.accnt := (rfl)
@[simp] theorem quantise_dcidx : (quantise s).dcidx = s.dcidx := (rfl)
@[simp] theorem quantise_acidx : (quantise s).acidx = s.acidx := (rfl)
@[simp] theorem quantise_dclen : (quantise s).dclen = s.dclen := (rfl)
@[simp] theorem quantise_aclen : (quantise s).aclen = s.aclen := (rfl)
@[simp] theorem quantise_pixi : (quantise s).pixi = s.pixi := (rfl)
@[simp] theorem quantise_fcoef : (quantise s).fcoef = s.fcoef := (rfl)
@[simp] theorem quantise_div : (quantise s).div = s.div := (rfl)
@[simp] theorem quantise_qco : (quantise s).qco = tabulate fun i => BitVec.ofInt 16 (rdiv s.fcoef[i].toInt (max 1 s.div[i].toNat)) := (rfl)
@[simp] theorem quantise_scan : (quantise s).scan = s.scan := (rfl)
@[simp] theorem quantise_acin : (quantise s).acin = s.acin := (rfl)
@[simp] theorem quantise_icoef : (quantise s).icoef = s.icoef := (rfl)
@[simp] theorem quantise_samp : (quantise s).samp = s.samp := (rfl)
@[simp] theorem quantise_pixo : (quantise s).pixo = s.pixo := (rfl)
@[simp] theorem quantise_qbaseLuma : (quantise s).qbaseLuma = s.qbaseLuma := (rfl)
@[simp] theorem quantise_qbaseChroma : (quantise s).qbaseChroma = s.qbaseChroma := (rfl)
@[simp] theorem quantise_imgi : (quantise s).imgi = s.imgi := (rfl)
@[simp] theorem quantise_imgo : (quantise s).imgo = s.imgo := (rfl)
@[simp] theorem quantise_dcs : (quantise s).dcs = s.dcs := (rfl)
@[simp] theorem quantise_acs : (quantise s).acs = s.acs := (rfl)
@[simp] theorem quantise_epoch : (quantise s).epoch = s.epoch := (rfl)
@[simp] theorem quantise_inbox : (quantise s).inbox = s.inbox := (rfl)
@[simp] theorem quantise_outputs : (quantise s).outputs = s.outputs := (rfl)

/-! ### dequantise -/

@[simp] theorem dequantise_status : (dequantise s).status = s.status := (rfl)
@[simp] theorem dequantise_errinfo : (dequantise s).errinfo = s.errinfo := (rfl)
@[simp] theorem dequantise_result : (dequantise s).result = s.result := (rfl)
@[simp] theorem dequantise_cf : (dequantise s).cf = s.cf := (rfl)
@[simp] theorem dequantise_rows : (dequantise s).rows = s.rows := (rfl)
@[simp] theorem dequantise_cols : (dequantise s).cols = s.cols := (rfl)
@[simp] theorem dequantise_dcin : (dequantise s).dcin = s.dcin := (rfl)
@[simp] theorem dequantise_dcout : (dequantise s).dcout = s.dcout := (rfl)
@[simp] theorem dequantise_accnt : (dequantise s).accnt = s.accnt := (rfl)
@[simp] theorem dequantise_dcidx : (dequantise s).dcidx = s.dcidx := (rfl)
@[simp] theorem dequantise_acidx : (dequantise s).acidx = s.acidx := (rfl)
@[simp] theorem dequantise_dclen : (dequantise s).dclen = s.dclen := (rfl)
@[simp] theorem dequantise_aclen : (dequantise s).aclen = s.aclen := (rfl)
@[simp] theorem dequantise_pixi : (dequantise s).pixi = s.pixi := (rfl)
@[simp] theorem dequantise_fcoef : (dequantise s).fcoef = s.fcoef := (rfl)
@[simp] theorem dequantise_div : (dequantise s).div = s.div := (rfl)
@[simp] theorem dequantise_qco : (dequantise s).qco = s.qco := (rfl)
@[simp] theorem dequantise_scan : (dequantise s).scan = s.scan := (rfl)
@[simp] theorem dequantise_acin : (dequantise s).acin = s.acin := (rfl)
@[simp] theorem dequantise_icoef : (dequantise s).icoef = tabulate fun i => BitVec.ofInt 32 (s.qco[i].toInt * (s.div[i].toNat : Int)) := (rfl)
@[simp] theorem dequantise_samp : (dequantise s).samp = s.samp := (rfl)
@[simp] theorem dequantise_pixo : (dequantise s).pixo = s.pixo := (rfl)
@[simp] theorem dequantise_qbaseLuma : (dequantise s).qbaseLuma = s.qbaseLuma := (rfl)
@[simp] theorem dequantise_qbaseChroma : (dequantise s).qbaseChroma = s.qbaseChroma := (rfl)
@[simp] theorem dequantise_imgi : (dequantise s).imgi = s.imgi := (rfl)
@[simp] theorem dequantise_imgo : (dequantise s).imgo = s.imgo := (rfl)
@[simp] theorem dequantise_dcs : (dequantise s).dcs = s.dcs := (rfl)
@[simp] theorem dequantise_acs : (dequantise s).acs = s.acs := (rfl)
@[simp] theorem dequantise_epoch : (dequantise s).epoch = s.epoch := (rfl)
@[simp] theorem dequantise_inbox : (dequantise s).inbox = s.inbox := (rfl)
@[simp] theorem dequantise_outputs : (dequantise s).outputs = s.outputs := (rfl)

/-! ### clampSamples -/

@[simp] theorem clampSamples_status : (clampSamples s).status = s.status := (rfl)
@[simp] theorem clampSamples_errinfo : (clampSamples s).errinfo = s.errinfo := (rfl)
@[simp] theorem clampSamples_result : (clampSamples s).result = s.result := (rfl)
@[simp] theorem clampSamples_cf : (clampSamples s).cf = s.cf := (rfl)
@[simp] theorem clampSamples_rows : (clampSamples s).rows = s.rows := (rfl)
@[simp] theorem clampSamples_cols : (clampSamples s).cols = s.cols := (rfl)
@[simp] theorem clampSamples_dcin : (clampSamples s).dcin = s.dcin := (rfl)
@[simp] theorem clampSamples_dcout : (clampSamples s).dcout = s.dcout := (rfl)
@[simp] theorem clampSamples_accnt : (clampSamples s).accnt = s.accnt := (rfl)
@[simp] theorem clampSamples_dcidx : (clampSamples s).dcidx = s.dcidx := (rfl)
@[simp] theorem clampSamples_acidx : (clampSamples s).acidx = s.acidx := (rfl)
@[simp] theorem clampSamples_dclen : (clampSamples s).dclen = s.dclen := (rfl)
@[simp] theorem clampSamples_aclen : (clampSamples s).aclen = s.aclen := (rfl)
@[simp] theorem clampSamples_pixi : (clampSamples s).pixi = s.pixi := (rfl)
@[simp] theorem clampSamples_fcoef : (clampSamples s).fcoef = s.fcoef := (rfl)
@[simp] theorem clampSamples_div : (clampSamples s).div = s.div := (rfl)
@[simp] theorem clampSamples_qco : (clampSamples s).qco = s.qco := (rfl)
@[simp] theorem clampSamples_scan : (clampSamples s).scan = s.scan := (rfl)
@[simp] theorem clampSamples_acin : (clampSamples s).acin = s.acin := (rfl)
@[simp] theorem clampSamples_icoef : (clampSamples s).icoef = s.icoef := (rfl)
@[simp] theorem clampSamples_samp : (clampSamples s).samp = s.samp := (rfl)
@[simp] theorem clampSamples_pixo : (clampSamples s).pixo = tabulate fun i => BitVec.ofInt 8 (clamp255 s.samp[i].toInt) := (rfl)
@[simp] theorem clampSamples_qbaseLuma : (clampSamples s).qbaseLuma = s.qbaseLuma := (rfl)
@[simp] theorem clampSamples_qbaseChroma : (clampSamples s).qbaseChroma = s.qbaseChroma := (rfl)
@[simp] theorem clampSamples_imgi : (clampSamples s).imgi = s.imgi := (rfl)
@[simp] theorem clampSamples_imgo : (clampSamples s).imgo = s.imgo := (rfl)
@[simp] theorem clampSamples_dcs : (clampSamples s).dcs = s.dcs := (rfl)
@[simp] theorem clampSamples_acs : (clampSamples s).acs = s.acs := (rfl)
@[simp] theorem clampSamples_epoch : (clampSamples s).epoch = s.epoch := (rfl)
@[simp] theorem clampSamples_inbox : (clampSamples s).inbox = s.inbox := (rfl)
@[simp] theorem clampSamples_outputs : (clampSamples s).outputs = s.outputs := (rfl)

/-! ### copyDc -/

@[simp] theorem copyDc_status : (copyDc s).status = s.status := (rfl)
@[simp] theorem copyDc_errinfo : (copyDc s).errinfo = s.errinfo := (rfl)
@[simp] theorem copyDc_result : (copyDc s).result = s.result := (rfl)
@[simp] theorem copyDc_cf : (copyDc s).cf = s.cf := (rfl)
@[simp] theorem copyDc_rows : (copyDc s).rows = s.rows := (rfl)
@[simp] theorem copyDc_cols : (copyDc s).cols = s.cols := (rfl)
@[simp] theorem copyDc_dcin : (copyDc s).dcin = s.dcin := (rfl)
@[simp] theorem copyDc_dcout : (copyDc s).dcout = s.scan[0] := (rfl)
@[simp] theorem copyDc_accnt : (copyDc s).accnt = s.accnt := (rfl)
@[simp] theorem copyDc_dcidx : (copyDc s).dcidx = s.dcidx := (rfl)
@[simp] theorem copyDc_acidx : (copyDc s).acidx = s.acidx := (rfl)
@[simp] theorem copyDc_dclen : (copyDc s).dclen = s.dclen := (rfl)
@[simp] theorem copyDc_aclen : (copyDc s).aclen = s.aclen := (rfl)
@[simp] theorem copyDc_pixi : (copyDc s).pixi = s.pixi := (rfl)
@[simp] theorem copyDc_fcoef : (copyDc s).fcoef = s.fcoef := (rfl)
@[simp] theorem copyDc_div : (copyDc s).div = s.div := (rfl)
@[simp] theorem copyDc_qco : (copyDc s).qco = s.qco := (rfl)
@[simp] theorem copyDc_scan : (copyDc s).scan = s.scan := (rfl)
@[simp] theorem copyDc_acin : (copyDc s).acin = s.acin := (rfl)
@[simp] theorem copyDc_icoef : (copyDc s).icoef = s.icoef := (rfl)
@[simp] theorem copyDc_samp : (copyDc s).samp = s.samp := (rfl)
@[simp] theorem copyDc_pixo : (copyDc s).pixo = s.pixo := (rfl)
@[simp] theorem copyDc_qbaseLuma : (copyDc s).qbaseLuma = s.qbaseLuma := (rfl)
@[simp] theorem copyDc_qbaseChroma : (copyDc s).qbaseChroma = s.qbaseChroma := (rfl)
@[simp] theorem copyDc_imgi : (copyDc s).imgi = s.imgi := (rfl)
@[simp] theorem copyDc_imgo : (copyDc s).imgo = s.imgo := (rfl)
@[simp] theorem copyDc_dcs : (copyDc s).dcs = s.dcs := (rfl)
@[simp] theorem copyDc_acs : (copyDc s).acs = s.acs := (rfl)
@[simp] theorem copyDc_epoch : (copyDc s).epoch = s.epoch := (rfl)
@[simp] theorem copyDc_inbox : (copyDc s).inbox = s.inbox := (rfl)
@[simp] theorem copyDc_outputs : (copyDc s).outputs = s.outputs := (rfl)

/-! ### loadScan -/

@[simp] theorem loadScan_status : (loadScan s).status = s.status := (rfl)
@[simp] theorem loadScan_errinfo : (loadScan s).errinfo = s.errinfo := (rfl)
@[simp] theorem loadScan_result : (loadScan s).result = s.result := (rfl)
@[simp] theorem loadScan_cf : (loadScan s).cf = s.cf := (rfl)
@[simp] theorem loadScan_rows : (loadScan s).rows = s.rows := (rfl)
@[simp] theorem loadScan_cols : (loadScan s).cols = s.cols := (rfl)
@[simp] theorem loadScan_dcin : (loadScan s).dcin = s.dcin := (rfl)
@[simp] theorem loadScan_dcout : (loadScan s).dcout = s.dcout := (rfl)
@[simp] theorem loadScan_accnt : (loadScan s).accnt = s.accnt := (rfl)
@[simp] theorem loadScan_dcidx : (loadScan s).dcidx = s.dcidx := (rfl)
@[simp] theorem loadScan_acidx : (loadScan s).acidx = s.acidx := (rfl)
@[simp] theorem loadScan_dclen : (loadScan s).dclen = s.dclen := (rfl)
@[simp] theorem loadScan_aclen : (loadScan s).aclen = s.aclen := (rfl)
@[simp] theorem loadScan_pixi : (loadScan s).pixi = s.pixi := (rfl)
@[simp] theorem loadScan_fcoef : (loadScan s).fcoef = s.fcoef := (rfl)
@[simp] theorem loadScan_div : (loadScan s).div = s.div := (rfl)
@[simp] theorem loadScan_qco : (loadScan s).qco = s.qco := (rfl)
@[simp] theorem loadScan_scan : (loadScan s).scan = scanOf s.dcin fun i => s.acin[i] := (rfl)
@[simp] theorem loadScan_acin : (loadScan s).acin = s.acin := (rfl)
@[simp] theorem loadScan_icoef : (loadScan s).icoef = s.icoef := (rfl)
@[simp] theorem loadScan_samp : (loadScan s).samp = s.samp := (rfl)
@[simp] theorem loadScan_pixo : (loadScan s).pixo = s.pixo := (rfl)
@[simp] theorem loadScan_qbaseLuma : (loadScan s).qbaseLuma = s.qbaseLuma := (rfl)
@[simp] theorem loadScan_qbaseChroma : (loadScan s).qbaseChroma = s.qbaseChroma := (rfl)
@[simp] theorem loadScan_imgi : (loadScan s).imgi = s.imgi := (rfl)
@[simp] theorem loadScan_imgo : (loadScan s).imgo = s.imgo := (rfl)
@[simp] theorem loadScan_dcs : (loadScan s).dcs = s.dcs := (rfl)
@[simp] theorem loadScan_acs : (loadScan s).acs = s.acs := (rfl)
@[simp] theorem loadScan_epoch : (loadScan s).epoch = s.epoch := (rfl)
@[simp] theorem loadScan_inbox : (loadScan s).inbox = s.inbox := (rfl)
@[simp] theorem loadScan_outputs : (loadScan s).outputs = s.outputs := (rfl)

/-! ### zeroCursors -/

@[simp] theorem zeroCursors_status : (zeroCursors s).status = s.status := (rfl)
@[simp] theorem zeroCursors_errinfo : (zeroCursors s).errinfo = s.errinfo := (rfl)
@[simp] theorem zeroCursors_result : (zeroCursors s).result = s.result := (rfl)
@[simp] theorem zeroCursors_cf : (zeroCursors s).cf = s.cf := (rfl)
@[simp] theorem zeroCursors_rows : (zeroCursors s).rows = s.rows := (rfl)
@[simp] theorem zeroCursors_cols : (zeroCursors s).cols = s.cols := (rfl)
@[simp] theorem zeroCursors_dcin : (zeroCursors s).dcin = s.dcin := (rfl)
@[simp] theorem zeroCursors_dcout : (zeroCursors s).dcout = s.dcout := (rfl)
@[simp] theorem zeroCursors_accnt : (zeroCursors s).accnt = s.accnt := (rfl)
@[simp] theorem zeroCursors_dcidx : (zeroCursors s).dcidx = Vector.replicate 3 0 := (rfl)
@[simp] theorem zeroCursors_acidx : (zeroCursors s).acidx = Vector.replicate 3 0 := (rfl)
@[simp] theorem zeroCursors_dclen : (zeroCursors s).dclen = s.dclen := (rfl)
@[simp] theorem zeroCursors_aclen : (zeroCursors s).aclen = s.aclen := (rfl)
@[simp] theorem zeroCursors_pixi : (zeroCursors s).pixi = s.pixi := (rfl)
@[simp] theorem zeroCursors_fcoef : (zeroCursors s).fcoef = s.fcoef := (rfl)
@[simp] theorem zeroCursors_div : (zeroCursors s).div = s.div := (rfl)
@[simp] theorem zeroCursors_qco : (zeroCursors s).qco = s.qco := (rfl)
@[simp] theorem zeroCursors_scan : (zeroCursors s).scan = s.scan := (rfl)
@[simp] theorem zeroCursors_acin : (zeroCursors s).acin = s.acin := (rfl)
@[simp] theorem zeroCursors_icoef : (zeroCursors s).icoef = s.icoef := (rfl)
@[simp] theorem zeroCursors_samp : (zeroCursors s).samp = s.samp := (rfl)
@[simp] theorem zeroCursors_pixo : (zeroCursors s).pixo = s.pixo := (rfl)
@[simp] theorem zeroCursors_qbaseLuma : (zeroCursors s).qbaseLuma = s.qbaseLuma := (rfl)
@[simp] theorem zeroCursors_qbaseChroma : (zeroCursors s).qbaseChroma = s.qbaseChroma := (rfl)
@[simp] theorem zeroCursors_imgi : (zeroCursors s).imgi = s.imgi := (rfl)
@[simp] theorem zeroCursors_imgo : (zeroCursors s).imgo = s.imgo := (rfl)
@[simp] theorem zeroCursors_dcs : (zeroCursors s).dcs = s.dcs := (rfl)
@[simp] theorem zeroCursors_acs : (zeroCursors s).acs = s.acs := (rfl)
@[simp] theorem zeroCursors_epoch : (zeroCursors s).epoch = s.epoch := (rfl)
@[simp] theorem zeroCursors_inbox : (zeroCursors s).inbox = s.inbox := (rfl)
@[simp] theorem zeroCursors_outputs : (zeroCursors s).outputs = s.outputs := (rfl)

/-! ### advanceCursors -/

section
variable (k : Fin 3)

@[simp] theorem advanceCursors_status : (advanceCursors k s).status = s.status := (rfl)
@[simp] theorem advanceCursors_errinfo : (advanceCursors k s).errinfo = s.errinfo := (rfl)
@[simp] theorem advanceCursors_result : (advanceCursors k s).result = s.result := (rfl)
@[simp] theorem advanceCursors_cf : (advanceCursors k s).cf = s.cf := (rfl)
@[simp] theorem advanceCursors_rows : (advanceCursors k s).rows = s.rows := (rfl)
@[simp] theorem advanceCursors_cols : (advanceCursors k s).cols = s.cols := (rfl)
@[simp] theorem advanceCursors_dcin : (advanceCursors k s).dcin = s.dcin := (rfl)
@[simp] theorem advanceCursors_dcout : (advanceCursors k s).dcout = s.dcout := (rfl)
@[simp] theorem advanceCursors_accnt : (advanceCursors k s).accnt = s.accnt := (rfl)
@[simp] theorem advanceCursors_dcidx : (advanceCursors k s).dcidx = s.dcidx.set k.val (s.dcidx[k] + 1) k.isLt := (rfl)
@[simp] theorem advanceCursors_acidx : (advanceCursors k s).acidx = s.acidx.set k.val (s.acidx[k] + 63) k.isLt := (rfl)
@[simp] theorem advanceCursors_dclen : (advanceCursors k s).dclen = s.dclen := (rfl)
@[simp] theorem advanceCursors_aclen : (advanceCursors k s).aclen = s.aclen := (rfl)
@[simp] theorem advanceCursors_pixi : (advanceCursors k s).pixi = s.pixi := (rfl)
@[simp] theorem advanceCursors_fcoef : (advanceCursors k s).fcoef = s.fcoef := (rfl)
@[simp] theorem advanceCursors_div : (advanceCursors k s).div = s.div := (rfl)
@[simp] theorem advanceCursors_qco : (advanceCursors k s).qco = s.qco := (rfl)
@[simp] theorem advanceCursors_scan : (advanceCursors k s).scan = s.scan := (rfl)
@[simp] theorem advanceCursors_acin : (advanceCursors k s).acin = s.acin := (rfl)
@[simp] theorem advanceCursors_icoef : (advanceCursors k s).icoef = s.icoef := (rfl)
@[simp] theorem advanceCursors_samp : (advanceCursors k s).samp = s.samp := (rfl)
@[simp] theorem advanceCursors_pixo : (advanceCursors k s).pixo = s.pixo := (rfl)
@[simp] theorem advanceCursors_qbaseLuma : (advanceCursors k s).qbaseLuma = s.qbaseLuma := (rfl)
@[simp] theorem advanceCursors_qbaseChroma : (advanceCursors k s).qbaseChroma = s.qbaseChroma := (rfl)
@[simp] theorem advanceCursors_imgi : (advanceCursors k s).imgi = s.imgi := (rfl)
@[simp] theorem advanceCursors_imgo : (advanceCursors k s).imgo = s.imgo := (rfl)
@[simp] theorem advanceCursors_dcs : (advanceCursors k s).dcs = s.dcs := (rfl)
@[simp] theorem advanceCursors_acs : (advanceCursors k s).acs = s.acs := (rfl)
@[simp] theorem advanceCursors_epoch : (advanceCursors k s).epoch = s.epoch := (rfl)
@[simp] theorem advanceCursors_inbox : (advanceCursors k s).inbox = s.inbox := (rfl)
@[simp] theorem advanceCursors_outputs : (advanceCursors k s).outputs = s.outputs := (rfl)

end

/-! ### loadPixels -/

section
variable (br bc : Nat) (k : Fin 3)

@[simp] theorem loadPixels_status : (loadPixels br bc k s).status = s.status := (rfl)
@[simp] theorem loadPixels_errinfo : (loadPixels br bc k s).errinfo = s.errinfo := (rfl)
@[simp] theorem loadPixels_result : (loadPixels br bc k s).result = s.result := (rfl)
@[simp] theorem loadPixels_cf : (loadPixels br bc k s).cf = s.cf := (rfl)
@[simp] theorem loadPixels_rows : (loadPixels br bc k s).rows = s.rows := (rfl)
@[simp] theorem loadPixels_cols : (loadPixels br bc k s).cols = s.cols := (rfl)
@[simp] theorem loadPixels_dcin : (loadPixels br bc k s).dcin = s.dcin := (rfl)
@[simp] theorem loadPixels_dcout : (loadPixels br bc k s).dcout = s.dcout := (rfl)
@[simp] theorem loadPixels_accnt : (loadPixels br bc k s).accnt = s.accnt := (rfl)
@[simp] theorem loadPixels_dcidx : (loadPixels br bc k s).dcidx = s.dcidx := (rfl)
@[simp] theorem loadPixels_acidx : (loadPixels br bc k s).acidx = s.acidx := (rfl)
@[simp] theorem loadPixels_dclen : (loadPixels br bc k s).dclen = s.dclen := (rfl)
@[simp] theorem loadPixels_aclen : (loadPixels br bc k s).aclen = s.aclen := (rfl)
@[simp] theorem loadPixels_pixi : (loadPixels br bc k s).pixi = tabulate fun i => s.readImgi (blockPixel s.cols.toNat br bc k i) := (rfl)
@[simp] theorem loadPixels_fcoef : (loadPixels br bc k s).fcoef = s.fcoef := (rfl)
@[simp] theorem loadPixels_div : (loadPixels br bc k s).div = s.div := (rfl)
@[simp] theorem loadPixels_qco : (loadPixels br bc k s).qco = s.qco := (rfl)
@[simp] theorem loadPixels_scan : (loadPixels br bc k s).scan = s.scan := (rfl)
@[simp] theorem loadPixels_acin : (loadPixels br bc k s).acin = s.acin := (rfl)
@[simp] theorem loadPixels_icoef : (loadPixels br bc k s).icoef = s.icoef := (rfl)
@[simp] theorem loadPixels_samp : (loadPixels br bc k s).samp = s.samp := (rfl)
@[simp] theorem loadPixels_pixo : (loadPixels br bc k s).pixo = s.pixo := (rfl)
@[simp] theorem loadPixels_qbaseLuma : (loadPixels br bc k s).qbaseLuma = s.qbaseLuma := (rfl)
@[simp] theorem loadPixels_qbaseChroma : (loadPixels br bc k s).qbaseChroma = s.qbaseChroma := (rfl)
@[simp] theorem loadPixels_imgi : (loadPixels br bc k s).imgi = s.imgi := (rfl)
@[simp] theorem loadPixels_imgo : (loadPixels br bc k s).imgo = s.imgo := (rfl)
@[simp] theorem loadPixels_dcs : (loadPixels br bc k s).dcs = s.dcs := (rfl)
@[simp] theorem loadPixels_acs : (loadPixels br bc k s).acs = s.acs := (rfl)
@[simp] theorem loadPixels_epoch : (loadPixels br bc k s).epoch = s.epoch := (rfl)
@[simp] theorem loadPixels_inbox : (loadPixels br bc k s).inbox = s.inbox := (rfl)
@[simp] theorem loadPixels_outputs : (loadPixels br bc k s).outputs = s.outputs := (rfl)

end

/-! ### loadStreams -/

section
variable (k : Fin 3)

@[simp] theorem loadStreams_status : (loadStreams k s).status = s.status := (rfl)
@[simp] theorem loadStreams_errinfo : (loadStreams k s).errinfo = s.errinfo := (rfl)
@[simp] theorem loadStreams_result : (loadStreams k s).result = s.result := (rfl)
@[simp] theorem loadStreams_cf : (loadStreams k s).cf = s.cf := (rfl)
@[simp] theorem loadStreams_rows : (loadStreams k s).rows = s.rows := (rfl)
@[simp] theorem loadStreams_cols : (loadStreams k s).cols = s.cols := (rfl)
@[simp] theorem loadStreams_dcin : (loadStreams k s).dcin = s.dcin := (rfl)
@[simp] theorem loadStreams_dcout : (loadStreams k s).dcout = s.dcout := (rfl)
@[simp] theorem loadStreams_accnt : (loadStreams k s).accnt = s.accnt := (rfl)
@[simp] theorem loadStreams_dcidx : (loadStreams k s).dcidx = s.dcidx := (rfl)
@[simp] theorem loadStreams_acidx : (loadStreams k s).acidx = s.acidx := (rfl)
@[simp] theorem loadStreams_dclen : (loadStreams k s).dclen = s.dclen := (rfl)
@[simp] theorem loadStreams_aclen : (loadStreams k s).aclen = s.aclen := (rfl)
@[simp] theorem loadStreams_pixi : (loadStreams k s).pixi = s.pixi := (rfl)
@[simp] theorem loadStreams_fcoef : (loadStreams k s).fcoef = s.fcoef := (rfl)
@[simp] theorem loadStreams_div : (loadStreams k s).div = s.div := (rfl)
@[simp] theorem loadStreams_qco : (loadStreams k s).qco = s.qco := (rfl)
@[simp] theorem loadStreams_scan : (loadStreams k s).scan = scanOf (s.readDcs k s.dcidx[k].toNat) fun i => s.readAcs k (s.acidx[k].toNat + i.val) := (rfl)
@[simp] theorem loadStreams_acin : (loadStreams k s).acin = s.acin := (rfl)
@[simp] theorem loadStreams_icoef : (loadStreams k s).icoef = s.icoef := (rfl)
@[simp] theorem loadStreams_samp : (loadStreams k s).samp = s.samp := (rfl)
@[simp] theorem loadStreams_pixo : (loadStreams k s).pixo = s.pixo := (rfl)
@[simp] theorem loadStreams_qbaseLuma : (loadStreams k s).qbaseLuma = s.qbaseLuma := (rfl)
@[simp] theorem loadStreams_qbaseChroma : (loadStreams k s).qbaseChroma = s.qbaseChroma := (rfl)
@[simp] theorem loadStreams_imgi : (loadStreams k s).imgi = s.imgi := (rfl)
@[simp] theorem loadStreams_imgo : (loadStreams k s).imgo = s.imgo := (rfl)
@[simp] theorem loadStreams_dcs : (loadStreams k s).dcs = s.dcs := (rfl)
@[simp] theorem loadStreams_acs : (loadStreams k s).acs = s.acs := (rfl)
@[simp] theorem loadStreams_epoch : (loadStreams k s).epoch = s.epoch := (rfl)
@[simp] theorem loadStreams_inbox : (loadStreams k s).inbox = s.inbox := (rfl)
@[simp] theorem loadStreams_outputs : (loadStreams k s).outputs = s.outputs := (rfl)

end

/-! ### setLengths -/

@[simp] theorem setLengths_status : (setLengths s).status = s.status := (rfl)
@[simp] theorem setLengths_errinfo : (setLengths s).errinfo = s.errinfo := (rfl)
@[simp] theorem setLengths_result : (setLengths s).result = s.result := (rfl)
@[simp] theorem setLengths_cf : (setLengths s).cf = s.cf := (rfl)
@[simp] theorem setLengths_rows : (setLengths s).rows = s.rows := (rfl)
@[simp] theorem setLengths_cols : (setLengths s).cols = s.cols := (rfl)
@[simp] theorem setLengths_dcin : (setLengths s).dcin = s.dcin := (rfl)
@[simp] theorem setLengths_dcout : (setLengths s).dcout = s.dcout := (rfl)
@[simp] theorem setLengths_accnt : (setLengths s).accnt = s.accnt := (rfl)
@[simp] theorem setLengths_dcidx : (setLengths s).dcidx = s.dcidx := (rfl)
@[simp] theorem setLengths_acidx : (setLengths s).acidx = s.acidx := (rfl)
@[simp] theorem setLengths_dclen : (setLengths s).dclen = s.dcidx := (rfl)
@[simp] theorem setLengths_aclen : (setLengths s).aclen = s.acidx := (rfl)
@[simp] theorem setLengths_pixi : (setLengths s).pixi = s.pixi := (rfl)
@[simp] theorem setLengths_fcoef : (setLengths s).fcoef = s.fcoef := (rfl)
@[simp] theorem setLengths_div : (setLengths s).div = s.div := (rfl)
@[simp] theorem setLengths_qco : (setLengths s).qco = s.qco := (rfl)
@[simp] theorem setLengths_scan : (setLengths s).scan = s.scan := (rfl)
@[simp] theorem setLengths_acin : (setLengths s).acin = s.acin := (rfl)
@[simp] theorem setLengths_icoef : (setLengths s).icoef = s.icoef := (rfl)
@[simp] theorem setLengths_samp : (setLengths s).samp = s.samp := (rfl)
@[simp] theorem setLengths_pixo : (setLengths s).pixo = s.pixo := (rfl)
@[simp] theorem setLengths_qbaseLuma : (setLengths s).qbaseLuma = s.qbaseLuma := (rfl)
@[simp] theorem setLengths_qbaseChroma : (setLengths s).qbaseChroma = s.qbaseChroma := (rfl)
@[simp] theorem setLengths_imgi : (setLengths s).imgi = s.imgi := (rfl)
@[simp] theorem setLengths_imgo : (setLengths s).imgo = s.imgo := (rfl)
@[simp] theorem setLengths_dcs : (setLengths s).dcs = s.dcs := (rfl)
@[simp] theorem setLengths_acs : (setLengths s).acs = s.acs := (rfl)
@[simp] theorem setLengths_epoch : (setLengths s).epoch = s.epoch := (rfl)
@[simp] theorem setLengths_inbox : (setLengths s).inbox = s.inbox := (rfl)
@[simp] theorem setLengths_outputs : (setLengths s).outputs = s.outputs := (rfl)

/-! ### State.writeImgi -/

section
variable (i : Nat) (v : BitVec 8)

@[simp] theorem State.writeImgi_status : (s.writeImgi i v).status = s.status := (rfl)
@[simp] theorem State.writeImgi_errinfo : (s.writeImgi i v).errinfo = s.errinfo := (rfl)
@[simp] theorem State.writeImgi_result : (s.writeImgi i v).result = s.result := (rfl)
@[simp] theorem State.writeImgi_cf : (s.writeImgi i v).cf = s.cf := (rfl)
@[simp] theorem State.writeImgi_rows : (s.writeImgi i v).rows = s.rows := (rfl)
@[simp] theorem State.writeImgi_cols : (s.writeImgi i v).cols = s.cols := (rfl)
@[simp] theorem State.writeImgi_dcin : (s.writeImgi i v).dcin = s.dcin := (rfl)
@[simp] theorem State.writeImgi_dcout : (s.writeImgi i v).dcout = s.dcout := (rfl)
@[simp] theorem State.writeImgi_accnt : (s.writeImgi i v).accnt = s.accnt := (rfl)
@[simp] theorem State.writeImgi_dcidx : (s.writeImgi i v).dcidx = s.dcidx := (rfl)
@[simp] theorem State.writeImgi_acidx : (s.writeImgi i v).acidx = s.acidx := (rfl)
@[simp] theorem State.writeImgi_dclen : (s.writeImgi i v).dclen = s.dclen := (rfl)
@[simp] theorem State.writeImgi_aclen : (s.writeImgi i v).aclen = s.aclen := (rfl)
@[simp] theorem State.writeImgi_pixi : (s.writeImgi i v).pixi = s.pixi := (rfl)
@[simp] theorem State.writeImgi_fcoef : (s.writeImgi i v).fcoef = s.fcoef := (rfl)
@[simp] theorem State.writeImgi_div : (s.writeImgi i v).div = s.div := (rfl)
@[simp] theorem State.writeImgi_qco : (s.writeImgi i v).qco = s.qco := (rfl)
@[simp] theorem State.writeImgi_scan : (s.writeImgi i v).scan = s.scan := (rfl)
@[simp] theorem State.writeImgi_acin : (s.writeImgi i v).acin = s.acin := (rfl)
@[simp] theorem State.writeImgi_icoef : (s.writeImgi i v).icoef = s.icoef := (rfl)
@[simp] theorem State.writeImgi_samp : (s.writeImgi i v).samp = s.samp := (rfl)
@[simp] theorem State.writeImgi_pixo : (s.writeImgi i v).pixo = s.pixo := (rfl)
@[simp] theorem State.writeImgi_qbaseLuma : (s.writeImgi i v).qbaseLuma = s.qbaseLuma := (rfl)
@[simp] theorem State.writeImgi_qbaseChroma : (s.writeImgi i v).qbaseChroma = s.qbaseChroma := (rfl)
@[simp] theorem State.writeImgi_imgi : (s.writeImgi i v).imgi = s.imgi.store i v := (rfl)
@[simp] theorem State.writeImgi_imgo : (s.writeImgi i v).imgo = s.imgo := (rfl)
@[simp] theorem State.writeImgi_dcs : (s.writeImgi i v).dcs = s.dcs := (rfl)
@[simp] theorem State.writeImgi_acs : (s.writeImgi i v).acs = s.acs := (rfl)
@[simp] theorem State.writeImgi_epoch : (s.writeImgi i v).epoch = s.epoch := (rfl)
@[simp] theorem State.writeImgi_inbox : (s.writeImgi i v).inbox = s.inbox := (rfl)
@[simp] theorem State.writeImgi_outputs : (s.writeImgi i v).outputs = s.outputs := (rfl)

end

/-! ### State.writeImgo -/

section
variable (i : Nat) (v : BitVec 8)

@[simp] theorem State.writeImgo_status : (s.writeImgo i v).status = s.status := (rfl)
@[simp] theorem State.writeImgo_errinfo : (s.writeImgo i v).errinfo = s.errinfo := (rfl)
@[simp] theorem State.writeImgo_result : (s.writeImgo i v).result = s.result := (rfl)
@[simp] theorem State.writeImgo_cf : (s.writeImgo i v).cf = s.cf := (rfl)
@[simp] theorem State.writeImgo_rows : (s.writeImgo i v).rows = s.rows := (rfl)
@[simp] theorem State.writeImgo_cols : (s.writeImgo i v).cols = s.cols := (rfl)
@[simp] theorem State.writeImgo_dcin : (s.writeImgo i v).dcin = s.dcin := (rfl)
@[simp] theorem State.writeImgo_dcout : (s.writeImgo i v).dcout = s.dcout := (rfl)
@[simp] theorem State.writeImgo_accnt : (s.writeImgo i v).accnt = s.accnt := (rfl)
@[simp] theorem State.writeImgo_dcidx : (s.writeImgo i v).dcidx = s.dcidx := (rfl)
@[simp] theorem State.writeImgo_acidx : (s.writeImgo i v).acidx = s.acidx := (rfl)
@[simp] theorem State.writeImgo_dclen : (s.writeImgo i v).dclen = s.dclen := (rfl)
@[simp] theorem State.writeImgo_aclen : (s.writeImgo i v).aclen = s.aclen := (rfl)
@[simp] theorem State.writeImgo_pixi : (s.writeImgo i v).pixi = s.pixi := (rfl)
@[simp] theorem State.writeImgo_fcoef : (s.writeImgo i v).fcoef = s.fcoef := (rfl)
@[simp] theorem State.writeImgo_div : (s.writeImgo i v).div = s.div := (rfl)
@[simp] theorem State.writeImgo_qco : (s.writeImgo i v).qco = s.qco := (rfl)
@[simp] theorem State.writeImgo_scan : (s.writeImgo i v).scan = s.scan := (rfl)
@[simp] theorem State.writeImgo_acin : (s.writeImgo i v).acin = s.acin := (rfl)
@[simp] theorem State.writeImgo_icoef : (s.writeImgo i v).icoef = s.icoef := (rfl)
@[simp] theorem State.writeImgo_samp : (s.writeImgo i v).samp = s.samp := (rfl)
@[simp] theorem State.writeImgo_pixo : (s.writeImgo i v).pixo = s.pixo := (rfl)
@[simp] theorem State.writeImgo_qbaseLuma : (s.writeImgo i v).qbaseLuma = s.qbaseLuma := (rfl)
@[simp] theorem State.writeImgo_qbaseChroma : (s.writeImgo i v).qbaseChroma = s.qbaseChroma := (rfl)
@[simp] theorem State.writeImgo_imgi : (s.writeImgo i v).imgi = s.imgi := (rfl)
@[simp] theorem State.writeImgo_imgo : (s.writeImgo i v).imgo = s.imgo.store i v := (rfl)
@[simp] theorem State.writeImgo_dcs : (s.writeImgo i v).dcs = s.dcs := (rfl)
@[simp] theorem State.writeImgo_acs : (s.writeImgo i v).acs = s.acs := (rfl)
@[simp] theorem State.writeImgo_epoch : (s.writeImgo i v).epoch = s.epoch := (rfl)
@[simp] theorem State.writeImgo_inbox : (s.writeImgo i v).inbox = s.inbox := (rfl)
@[simp] theorem State.writeImgo_outputs : (s.writeImgo i v).outputs = s.outputs := (rfl)

end

/-! ### State.writeDcs -/

section
variable (k : Fin 3) (i : Nat) (v : BitVec 16)

@[simp] theorem State.writeDcs_status : (s.writeDcs k i v).status = s.status := (rfl)
@[simp] theorem State.writeDcs_errinfo : (s.writeDcs k i v).errinfo = s.errinfo := (rfl)
@[simp] theorem State.writeDcs_result : (s.writeDcs k i v).result = s.result := (rfl)
@[simp] theorem State.writeDcs_cf : (s.writeDcs k i v).cf = s.cf := (rfl)
@[simp] theorem State.writeDcs_rows : (s.writeDcs k i v).rows = s.rows := (rfl)
@[simp] theorem State.writeDcs_cols : (s.writeDcs k i v).cols = s.cols := (rfl)
@[simp] theorem State.writeDcs_dcin : (s.writeDcs k i v).dcin = s.dcin := (rfl)
@[simp] theorem State.writeDcs_dcout : (s.writeDcs k i v).dcout = s.dcout := (rfl)
@[simp] theorem State.writeDcs_accnt : (s.writeDcs k i v).accnt = s.accnt := (rfl)
@[simp] theorem State.writeDcs_dcidx : (s.writeDcs k i v).dcidx = s.dcidx := (rfl)
@[simp] theorem State.writeDcs_acidx : (s.writeDcs k i v).acidx = s.acidx := (rfl)
@[simp] theorem State.writeDcs_dclen : (s.writeDcs k i v).dclen = s.dclen := (rfl)
@[simp] theorem State.writeDcs_aclen : (s.writeDcs k i v).aclen = s.aclen := (rfl)
@[simp] theorem State.writeDcs_pixi : (s.writeDcs k i v).pixi = s.pixi := (rfl)
@[simp] theorem State.writeDcs_fcoef : (s.writeDcs k i v).fcoef = s.fcoef := (rfl)
@[simp] theorem State.writeDcs_div : (s.writeDcs k i v).div = s.div := (rfl)
@[simp] theorem State.writeDcs_qco : (s.writeDcs k i v).qco = s.qco := (rfl)
@[simp] theorem State.writeDcs_scan : (s.writeDcs k i v).scan = s.scan := (rfl)
@[simp] theorem State.writeDcs_acin : (s.writeDcs k i v).acin = s.acin := (rfl)
@[simp] theorem State.writeDcs_icoef : (s.writeDcs k i v).icoef = s.icoef := (rfl)
@[simp] theorem State.writeDcs_samp : (s.writeDcs k i v).samp = s.samp := (rfl)
@[simp] theorem State.writeDcs_pixo : (s.writeDcs k i v).pixo = s.pixo := (rfl)
@[simp] theorem State.writeDcs_qbaseLuma : (s.writeDcs k i v).qbaseLuma = s.qbaseLuma := (rfl)
@[simp] theorem State.writeDcs_qbaseChroma : (s.writeDcs k i v).qbaseChroma = s.qbaseChroma := (rfl)
@[simp] theorem State.writeDcs_imgi : (s.writeDcs k i v).imgi = s.imgi := (rfl)
@[simp] theorem State.writeDcs_imgo : (s.writeDcs k i v).imgo = s.imgo := (rfl)
@[simp] theorem State.writeDcs_dcs : (s.writeDcs k i v).dcs = s.dcs.set k.val (s.dcs[k].store i v) k.isLt := (rfl)
@[simp] theorem State.writeDcs_acs : (s.writeDcs k i v).acs = s.acs := (rfl)
@[simp] theorem State.writeDcs_epoch : (s.writeDcs k i v).epoch = s.epoch := (rfl)
@[simp] theorem State.writeDcs_inbox : (s.writeDcs k i v).inbox = s.inbox := (rfl)
@[simp] theorem State.writeDcs_outputs : (s.writeDcs k i v).outputs = s.outputs := (rfl)

end

/-! ### State.writeAcs -/

section
variable (k : Fin 3) (i : Nat) (v : BitVec 16)

@[simp] theorem State.writeAcs_status : (s.writeAcs k i v).status = s.status := (rfl)
@[simp] theorem State.writeAcs_errinfo : (s.writeAcs k i v).errinfo = s.errinfo := (rfl)
@[simp] theorem State.writeAcs_result : (s.writeAcs k i v).result = s.result := (rfl)
@[simp] theorem State.writeAcs_cf : (s.writeAcs k i v).cf = s.cf := (rfl)
@[simp] theorem State.writeAcs_rows : (s.writeAcs k i v).rows = s.rows := (rfl)
@[simp] theorem State.writeAcs_cols : (s.writeAcs k i v).cols = s.cols := (rfl)
@[simp] theorem State.writeAcs_dcin : (s.writeAcs k i v).dcin = s.dcin := (rfl)
@[simp] theorem State.writeAcs_dcout : (s.writeAcs k i v).dcout = s.dcout := (rfl)
@[simp] theorem State.writeAcs_accnt : (s.writeAcs k i v).accnt = s.accnt := (rfl)
@[simp] theorem State.writeAcs_dcidx : (s.writeAcs k i v).dcidx = s.dcidx := (rfl)
@[simp] theorem State.writeAcs_acidx : (s.writeAcs k i v).acidx = s.acidx := (rfl)
@[simp] theorem State.writeAcs_dclen : (s.writeAcs k i v).dclen = s.dclen := (rfl)
@[simp] theorem State.writeAcs_aclen : (s.writeAcs k i v).aclen = s.aclen := (rfl)
@[simp] theorem State.writeAcs_pixi : (s.writeAcs k i v).pixi = s.pixi := (rfl)
@[simp] theorem State.writeAcs_fcoef : (s.writeAcs k i v).fcoef = s.fcoef := (rfl)
@[simp] theorem State.writeAcs_div : (s.writeAcs k i v).div = s.div := (rfl)
@[simp] theorem State.writeAcs_qco : (s.writeAcs k i v).qco = s.qco := (rfl)
@[simp] theorem State.writeAcs_scan : (s.writeAcs k i v).scan = s.scan := (rfl)
@[simp] theorem State.writeAcs_acin : (s.writeAcs k i v).acin = s.acin := (rfl)
@[simp] theorem State.writeAcs_icoef : (s.writeAcs k i v).icoef = s.icoef := (rfl)
@[simp] theorem State.writeAcs_samp : (s.writeAcs k i v).samp = s.samp := (rfl)
@[simp] theorem State.writeAcs_pixo : (s.writeAcs k i v).pixo = s.pixo := (rfl)
@[simp] theorem State.writeAcs_qbaseLuma : (s.writeAcs k i v).qbaseLuma = s.qbaseLuma := (rfl)
@[simp] theorem State.writeAcs_qbaseChroma : (s.writeAcs k i v).qbaseChroma = s.qbaseChroma := (rfl)
@[simp] theorem State.writeAcs_imgi : (s.writeAcs k i v).imgi = s.imgi := (rfl)
@[simp] theorem State.writeAcs_imgo : (s.writeAcs k i v).imgo = s.imgo := (rfl)
@[simp] theorem State.writeAcs_dcs : (s.writeAcs k i v).dcs = s.dcs := (rfl)
@[simp] theorem State.writeAcs_acs : (s.writeAcs k i v).acs = s.acs.set k.val (s.acs[k].store i v) k.isLt := (rfl)
@[simp] theorem State.writeAcs_epoch : (s.writeAcs k i v).epoch = s.epoch := (rfl)
@[simp] theorem State.writeAcs_inbox : (s.writeAcs k i v).inbox = s.inbox := (rfl)
@[simp] theorem State.writeAcs_outputs : (s.writeAcs k i v).outputs = s.outputs := (rfl)

end

/-! ### STATUS.FAULT and QBASE, read through their accessors -/

@[simp] theorem raiseFault_qbase (k : FaultKind) (w : Word) (c : ChannelClass) : (raiseFault k w s).qbase c = s.qbase c := by cases c <;> rfl
@[simp] theorem loseStorage_faulted : (loseStorage s).faulted = s.faulted := by simp [State.faulted]
@[simp] theorem loseStorage_qbase (cls : ChannelClass) : (loseStorage s).qbase cls = s.qbase cls := by cases cls <;> simp [State.qbase]
@[simp] theorem setResult_faulted (r : Word) : (setResult r s).faulted = s.faulted := (rfl)
@[simp] theorem setResult_qbase (r : Word) (c : ChannelClass) : (setResult r s).qbase c = s.qbase c := by cases c <;> rfl
@[simp] theorem clearAccnt_faulted : (clearAccnt s).faulted = s.faulted := (rfl)
@[simp] theorem clearAccnt_qbase (c : ChannelClass) : (clearAccnt s).qbase c = s.qbase c := by cases c <;> rfl
@[simp] theorem answerH_faulted (d : Option Word) : (answerH d s).faulted = s.faulted := (rfl)
@[simp] theorem answerH_qbase (d : Option Word) (c : ChannelClass) : (answerH d s).qbase c = s.qbase c := by cases c <;> rfl
@[simp] theorem answerM_faulted (d : Option Word) : (answerM d s).faulted = s.faulted := (rfl)
@[simp] theorem answerM_qbase (d : Option Word) (c : ChannelClass) : (answerM d s).qbase c = s.qbase c := by cases c <;> rfl
@[simp] theorem answerNone_faulted : (answerNone s).faulted = s.faulted := (rfl)
@[simp] theorem answerNone_qbase (c : ChannelClass) : (answerNone s).qbase c = s.qbase c := by cases c <;> rfl
@[simp] theorem afterInput_faulted (rest : List Pins) : (afterInput rest s).faulted = s.faulted := (rfl)
@[simp] theorem afterInput_qbase (rest : List Pins) (c : ChannelClass) : (afterInput rest s).qbase c = s.qbase c := by cases c <;> rfl
@[simp] theorem presentCommand_faulted (w : Word) : (presentCommand w s).faulted = s.faulted := (rfl)
@[simp] theorem presentCommand_qbase (w : Word) (c : ChannelClass) : (presentCommand w s).qbase c = s.qbase c := by cases c <;> rfl
@[simp] theorem pushAc_faulted (d : Word) : (pushAc d s).faulted = s.faulted := (rfl)
@[simp] theorem pushAc_qbase (d : Word) (c : ChannelClass) : (pushAc d s).qbase c = s.qbase c := by cases c <;> rfl
@[simp] theorem transformForward_faulted : (transformForward s).faulted = s.faulted := (rfl)
@[simp] theorem transformForward_qbase (c : ChannelClass) : (transformForward s).qbase c = s.qbase c := by cases c <;> rfl
@[simp] theorem transformInverse_faulted : (transformInverse s).faulted = s.faulted := (rfl)
@[simp] theorem transformInverse_qbase (c : ChannelClass) : (transformInverse s).qbase c = s.qbase c := by cases c <;> rfl
@[simp] theorem buildDivisors_faulted (cls : ChannelClass) : (buildDivisors cls s).faulted = s.faulted := (rfl)
@[simp] theorem buildDivisors_qbase (cls : ChannelClass) (c : ChannelClass) : (buildDivisors cls s).qbase c = s.qbase c := by cases c <;> rfl
@[simp] theorem scanBlock_faulted : (scanBlock s).faulted = s.faulted := (rfl)
@[simp] theorem scanBlock_qbase (c : ChannelClass) : (scanBlock s).qbase c = s.qbase c := by cases c <;> rfl
@[simp] theorem unscanBlock_faulted : (unscanBlock s).faulted = s.faulted := (rfl)
@[simp] theorem unscanBlock_qbase (c : ChannelClass) : (unscanBlock s).qbase c = s.qbase c := by cases c <;> rfl
@[simp] theorem quantise_faulted : (quantise s).faulted = s.faulted := (rfl)
@[simp] theorem quantise_qbase (c : ChannelClass) : (quantise s).qbase c = s.qbase c := by cases c <;> rfl
@[simp] theorem dequantise_faulted : (dequantise s).faulted = s.faulted := (rfl)
@[simp] theorem dequantise_qbase (c : ChannelClass) : (dequantise s).qbase c = s.qbase c := by cases c <;> rfl
@[simp] theorem clampSamples_faulted : (clampSamples s).faulted = s.faulted := (rfl)
@[simp] theorem clampSamples_qbase (c : ChannelClass) : (clampSamples s).qbase c = s.qbase c := by cases c <;> rfl
@[simp] theorem copyDc_faulted : (copyDc s).faulted = s.faulted := (rfl)
@[simp] theorem copyDc_qbase (c : ChannelClass) : (copyDc s).qbase c = s.qbase c := by cases c <;> rfl
@[simp] theorem loadScan_faulted : (loadScan s).faulted = s.faulted := (rfl)
@[simp] theorem loadScan_qbase (c : ChannelClass) : (loadScan s).qbase c = s.qbase c := by cases c <;> rfl
@[simp] theorem zeroCursors_faulted : (zeroCursors s).faulted = s.faulted := (rfl)
@[simp] theorem zeroCursors_qbase (c : ChannelClass) : (zeroCursors s).qbase c = s.qbase c := by cases c <;> rfl
@[simp] theorem advanceCursors_faulted (k : Fin 3) : (advanceCursors k s).faulted = s.faulted := (rfl)
@[simp] theorem advanceCursors_qbase (k : Fin 3) (c : ChannelClass) : (advanceCursors k s).qbase c = s.qbase c := by cases c <;> rfl
@[simp] theorem loadPixels_faulted (br bc : Nat) (k : Fin 3) : (loadPixels br bc k s).faulted = s.faulted := (rfl)
@[simp] theorem loadPixels_qbase (br bc : Nat) (k : Fin 3) (c : ChannelClass) : (loadPixels br bc k s).qbase c = s.qbase c := by cases c <;> rfl
@[simp] theorem loadStreams_faulted (k : Fin 3) : (loadStreams k s).faulted = s.faulted := (rfl)
@[simp] theorem loadStreams_qbase (k : Fin 3) (c : ChannelClass) : (loadStreams k s).qbase c = s.qbase c := by cases c <;> rfl
@[simp] theorem setLengths_faulted : (setLengths s).faulted = s.faulted := (rfl)
@[simp] theorem setLengths_qbase (c : ChannelClass) : (setLengths s).qbase c = s.qbase c := by cases c <;> rfl

/-! ### Memory elements, read through their accessors -/

@[simp] theorem raiseFault_readImgi (k : FaultKind) (w : Word) (j : Nat) : (raiseFault k w s).readImgi j = s.readImgi j := (rfl)
@[simp] theorem raiseFault_readImgo (k : FaultKind) (w : Word) (j : Nat) : (raiseFault k w s).readImgo j = s.readImgo j := (rfl)
@[simp] theorem raiseFault_readDcs (k : FaultKind) (w : Word) (l : Fin 3) (j : Nat) : (raiseFault k w s).readDcs l j = s.readDcs l j := (rfl)
@[simp] theorem raiseFault_readAcs (k : FaultKind) (w : Word) (l : Fin 3) (j : Nat) : (raiseFault k w s).readAcs l j = s.readAcs l j := (rfl)
@[simp] theorem softReset_readImgi (j : Nat) : (softReset s).readImgi j = s.readImgi j := (rfl)
@[simp] theorem softReset_readImgo (j : Nat) : (softReset s).readImgo j = s.readImgo j := (rfl)
@[simp] theorem softReset_readDcs (l : Fin 3) (j : Nat) : (softReset s).readDcs l j = s.readDcs l j := (rfl)
@[simp] theorem softReset_readAcs (l : Fin 3) (j : Nat) : (softReset s).readAcs l j = s.readAcs l j := (rfl)
@[simp] theorem setResult_readImgi (r : Word) (j : Nat) : (setResult r s).readImgi j = s.readImgi j := (rfl)
@[simp] theorem setResult_readImgo (r : Word) (j : Nat) : (setResult r s).readImgo j = s.readImgo j := (rfl)
@[simp] theorem setResult_readDcs (r : Word) (l : Fin 3) (j : Nat) : (setResult r s).readDcs l j = s.readDcs l j := (rfl)
@[simp] theorem setResult_readAcs (r : Word) (l : Fin 3) (j : Nat) : (setResult r s).readAcs l j = s.readAcs l j := (rfl)
@[simp] theorem clearAccnt_readImgi (j : Nat) : (clearAccnt s).readImgi j = s.readImgi j := (rfl)
@[simp] theorem clearAccnt_readImgo (j : Nat) : (clearAccnt s).readImgo j = s.readImgo j := (rfl)
@[simp] theorem clearAccnt_readDcs (l : Fin 3) (j : Nat) : (clearAccnt s).readDcs l j = s.readDcs l j := (rfl)
@[simp] theorem clearAccnt_readAcs (l : Fin 3) (j : Nat) : (clearAccnt s).readAcs l j = s.readAcs l j := (rfl)
@[simp] theorem answerH_readImgi (d : Option Word) (j : Nat) : (answerH d s).readImgi j = s.readImgi j := (rfl)
@[simp] theorem answerH_readImgo (d : Option Word) (j : Nat) : (answerH d s).readImgo j = s.readImgo j := (rfl)
@[simp] theorem answerH_readDcs (d : Option Word) (l : Fin 3) (j : Nat) : (answerH d s).readDcs l j = s.readDcs l j := (rfl)
@[simp] theorem answerH_readAcs (d : Option Word) (l : Fin 3) (j : Nat) : (answerH d s).readAcs l j = s.readAcs l j := (rfl)
@[simp] theorem answerM_readImgi (d : Option Word) (j : Nat) : (answerM d s).readImgi j = s.readImgi j := (rfl)
@[simp] theorem answerM_readImgo (d : Option Word) (j : Nat) : (answerM d s).readImgo j = s.readImgo j := (rfl)
@[simp] theorem answerM_readDcs (d : Option Word) (l : Fin 3) (j : Nat) : (answerM d s).readDcs l j = s.readDcs l j := (rfl)
@[simp] theorem answerM_readAcs (d : Option Word) (l : Fin 3) (j : Nat) : (answerM d s).readAcs l j = s.readAcs l j := (rfl)
@[simp] theorem answerNone_readImgi (j : Nat) : (answerNone s).readImgi j = s.readImgi j := (rfl)
@[simp] theorem answerNone_readImgo (j : Nat) : (answerNone s).readImgo j = s.readImgo j := (rfl)
@[simp] theorem answerNone_readDcs (l : Fin 3) (j : Nat) : (answerNone s).readDcs l j = s.readDcs l j := (rfl)
@[simp] theorem answerNone_readAcs (l : Fin 3) (j : Nat) : (answerNone s).readAcs l j = s.readAcs l j := (rfl)
@[simp] theorem afterInput_readImgi (rest : List Pins) (j : Nat) : (afterInput rest s).readImgi j = s.readImgi j := (rfl)
@[simp] theorem afterInput_readImgo (rest : List Pins) (j : Nat) : (afterInput rest s).readImgo j = s.readImgo j := (rfl)
@[simp] theorem afterInput_readDcs (rest : List Pins) (l : Fin 3) (j : Nat) : (afterInput rest s).readDcs l j = s.readDcs l j := (rfl)
@[simp] theorem afterInput_readAcs (rest : List Pins) (l : Fin 3) (j : Nat) : (afterInput rest s).readAcs l j = s.readAcs l j := (rfl)
@[simp] theorem presentCommand_readImgi (w : Word) (j : Nat) : (presentCommand w s).readImgi j = s.readImgi j := (rfl)
@[simp] theorem presentCommand_readImgo (w : Word) (j : Nat) : (presentCommand w s).readImgo j = s.readImgo j := (rfl)
@[simp] theorem presentCommand_readDcs (w : Word) (l : Fin 3) (j : Nat) : (presentCommand w s).readDcs l j = s.readDcs l j := (rfl)
@[simp] theorem presentCommand_readAcs (w : Word) (l : Fin 3) (j : Nat) : (presentCommand w s).readAcs l j = s.readAcs l j := (rfl)
@[simp] theorem pushAc_readImgi (d : Word) (j : Nat) : (pushAc d s).readImgi j = s.readImgi j := (rfl)
@[simp] theorem pushAc_readImgo (d : Word) (j : Nat) : (pushAc d s).readImgo j = s.readImgo j := (rfl)
@[simp] theorem pushAc_readDcs (d : Word) (l : Fin 3) (j : Nat) : (pushAc d s).readDcs l j = s.readDcs l j := (rfl)
@[simp] theorem pushAc_readAcs (d : Word) (l : Fin 3) (j : Nat) : (pushAc d s).readAcs l j = s.readAcs l j := (rfl)
@[simp] theorem transformForward_readImgi (j : Nat) : (transformForward s).readImgi j = s.readImgi j := (rfl)
@[simp] theorem transformForward_readImgo (j : Nat) : (transformForward s).readImgo j = s.readImgo j := (rfl)
@[simp] theorem transformForward_readDcs (l : Fin 3) (j : Nat) : (transformForward s).readDcs l j = s.readDcs l j := (rfl)
@[simp] theorem transformForward_readAcs (l : Fin 3) (j : Nat) : (transformForward s).readAcs l j = s.readAcs l j := (rfl)
@[simp] theorem transformInverse_readImgi (j : Nat) : (transformInverse s).readImgi j = s.readImgi j := (rfl)
@[simp] theorem transformInverse_readImgo (j : Nat) : (transformInverse s).readImgo j = s.readImgo j := (rfl)
@[simp] theorem transformInverse_readDcs (l : Fin 3) (j : Nat) : (transformInverse s).readDcs l j = s.readDcs l j := (rfl)
@[simp] theorem transformInverse_readAcs (l : Fin 3) (j : Nat) : (transformInverse s).readAcs l j = s.readAcs l j := (rfl)
@[simp] theorem buildDivisors_readImgi (cls : ChannelClass) (j : Nat) : (buildDivisors cls s).readImgi j = s.readImgi j := (rfl)
@[simp] theorem buildDivisors_readImgo (cls : ChannelClass) (j : Nat) : (buildDivisors cls s).readImgo j = s.readImgo j := (rfl)
@[simp] theorem buildDivisors_readDcs (cls : ChannelClass) (l : Fin 3) (j : Nat) : (buildDivisors cls s).readDcs l j = s.readDcs l j := (rfl)
@[simp] theorem buildDivisors_readAcs (cls : ChannelClass) (l : Fin 3) (j : Nat) : (buildDivisors cls s).readAcs l j = s.readAcs l j := (rfl)
@[simp] theorem scanBlock_readImgi (j : Nat) : (scanBlock s).readImgi j = s.readImgi j := (rfl)
@[simp] theorem scanBlock_readImgo (j : Nat) : (scanBlock s).readImgo j = s.readImgo j := (rfl)
@[simp] theorem scanBlock_readDcs (l : Fin 3) (j : Nat) : (scanBlock s).readDcs l j = s.readDcs l j := (rfl)
@[simp] theorem scanBlock_readAcs (l : Fin 3) (j : Nat) : (scanBlock s).readAcs l j = s.readAcs l j := (rfl)
@[simp] theorem unscanBlock_readImgi (j : Nat) : (unscanBlock s).readImgi j = s.readImgi j := (rfl)
@[simp] theorem unscanBlock_readImgo (j : Nat) : (unscanBlock s).readImgo j = s.readImgo j := (rfl)
@[simp] theorem unscanBlock_readDcs (l : Fin 3) (j : Nat) : (unscanBlock s).readDcs l j = s.readDcs l j := (rfl)
@[simp] theorem unscanBlock_readAcs (l : Fin 3) (j : Nat) : (unscanBlock s).readAcs l j = s.readAcs l j := (rfl)
@[simp] theorem quantise_readImgi (j : Nat) : (quantise s).readImgi j = s.readImgi j := (rfl)
@[simp] theorem quantise_readImgo (j : Nat) : (quantise s).readImgo j = s.readImgo j := (rfl)
@[simp] theorem quantise_readDcs (l : Fin 3) (j : Nat) : (quantise s).readDcs l j = s.readDcs l j := (rfl)
@[simp] theorem quantise_readAcs (l : Fin 3) (j : Nat) : (quantise s).readAcs l j = s.readAcs l j := (rfl)
@[simp] theorem dequantise_readImgi (j : Nat) : (dequantise s).readImgi j = s.readImgi j := (rfl)
@[simp] theorem dequantise_readImgo (j : Nat) : (dequantise s).readImgo j = s.readImgo j := (rfl)
@[simp] theorem dequantise_readDcs (l : Fin 3) (j : Nat) : (dequantise s).readDcs l j = s.readDcs l j := (rfl)
@[simp] theorem dequantise_readAcs (l : Fin 3) (j : Nat) : (dequantise s).readAcs l j = s.readAcs l j := (rfl)
@[simp] theorem clampSamples_readImgi (j : Nat) : (clampSamples s).readImgi j = s.readImgi j := (rfl)
@[simp] theorem clampSamples_readImgo (j : Nat) : (clampSamples s).readImgo j = s.readImgo j := (rfl)
@[simp] theorem clampSamples_readDcs (l : Fin 3) (j : Nat) : (clampSamples s).readDcs l j = s.readDcs l j := (rfl)
@[simp] theorem clampSamples_readAcs (l : Fin 3) (j : Nat) : (clampSamples s).readAcs l j = s.readAcs l j := (rfl)
@[simp] theorem copyDc_readImgi (j : Nat) : (copyDc s).readImgi j = s.readImgi j := (rfl)
@[simp] theorem copyDc_readImgo (j : Nat) : (copyDc s).readImgo j = s.readImgo j := (rfl)
@[simp] theorem copyDc_readDcs (l : Fin 3) (j : Nat) : (copyDc s).readDcs l j = s.readDcs l j := (rfl)
@[simp] theorem copyDc_readAcs (l : Fin 3) (j : Nat) : (copyDc s).readAcs l j = s.readAcs l j := (rfl)
@[simp] theorem loadScan_readImgi (j : Nat) : (loadScan s).readImgi j = s.readImgi j := (rfl)
@[simp] theorem loadScan_readImgo (j : Nat) : (loadScan s).readImgo j = s.readImgo j := (rfl)
@[simp] theorem loadScan_readDcs (l : Fin 3) (j : Nat) : (loadScan s).readDcs l j = s.readDcs l j := (rfl)
@[simp] theorem loadScan_readAcs (l : Fin 3) (j : Nat) : (loadScan s).readAcs l j = s.readAcs l j := (rfl)
@[simp] theorem zeroCursors_readImgi (j : Nat) : (zeroCursors s).readImgi j = s.readImgi j := (rfl)
@[simp] theorem zeroCursors_readImgo (j : Nat) : (zeroCursors s).readImgo j = s.readImgo j := (rfl)
@[simp] theorem zeroCursors_readDcs (l : Fin 3) (j : Nat) : (zeroCursors s).readDcs l j = s.readDcs l j := (rfl)
@[simp] theorem zeroCursors_readAcs (l : Fin 3) (j : Nat) : (zeroCursors s).readAcs l j = s.readAcs l j := (rfl)
@[simp] theorem advanceCursors_readImgi (k : Fin 3) (j : Nat) : (advanceCursors k s).readImgi j = s.readImgi j := (rfl)
@[simp] theorem advanceCursors_readImgo (k : Fin 3) (j : Nat) : (advanceCursors k s).readImgo j = s.readImgo j := (rfl)
@[simp] theorem advanceCursors_readDcs (k : Fin 3) (l : Fin 3) (j : Nat) : (advanceCursors k s).readDcs l j = s.readDcs l j := (rfl)
@[simp] theorem advanceCursors_readAcs (k : Fin 3) (l : Fin 3) (j : Nat) : (advanceCursors k s).readAcs l j = s.readAcs l j := (rfl)
@[simp] theorem loadPixels_readImgi (br bc : Nat) (k : Fin 3) (j : Nat) : (loadPixels br bc k s).readImgi j = s.readImgi j := (rfl)
@[simp] theorem loadPixels_readImgo (br bc : Nat) (k : Fin 3) (j : Nat) : (loadPixels br bc k s).readImgo j = s.readImgo j := (rfl)
@[simp] theorem loadPixels_readDcs (br bc : Nat) (k : Fin 3) (l : Fin 3) (j : Nat) : (loadPixels br bc k s).readDcs l j = s.readDcs l j := (rfl)
@[simp] theorem loadPixels_readAcs (br bc : Nat) (k : Fin 3) (l : Fin 3) (j : Nat) : (loadPixels br bc k s).readAcs l j = s.readAcs l j := (rfl)
@[simp] theorem loadStreams_readImgi (k : Fin 3) (j : Nat) : (loadStreams k s).readImgi j = s.readImgi j := (rfl)
@[simp] theorem loadStreams_readImgo (k : Fin 3) (j : Nat) : (loadStreams k s).readImgo j = s.readImgo j := (rfl)
@[simp] theorem loadStreams_readDcs (k : Fin 3) (l : Fin 3) (j : Nat) : (loadStreams k s).readDcs l j = s.readDcs l j := (rfl)
@[simp] theorem loadStreams_readAcs (k : Fin 3) (l : Fin 3) (j : Nat) : (loadStreams k s).readAcs l j = s.readAcs l j := (rfl)
@[simp] theorem setLengths_readImgi (j : Nat) : (setLengths s).readImgi j = s.readImgi j := (rfl)
@[simp] theorem setLengths_readImgo (j : Nat) : (setLengths s).readImgo j = s.readImgo j := (rfl)
@[simp] theorem setLengths_readDcs (l : Fin 3) (j : Nat) : (setLengths s).readDcs l j = s.readDcs l j := (rfl)
@[simp] theorem setLengths_readAcs (l : Fin 3) (j : Nat) : (setLengths s).readAcs l j = s.readAcs l j := (rfl)
@[simp] theorem State.writeImgi_readImgo (i : Nat) (v : BitVec 8) (j : Nat) :
    (s.writeImgi i v).readImgo j = s.readImgo j := (rfl)
@[simp] theorem State.writeImgi_readDcs (i : Nat) (v : BitVec 8) (l : Fin 3) (j : Nat) :
    (s.writeImgi i v).readDcs l j = s.readDcs l j := (rfl)
@[simp] theorem State.writeImgi_readAcs (i : Nat) (v : BitVec 8) (l : Fin 3) (j : Nat) :
    (s.writeImgi i v).readAcs l j = s.readAcs l j := (rfl)
@[simp] theorem State.writeImgo_readImgi (i : Nat) (v : BitVec 8) (j : Nat) :
    (s.writeImgo i v).readImgi j = s.readImgi j := (rfl)
@[simp] theorem State.writeImgo_readDcs (i : Nat) (v : BitVec 8) (l : Fin 3) (j : Nat) :
    (s.writeImgo i v).readDcs l j = s.readDcs l j := (rfl)
@[simp] theorem State.writeImgo_readAcs (i : Nat) (v : BitVec 8) (l : Fin 3) (j : Nat) :
    (s.writeImgo i v).readAcs l j = s.readAcs l j := (rfl)
@[simp] theorem State.writeDcs_readImgi (k : Fin 3) (i : Nat) (v : BitVec 16) (j : Nat) :
    (s.writeDcs k i v).readImgi j = s.readImgi j := (rfl)
@[simp] theorem State.writeDcs_readImgo (k : Fin 3) (i : Nat) (v : BitVec 16) (j : Nat) :
    (s.writeDcs k i v).readImgo j = s.readImgo j := (rfl)
@[simp] theorem State.writeDcs_readAcs (k : Fin 3) (i : Nat) (v : BitVec 16) (l : Fin 3) (j : Nat) :
    (s.writeDcs k i v).readAcs l j = s.readAcs l j := (rfl)
@[simp] theorem State.writeAcs_readImgi (k : Fin 3) (i : Nat) (v : BitVec 16) (j : Nat) :
    (s.writeAcs k i v).readImgi j = s.readImgi j := (rfl)
@[simp] theorem State.writeAcs_readImgo (k : Fin 3) (i : Nat) (v : BitVec 16) (j : Nat) :
    (s.writeAcs k i v).readImgo j = s.readImgo j := (rfl)
@[simp] theorem State.writeAcs_readDcs (k : Fin 3) (i : Nat) (v : BitVec 16) (l : Fin 3) (j : Nat) :
    (s.writeAcs k i v).readDcs l j = s.readDcs l j := (rfl)

@[simp] theorem State.writeImgi_faulted (i : Nat) (v : BitVec 8) : (s.writeImgi i v).faulted = s.faulted := (rfl)
@[simp] theorem State.writeImgi_qbase (i : Nat) (v : BitVec 8) (cls : ChannelClass) : (s.writeImgi i v).qbase cls = s.qbase cls := by
  cases cls <;> rfl
@[simp] theorem State.writeImgo_faulted (i : Nat) (v : BitVec 8) : (s.writeImgo i v).faulted = s.faulted := (rfl)
@[simp] theorem State.writeImgo_qbase (i : Nat) (v : BitVec 8) (cls : ChannelClass) : (s.writeImgo i v).qbase cls = s.qbase cls := by
  cases cls <;> rfl
@[simp] theorem State.writeDcs_faulted (k : Fin 3) (i : Nat) (v : BitVec 16) : (s.writeDcs k i v).faulted = s.faulted := (rfl)
@[simp] theorem State.writeDcs_qbase (k : Fin 3) (i : Nat) (v : BitVec 16) (cls : ChannelClass) : (s.writeDcs k i v).qbase cls = s.qbase cls := by
  cases cls <;> rfl
@[simp] theorem State.writeAcs_faulted (k : Fin 3) (i : Nat) (v : BitVec 16) : (s.writeAcs k i v).faulted = s.faulted := (rfl)
@[simp] theorem State.writeAcs_qbase (k : Fin 3) (i : Nat) (v : BitVec 16) (cls : ChannelClass) : (s.writeAcs k i v).qbase cls = s.qbase cls := by
  cases cls <;> rfl
@[simp] theorem softReset_faulted : (softReset s).faulted = false := by simp [State.faulted]
@[simp] theorem softReset_qbase (cls : ChannelClass) : (softReset s).qbase cls = qdef cls := by cases cls <;> rfl

@[simp] theorem raiseFault_faulted (k : FaultKind) (w : Word) : (raiseFault k w s).faulted = true := by
  cases k <;> simp [State.faulted, faultStatus, FaultKind.code]

end Sys2Proof.Machine
end

