-- ==== Sys2Proof/Laws/Ops.lean ====
section
/-! SUPPORT. What the shared operations of Ops.lean can do, said once: running a command, element reads after element
writes, and the register map. -/

namespace Sys2Proof.Machine

/-! ### Running a command -/

theorem runCommand_faulted {i : Instr} {body : State → Except FaultKind State} {s : State} (h : s.faulted = true) :
    runCommand i body s = .next s := by
  simp [runCommand, h]

theorem runCommand_ok {i : Instr} {body : State → Except FaultKind State} {s t : State} (h : s.faulted = false)
    (hb : body s = .ok t) : runCommand i body s = .next t := by
  simp [runCommand, h, hb]

theorem runCommand_error {i : Instr} {body : State → Except FaultKind State} {s : State} {k : FaultKind}
    (h : s.faulted = false) (hb : body s = .error k) : runCommand i body s = .next (raiseFault k (encode i) s) := by
  simp [runCommand, h, hb]

/-- Everything a command can do: nothing in the fault state; its own effect; or a fault that leaves the rest of the
state alone. -/
theorem runCommand_cases {i : Instr} {body : State → Except FaultKind State} {s : State} {o : Out}
    (h : runCommand i body s = o) :
    (s.faulted = true ∧ o = .next s) ∨
    (s.faulted = false ∧ ∃ t, body s = .ok t ∧ o = .next t) ∨
    (s.faulted = false ∧ ∃ k, body s = .error k ∧ o = .next (raiseFault k (encode i) s)) := by
  cases hf : s.faulted with
  | true => exact .inl ⟨rfl, by rw [← h, runCommand_faulted hf]⟩
  | false =>
    cases hb : body s with
    | ok t => exact .inr (.inl ⟨rfl, t, rfl, by rw [← h, runCommand_ok hf hb]⟩)
    | error k => exact .inr (.inr ⟨rfl, k, rfl, by rw [← h, runCommand_error hf hb]⟩)

/-! ### Elements read after elements written -/

@[simp] theorem State.readImgi_writeImgi (s : State) (i j : Nat) (v : BitVec 8) :
    (s.writeImgi i v).readImgi j = if j = i then v else s.readImgi j := by
  simp only [State.readImgi, State.writeImgi_imgi, State.writeImgi_epoch, Memory.find_store]
  split <;> simp

@[simp] theorem State.readImgo_writeImgo (s : State) (i j : Nat) (v : BitVec 8) :
    (s.writeImgo i v).readImgo j = if j = i then v else s.readImgo j := by
  simp only [State.readImgo, State.writeImgo_imgo, State.writeImgo_epoch, Memory.find_store]
  split <;> simp

@[simp] theorem State.readDcs_writeDcs (s : State) (k l : Fin 3) (i j : Nat) (v : BitVec 16) :
    (s.writeDcs k i v).readDcs l j = if l = k ∧ j = i then v else s.readDcs l j := by
  simp only [State.readDcs, State.writeDcs_dcs, State.writeDcs_epoch]
  by_cases hlk : l = k
  · subst hlk
    by_cases hji : j = i <;> simp [Memory.find_store, hji]
  · have : k.val ≠ l.val := fun h => hlk (Fin.ext h).symm
    simp [hlk, this]

@[simp] theorem State.readAcs_writeAcs (s : State) (k l : Fin 3) (i j : Nat) (v : BitVec 16) :
    (s.writeAcs k i v).readAcs l j = if l = k ∧ j = i then v else s.readAcs l j := by
  simp only [State.readAcs, State.writeAcs_acs, State.writeAcs_epoch]
  by_cases hlk : l = k
  · subst hlk
    by_cases hji : j = i <;> simp [Memory.find_store, hji]
  · have : k.val ≠ l.val := fun h => hlk (Fin.ext h).symm
    simp [hlk, this]

theorem State.readImgi_congr {s t : State} (hm : t.imgi = s.imgi) (he : t.epoch = s.epoch) (a : Nat) :
    t.readImgi a = s.readImgi a := by simp [State.readImgi, hm, he]

theorem State.readImgo_congr {s t : State} (hm : t.imgo = s.imgo) (he : t.epoch = s.epoch) (a : Nat) :
    t.readImgo a = s.readImgo a := by simp [State.readImgo, hm, he]

theorem State.readDcs_congr {s t : State} (hm : t.dcs = s.dcs) (he : t.epoch = s.epoch) (k : Fin 3) (a : Nat) :
    t.readDcs k a = s.readDcs k a := by simp [State.readDcs, hm, he]

theorem State.readAcs_congr {s t : State} (hm : t.acs = s.acs) (he : t.epoch = s.epoch) (k : Fin 3) (a : Nat) :
    t.readAcs k a = s.readAcs k a := by simp [State.readAcs, hm, he]

/-! ### The register map -/

/-- Narrowing what was sign-extended gives it back: a read of a signed location is extended once (R17). -/
theorem setWidth_signExtend {w : Nat} (x : BitVec w) (h : w ≤ 32) : (x.signExtend 32).setWidth w = x := by
  ext i hi
  have : i < 32 := by omega
  rw [BitVec.getElem_setWidth, BitVec.getLsbD_signExtend]
  simp [this, hi]

/-- What a register write never touches: the read-only registers and buffers, the memories, the ports. -/
theorem writeLocation_frame (r : Reg) (d : Word) (s : State) :
    let t := writeLocation r d s
    (t.status = s.status ∧ t.errinfo = s.errinfo ∧ t.result = s.result ∧ t.dcout = s.dcout ∧
      t.dcidx = s.dcidx ∧ t.acidx = s.acidx) ∧
    (t.fcoef = s.fcoef ∧ t.div = s.div ∧ t.samp = s.samp ∧ t.pixo = s.pixo) ∧
    (t.imgi = s.imgi ∧ t.imgo = s.imgo ∧ t.dcs = s.dcs ∧ t.acs = s.acs) ∧
    (t.epoch = s.epoch ∧ t.inbox = s.inbox ∧ t.outputs = s.outputs) := by
  cases r with
  | qbase cls i => cases cls <;> exact ⟨⟨rfl, rfl, rfl, rfl, rfl, rfl⟩, ⟨rfl, rfl, rfl, rfl⟩, ⟨rfl, rfl, rfl, rfl⟩, rfl, rfl, rfl⟩
  | _ => exact ⟨⟨rfl, rfl, rfl, rfl, rfl, rfl⟩, ⟨rfl, rfl, rfl, rfl⟩, ⟨rfl, rfl, rfl, rfl⟩, rfl, rfl, rfl⟩

/-- A register write outside the fault state leaves the core outside it. -/
@[simp] theorem writeLocation_faulted (r : Reg) (d : Word) (s : State) : (writeLocation r d s).faulted = s.faulted := by
  rw [State.faulted, (writeLocation_frame r d s).1.1, State.faulted]

theorem inGroup_eq_some {a base n : Nat} {mk : Fin n → Reg} {r : Reg} :
    inGroup a base n mk = some r ↔ ∃ k : Fin n, a = base + k.val ∧ r = mk k := by
  unfold inGroup
  split
  · rename_i h
    refine ⟨fun hr => ⟨⟨a - base, by omega⟩, ?_, ?_⟩, ?_⟩
    · show a = base + (a - base)
      omega
    · exact (Option.some.inj hr).symm
    · rintro ⟨k, hk, rfl⟩
      congr 2
      ext
      show a - base = k.val
      omega
  · rename_i h
    refine ⟨fun hr => (by cases hr), ?_⟩
    rintro ⟨k, hk, -⟩
    omega

theorem inGroup_eq_none {a base n : Nat} {mk : Fin n → Reg} (h : ¬(base ≤ a ∧ a < base + n)) :
    inGroup a base n mk = none := by
  unfold inGroup
  rw [dif_neg h]

theorem inGroup_base {base n : Nat} {mk : Fin n → Reg} (k : Fin n) : inGroup (base + k.val) base n mk = some (mk k) :=
  inGroup_eq_some.2 ⟨k, rfl, rfl⟩

end Sys2Proof.Machine
end

