-- ==== Sys2Proof/Laws/Exec.lean ====
section
/-! SUPPORT. What each command answers outside the fault state, in the named operations of its family: proofs about
commands cite these and never unfold `exec` or `runCommand`. -/

namespace Sys2Proof.Machine

variable {s : State}

theorem exec_sysNop (h : s.faulted = false) : exec .sysNop s = .next s := by
  simp only [exec, execSysNop, runCommand, h]; rfl

theorem exec_sysSreset (s : State) : exec .sysSreset s = .next (softReset s) := rfl

theorem exec_twRd (h : s.faulted = false) (k n : Nat) :
    exec (.twRd k n) s =
      if legalIndex k && legalIndex n then
        .next (setResult (BitVec.ofInt 32 (twiddle (toIndex k) (toIndex n))) s)
      else .next (raiseFault .invalidIndex (encode (.twRd k n)) s) := by
  simp only [exec, execTwRd, runCommand, h]
  cases legalIndex k && legalIndex n <;> rfl

theorem exec_twBasis (h : s.faulted = false) (u v x y : Nat) :
    exec (.twBasis u v x y) s =
      if legalIndex u && legalIndex v && legalIndex x && legalIndex y then
        .next (setResult (BitVec.ofInt 32 (basis (toIndex u) (toIndex v) (toIndex x) (toIndex y))) s)
      else .next (raiseFault .invalidIndex (encode (.twBasis u v x y)) s) := by
  simp only [exec, execTwBasis, runCommand, h]
  cases legalIndex u && legalIndex v && legalIndex x && legalIndex y <;> rfl

theorem exec_fdRun (h : s.faulted = false) : exec .fdRun s = .next (transformForward s) := by
  simp only [exec, execFdRun, runCommand, h]; rfl

theorem exec_idRun (h : s.faulted = false) : exec .idRun s = .next (transformInverse s) := by
  simp only [exec, execIdRun, runCommand, h]; rfl

theorem exec_qsDiv (h : s.faulted = false) (cls : ChannelClass) (u v : Nat) :
    exec (.qsDiv cls u v) s =
      if legalIndex u && legalIndex v then
        .next (setResult (BitVec.ofNat 32 (divisor s cls (toIndex u) (toIndex v))) s)
      else .next (raiseFault .invalidIndex (encode (.qsDiv cls u v)) s) := by
  simp only [exec, execQsDiv, runCommand, h]
  cases legalIndex u && legalIndex v <;> rfl

theorem exec_qsBuild (h : s.faulted = false) (cls : ChannelClass) :
    exec (.qsBuild cls) s = .next (buildDivisors cls s) := by
  simp only [exec, execQsBuild, runCommand, h]; rfl

theorem exec_zzFwd (h : s.faulted = false) (u v : Nat) :
    exec (.zzFwd u v) s = .next (setResult (BitVec.ofNat 32 (zigzag (toIndex u) (toIndex v)).val) s) := by
  simp only [exec, execZzFwd, runCommand, h]; rfl

theorem exec_zzInv (h : s.faulted = false) (pos : Nat) :
    exec (.zzInv pos) s = .next (setResult (BitVec.ofNat 32 (unzigzag (Fin.ofNat 64 pos)).val) s) := by
  simp only [exec, execZzInv, runCommand, h]; rfl

theorem exec_zzScan (h : s.faulted = false) : exec .zzScan s = .next (scanBlock s) := by
  simp only [exec, execZzScan, runCommand, h]; rfl

theorem exec_zzUnscan (h : s.faulted = false) : exec .zzUnscan s = .next (unscanBlock s) := by
  simp only [exec, execZzUnscan, runCommand, h]; rfl

theorem exec_bcQuant (h : s.faulted = false) : exec .bcQuant s = .next (quantise s) := by
  simp only [exec, execBcQuant, runCommand, h]; rfl

theorem exec_bcDeq (h : s.faulted = false) : exec .bcDeq s = .next (dequantise s) := by
  simp only [exec, execBcDeq, runCommand, h]; rfl

theorem exec_bcClamp (h : s.faulted = false) : exec .bcClamp s = .next (clampSamples s) := by
  simp only [exec, execBcClamp, runCommand, h]; rfl

theorem exec_bcFwd (h : s.faulted = false) (cls : ChannelClass) : exec (.bcFwd cls) s = .next (bcForward cls s) := by
  simp only [exec, execBcFwd, runCommand, h]; rfl

theorem exec_bcInv (h : s.faulted = false) (cls : ChannelClass) :
    exec (.bcInv cls) s =
      if s.accnt.toNat = 63 then .next (clearAccnt (bcInverse cls (loadScan s)))
      else .next (raiseFault .malformedStream (encode (.bcInv cls)) s) := by
  simp only [exec, execBcInv, runCommand, h]
  by_cases ha : s.accnt.toNat = 63 <;> simp [ha]

theorem exec_bcAcclr (h : s.faulted = false) : exec .bcAcclr s = .next (clearAccnt s) := by
  simp only [exec, execBcAcclr, runCommand, h]; rfl

theorem exec_itEncode (h : s.faulted = false) :
    exec .itEncode s =
      if dimsOk s then .next (setLengths (runPass encodeBlock (zeroCursors s)))
      else .next (raiseFault .invalidDimensions (encode .itEncode) s) := by
  simp only [exec, execItEncode, runCommand, h]
  cases dimsOk s <;> rfl

theorem exec_itDecode (h : s.faulted = false) :
    exec .itDecode s =
      if dimsOk s then
        if lengthsOk s then .next (runPass decodeBlock (zeroCursors s))
        else .next (raiseFault .malformedStream (encode .itDecode) s)
      else .next (raiseFault .invalidDimensions (encode .itDecode) s) := by
  simp only [exec, execItDecode, runCommand, h]
  cases dimsOk s <;> cases lengthsOk s <;> rfl

end Sys2Proof.Machine
end

