-- ==== Sys2Proof/Laws/Passes.lean ====
section
/-! SUPPORT. The whole-block sequences and the image passes: which fields each leaves alone, and how a property that
every block keeps is kept by a pass. -/

namespace Sys2Proof.Machine

/-- What every step of a fold keeps, the fold keeps. -/
theorem foldl_keep {α β : Type} (p : State → α) {f : State → β → State} (hf : ∀ t b, p (f t b) = p t) (l : List β)
    (s : State) : p (l.foldl f s) = p s := by
  induction l generalizing s with
  | nil => rfl
  | cons b l ih => rw [List.foldl_cons, ih, hf]

/-- What every block keeps, the pass keeps. -/
theorem runPass_keep {α : Type} (p : State → α) {f : Nat → Nat → Fin 3 → State → State}
    (hf : ∀ br bc k t, p (f br bc k t) = p t) (s : State) : p (runPass f s) = p s :=
  foldl_keep (f := fun t (b : Nat × Nat × Fin 3) => f b.1 b.2.1 b.2.2 t) p (fun t b => hf b.1 b.2.1 b.2.2 t) _ s

/-- Two nested loops as one, counted through. -/
theorem flatMap_range {α : Type} (f : Nat → Nat → α) (a b : Nat) :
    ((List.range a).flatMap fun i => (List.range b).map (f i)) =
      (List.range (a * b)).map fun n => f (n / b) (n % b) := by
  induction a with
  | zero => simp
  | succ a ih =>
    rw [List.range_succ, List.flatMap_append, ih, Nat.succ_mul, List.range_add, List.map_append, List.map_map]
    congr 1
    simp only [List.flatMap_cons, List.flatMap_nil, List.append_nil]
    refine List.map_congr_left fun j hj => ?_
    have hj : j < b := List.mem_range.1 hj
    simp only [Function.comp]
    rw [Nat.mul_comm a b, Nat.mul_add_div (by omega), Nat.mul_add_mod, Nat.div_eq_of_lt hj, Nat.mod_eq_of_lt hj,
      Nat.add_zero]

/-- The order of a pass, counted through (R131). -/
theorem passOrder_eq (nbr nbc : Nat) : passOrder nbr nbc =
    (List.range (nbr * nbc * 3)).map fun n => (n / 3 / nbc, n / 3 % nbc, Fin.ofNat 3 n) := by
  have h3 : (List.finRange 3) = (List.range 3).map (Fin.ofNat 3) := by decide
  have hinner : ∀ br : Nat, ((List.range nbc).flatMap fun bc => (List.finRange 3).map fun k => (br, bc, k)) =
      (List.range (nbc * 3)).map fun m => (br, m / 3, Fin.ofNat 3 (m % 3)) := fun br => by
    rw [← flatMap_range fun bc k => (br, bc, Fin.ofNat 3 k)]
    simp only [h3, List.map_map]
    rfl
  rw [passOrder]
  simp only [hinner]
  rw [flatMap_range fun br m => (br, m / 3, Fin.ofNat 3 (m % 3)), Nat.mul_assoc]
  refine List.map_congr_left fun n _ => ?_
  have h1 : n / (nbc * 3) = n / 3 / nbc := by rw [Nat.div_div_eq_div_mul, Nat.mul_comm]
  have h2 : n % (nbc * 3) / 3 = n / 3 % nbc := by rw [Nat.mul_comm, Nat.mod_mul_right_div_self]
  have h3 : Fin.ofNat 3 (n % (nbc * 3) % 3) = Fin.ofNat 3 n := by
    ext
    simp only [Fin.ofNat, Nat.mod_mod]
    exact Nat.mod_mul_left_mod ..
  rw [h1, h2, h3]

/-- Induction along a pass: what holds before it and is handed on from block to block holds after it. -/
theorem runPass_induction {f : Nat → Nat → Fin 3 → State → State} {s : State} (p : Nat → State → Prop) (h0 : p 0 s)
    (hf : ∀ n t, n < s.blockCount * 3 → p n t →
      p (n + 1) (f (n / 3 / s.blockCols) (n / 3 % s.blockCols) (Fin.ofNat 3 n) t)) :
    p (s.blockCount * 3) (runPass f s) := by
  have key : ∀ m, m ≤ s.blockCount * 3 →
      p m (((List.range m).map fun n => (n / 3 / s.blockCols, n / 3 % s.blockCols, Fin.ofNat 3 n)).foldl
        (fun t b => f b.1 b.2.1 b.2.2 t) s) := by
    intro m
    induction m with
    | zero => exact fun _ => h0
    | succ m ih =>
      intro hm
      rw [List.range_succ, List.map_append, List.foldl_append]
      exact hf m _ (by omega) (ih (by omega))
  rw [runPass, passOrder_eq]
  exact key _ (Nat.le_refl _)

variable (s : State)

/-! ### bcForward -/

@[simp] theorem bcForward_status (cls : ChannelClass) : (bcForward cls s).status = s.status := by simp [bcForward]
@[simp] theorem bcForward_errinfo (cls : ChannelClass) : (bcForward cls s).errinfo = s.errinfo := by simp [bcForward]
@[simp] theorem bcForward_result (cls : ChannelClass) : (bcForward cls s).result = s.result := by simp [bcForward]
@[simp] theorem bcForward_cf (cls : ChannelClass) : (bcForward cls s).cf = s.cf := by simp [bcForward]
@[simp] theorem bcForward_rows (cls : ChannelClass) : (bcForward cls s).rows = s.rows := by simp [bcForward]
@[simp] theorem bcForward_cols (cls : ChannelClass) : (bcForward cls s).cols = s.cols := by simp [bcForward]
@[simp] theorem bcForward_dcin (cls : ChannelClass) : (bcForward cls s).dcin = s.dcin := by simp [bcForward]
@[simp] theorem bcForward_accnt (cls : ChannelClass) : (bcForward cls s).accnt = s.accnt := by simp [bcForward]
@[simp] theorem bcForward_dcidx (cls : ChannelClass) : (bcForward cls s).dcidx = s.dcidx := by simp [bcForward]
@[simp] theorem bcForward_acidx (cls : ChannelClass) : (bcForward cls s).acidx = s.acidx := by simp [bcForward]
@[simp] theorem bcForward_dclen (cls : ChannelClass) : (bcForward cls s).dclen = s.dclen := by simp [bcForward]
@[simp] theorem bcForward_aclen (cls : ChannelClass) : (bcForward cls s).aclen = s.aclen := by simp [bcForward]
@[simp] theorem bcForward_pixi (cls : ChannelClass) : (bcForward cls s).pixi = s.pixi := by simp [bcForward]
@[simp] theorem bcForward_acin (cls : ChannelClass) : (bcForward cls s).acin = s.acin := by simp [bcForward]
@[simp] theorem bcForward_icoef (cls : ChannelClass) : (bcForward cls s).icoef = s.icoef := by simp [bcForward]
@[simp] theorem bcForward_samp (cls : ChannelClass) : (bcForward cls s).samp = s.samp := by simp [bcForward]
@[simp] theorem bcForward_pixo (cls : ChannelClass) : (bcForward cls s).pixo = s.pixo := by simp [bcForward]
@[simp] theorem bcForward_qbaseLuma (cls : ChannelClass) : (bcForward cls s).qbaseLuma = s.qbaseLuma := by simp [bcForward]
@[simp] theorem bcForward_qbaseChroma (cls : ChannelClass) : (bcForward cls s).qbaseChroma = s.qbaseChroma := by simp [bcForward]
@[simp] theorem bcForward_imgi (cls : ChannelClass) : (bcForward cls s).imgi = s.imgi := by simp [bcForward]
@[simp] theorem bcForward_imgo (cls : ChannelClass) : (bcForward cls s).imgo = s.imgo := by simp [bcForward]
@[simp] theorem bcForward_dcs (cls : ChannelClass) : (bcForward cls s).dcs = s.dcs := by simp [bcForward]
@[simp] theorem bcForward_acs (cls : ChannelClass) : (bcForward cls s).acs = s.acs := by simp [bcForward]
@[simp] theorem bcForward_epoch (cls : ChannelClass) : (bcForward cls s).epoch = s.epoch := by simp [bcForward]
@[simp] theorem bcForward_inbox (cls : ChannelClass) : (bcForward cls s).inbox = s.inbox := by simp [bcForward]
@[simp] theorem bcForward_outputs (cls : ChannelClass) : (bcForward cls s).outputs = s.outputs := by simp [bcForward]
@[simp] theorem bcForward_faulted (cls : ChannelClass) : (bcForward cls s).faulted = s.faulted := by simp [bcForward]
@[simp] theorem bcForward_qbase (cls : ChannelClass) (c : ChannelClass) : (bcForward cls s).qbase c = s.qbase c := by cases c <;> simp [State.qbase]
@[simp] theorem bcForward_readImgi (cls : ChannelClass) (j : Nat) : (bcForward cls s).readImgi j = s.readImgi j := by simp [State.readImgi]
@[simp] theorem bcForward_readImgo (cls : ChannelClass) (j : Nat) : (bcForward cls s).readImgo j = s.readImgo j := by simp [State.readImgo]
@[simp] theorem bcForward_readDcs (cls : ChannelClass) (l : Fin 3) (j : Nat) : (bcForward cls s).readDcs l j = s.readDcs l j := by simp [State.readDcs]
@[simp] theorem bcForward_readAcs (cls : ChannelClass) (l : Fin 3) (j : Nat) : (bcForward cls s).readAcs l j = s.readAcs l j := by simp [State.readAcs]

/-! ### bcInverse -/

@[simp] theorem bcInverse_status (cls : ChannelClass) : (bcInverse cls s).status = s.status := by simp [bcInverse]
@[simp] theorem bcInverse_errinfo (cls : ChannelClass) : (bcInverse cls s).errinfo = s.errinfo := by simp [bcInverse]
@[simp] theorem bcInverse_result (cls : ChannelClass) : (bcInverse cls s).result = s.result := by simp [bcInverse]
@[simp] theorem bcInverse_cf (cls : ChannelClass) : (bcInverse cls s).cf = s.cf := by simp [bcInverse]
@[simp] theorem bcInverse_rows (cls : ChannelClass) : (bcInverse cls s).rows = s.rows := by simp [bcInverse]
@[simp] theorem bcInverse_cols (cls : ChannelClass) : (bcInverse cls s).cols = s.cols := by simp [bcInverse]
@[simp] theorem bcInverse_dcin (cls : ChannelClass) : (bcInverse cls s).dcin = s.dcin := by simp [bcInverse]
@[simp] theorem bcInverse_dcout (cls : ChannelClass) : (bcInverse cls s).dcout = s.dcout := by simp [bcInverse]
@[simp] theorem bcInverse_accnt (cls : ChannelClass) : (bcInverse cls s).accnt = s.accnt := by simp [bcInverse]
@[simp] theorem bcInverse_dcidx (cls : ChannelClass) : (bcInverse cls s).dcidx = s.dcidx := by simp [bcInverse]
@[simp] theorem bcInverse_acidx (cls : ChannelClass) : (bcInverse cls s).acidx = s.acidx := by simp [bcInverse]
@[simp] theorem bcInverse_dclen (cls : ChannelClass) : (bcInverse cls s).dclen = s.dclen := by simp [bcInverse]
@[simp] theorem bcInverse_aclen (cls : ChannelClass) : (bcInverse cls s).aclen = s.aclen := by simp [bcInverse]
@[simp] theorem bcInverse_pixi (cls : ChannelClass) : (bcInverse cls s).pixi = s.pixi := by simp [bcInverse]
@[simp] theorem bcInverse_fcoef (cls : ChannelClass) : (bcInverse cls s).fcoef = s.fcoef := by simp [bcInverse]
@[simp] theorem bcInverse_scan (cls : ChannelClass) : (bcInverse cls s).scan = s.scan := by simp [bcInverse]
@[simp] theorem bcInverse_acin (cls : ChannelClass) : (bcInverse cls s).acin = s.acin := by simp [bcInverse]
@[simp] theorem bcInverse_qbaseLuma (cls : ChannelClass) : (bcInverse cls s).qbaseLuma = s.qbaseLuma := by simp [bcInverse]
@[simp] theorem bcInverse_qbaseChroma (cls : ChannelClass) : (bcInverse cls s).qbaseChroma = s.qbaseChroma := by simp [bcInverse]
@[simp] theorem bcInverse_imgi (cls : ChannelClass) : (bcInverse cls s).imgi = s.imgi := by simp [bcInverse]
@[simp] theorem bcInverse_imgo (cls : ChannelClass) : (bcInverse cls s).imgo = s.imgo := by simp [bcInverse]
@[simp] theorem bcInverse_dcs (cls : ChannelClass) : (bcInverse cls s).dcs = s.dcs := by simp [bcInverse]
@[simp] theorem bcInverse_acs (cls : ChannelClass) : (bcInverse cls s).acs = s.acs := by simp [bcInverse]
@[simp] theorem bcInverse_epoch (cls : ChannelClass) : (bcInverse cls s).epoch = s.epoch := by simp [bcInverse]
@[simp] theorem bcInverse_inbox (cls : ChannelClass) : (bcInverse cls s).inbox = s.inbox := by simp [bcInverse]
@[simp] theorem bcInverse_outputs (cls : ChannelClass) : (bcInverse cls s).outputs = s.outputs := by simp [bcInverse]
@[simp] theorem bcInverse_faulted (cls : ChannelClass) : (bcInverse cls s).faulted = s.faulted := by simp [bcInverse]
@[simp] theorem bcInverse_qbase (cls : ChannelClass) (c : ChannelClass) : (bcInverse cls s).qbase c = s.qbase c := by cases c <;> simp [State.qbase]
@[simp] theorem bcInverse_readImgi (cls : ChannelClass) (j : Nat) : (bcInverse cls s).readImgi j = s.readImgi j := by simp [State.readImgi]
@[simp] theorem bcInverse_readImgo (cls : ChannelClass) (j : Nat) : (bcInverse cls s).readImgo j = s.readImgo j := by simp [State.readImgo]
@[simp] theorem bcInverse_readDcs (cls : ChannelClass) (l : Fin 3) (j : Nat) : (bcInverse cls s).readDcs l j = s.readDcs l j := by simp [State.readDcs]
@[simp] theorem bcInverse_readAcs (cls : ChannelClass) (l : Fin 3) (j : Nat) : (bcInverse cls s).readAcs l j = s.readAcs l j := by simp [State.readAcs]

/-! ### appendStreams -/

@[simp] theorem appendStreams_status (k : Fin 3) : (appendStreams k s).status = s.status := by
 rw [appendStreams, foldl_keep State.status fun t i => by simp]; simp
@[simp] theorem appendStreams_errinfo (k : Fin 3) : (appendStreams k s).errinfo = s.errinfo := by
 rw [appendStreams, foldl_keep State.errinfo fun t i => by simp]; simp
@[simp] theorem appendStreams_result (k : Fin 3) : (appendStreams k s).result = s.result := by
 rw [appendStreams, foldl_keep State.result fun t i => by simp]; simp
@[simp] theorem appendStreams_cf (k : Fin 3) : (appendStreams k s).cf = s.cf := by
 rw [appendStreams, foldl_keep State.cf fun t i => by simp]; simp
@[simp] theorem appendStreams_rows (k : Fin 3) : (appendStreams k s).rows = s.rows := by
 rw [appendStreams, foldl_keep State.rows fun t i => by simp]; simp
@[simp] theorem appendStreams_cols (k : Fin 3) : (appendStreams k s).cols = s.cols := by
 rw [appendStreams, foldl_keep State.cols fun t i => by simp]; simp
@[simp] theorem appendStreams_dcin (k : Fin 3) : (appendStreams k s).dcin = s.dcin := by
 rw [appendStreams, foldl_keep State.dcin fun t i => by simp]; simp
@[simp] theorem appendStreams_dcout (k : Fin 3) : (appendStreams k s).dcout = s.dcout := by
 rw [appendStreams, foldl_keep State.dcout fun t i => by simp]; simp
@[simp] theorem appendStreams_accnt (k : Fin 3) : (appendStreams k s).accnt = s.accnt := by
 rw [appendStreams, foldl_keep State.accnt fun t i => by simp]; simp
@[simp] theorem appendStreams_dcidx (k : Fin 3) : (appendStreams k s).dcidx = s.dcidx := by
 rw [appendStreams, foldl_keep State.dcidx fun t i => by simp]; simp
@[simp] theorem appendStreams_acidx (k : Fin 3) : (appendStreams k s).acidx = s.acidx := by
 rw [appendStreams, foldl_keep State.acidx fun t i => by simp]; simp
@[simp] theorem appendStreams_dclen (k : Fin 3) : (appendStreams k s).dclen = s.dclen := by
 rw [appendStreams, foldl_keep State.dclen fun t i => by simp]; simp
@[simp] theorem appendStreams_aclen (k : Fin 3) : (appendStreams k s).aclen = s.aclen := by
 rw [appendStreams, foldl_keep State.aclen fun t i => by simp]; simp
@[simp] theorem appendStreams_pixi (k : Fin 3) : (appendStreams k s).pixi = s.pixi := by
 rw [appendStreams, foldl_keep State.pixi fun t i => by simp]; simp
@[simp] theorem appendStreams_fcoef (k : Fin 3) : (appendStreams k s).fcoef = s.fcoef := by
 rw [appendStreams, foldl_keep State.fcoef fun t i => by simp]; simp
@[simp] theorem appendStreams_div (k : Fin 3) : (appendStreams k s).div = s.div := by
 rw [appendStreams, foldl_keep State.div fun t i => by simp]; simp
@[simp] theorem appendStreams_qco (k : Fin 3) : (appendStreams k s).qco = s.qco := by
 rw [appendStreams, foldl_keep State.qco fun t i => by simp]; simp
@[simp] theorem appendStreams_scan (k : Fin 3) : (appendStreams k s).scan = s.scan := by
 rw [appendStreams, foldl_keep State.scan fun t i => by simp]; simp
@[simp] theorem appendStreams_acin (k : Fin 3) : (appendStreams k s).acin = s.acin := by
 rw [appendStreams, foldl_keep State.acin fun t i => by simp]; simp
@[simp] theorem appendStreams_icoef (k : Fin 3) : (appendStreams k s).icoef = s.icoef := by
 rw [appendStreams, foldl_keep State.icoef fun t i => by simp]; simp
@[simp] theorem appendStreams_samp (k : Fin 3) : (appendStreams k s).samp = s.samp := by
 rw [appendStreams, foldl_keep State.samp fun t i => by simp]; simp
@[simp] theorem appendStreams_pixo (k : Fin 3) : (appendStreams k s).pixo = s.pixo := by
 rw [appendStreams, foldl_keep State.pixo fun t i => by simp]; simp
@[simp] theorem appendStreams_qbaseLuma (k : Fin 3) : (appendStreams k s).qbaseLuma = s.qbaseLuma := by
 rw [appendStreams, foldl_keep State.qbaseLuma fun t i => by simp]; simp
@[simp] theorem appendStreams_qbaseChroma (k : Fin 3) : (appendStreams k s).qbaseChroma = s.qbaseChroma := by
 rw [appendStreams, foldl_keep State.qbaseChroma fun t i => by simp]; simp
@[simp] theorem appendStreams_imgi (k : Fin 3) : (appendStreams k s).imgi = s.imgi := by
 rw [appendStreams, foldl_keep State.imgi fun t i => by simp]; simp
@[simp] theorem appendStreams_imgo (k : Fin 3) : (appendStreams k s).imgo = s.imgo := by
 rw [appendStreams, foldl_keep State.imgo fun t i => by simp]; simp
@[simp] theorem appendStreams_epoch (k : Fin 3) : (appendStreams k s).epoch = s.epoch := by
 rw [appendStreams, foldl_keep State.epoch fun t i => by simp]; simp
@[simp] theorem appendStreams_inbox (k : Fin 3) : (appendStreams k s).inbox = s.inbox := by
 rw [appendStreams, foldl_keep State.inbox fun t i => by simp]; simp
@[simp] theorem appendStreams_outputs (k : Fin 3) : (appendStreams k s).outputs = s.outputs := by
 rw [appendStreams, foldl_keep State.outputs fun t i => by simp]; simp
@[simp] theorem appendStreams_faulted (k : Fin 3) : (appendStreams k s).faulted = s.faulted := by
 rw [appendStreams, foldl_keep State.faulted fun t i => by simp]; simp
@[simp] theorem appendStreams_qbase (k : Fin 3) (c : ChannelClass) : (appendStreams k s).qbase c = s.qbase c := by cases c <;> simp [State.qbase]
@[simp] theorem appendStreams_readImgi (k : Fin 3) (j : Nat) : (appendStreams k s).readImgi j = s.readImgi j := by simp [State.readImgi]
@[simp] theorem appendStreams_readImgo (k : Fin 3) (j : Nat) : (appendStreams k s).readImgo j = s.readImgo j := by simp [State.readImgo]

/-! ### storePixels -/

@[simp] theorem storePixels_status (br bc : Nat) (k : Fin 3) : (storePixels br bc k s).status = s.status := by
 rw [storePixels, foldl_keep State.status fun t i => by simp]
@[simp] theorem storePixels_errinfo (br bc : Nat) (k : Fin 3) : (storePixels br bc k s).errinfo = s.errinfo := by
 rw [storePixels, foldl_keep State.errinfo fun t i => by simp]
@[simp] theorem storePixels_result (br bc : Nat) (k : Fin 3) : (storePixels br bc k s).result = s.result := by
 rw [storePixels, foldl_keep State.result fun t i => by simp]
@[simp] theorem storePixels_cf (br bc : Nat) (k : Fin 3) : (storePixels br bc k s).cf = s.cf := by
 rw [storePixels, foldl_keep State.cf fun t i => by simp]
@[simp] theorem storePixels_rows (br bc : Nat) (k : Fin 3) : (storePixels br bc k s).rows = s.rows := by
 rw [storePixels, foldl_keep State.rows fun t i => by simp]
@[simp] theorem storePixels_cols (br bc : Nat) (k : Fin 3) : (storePixels br bc k s).cols = s.cols := by
 rw [storePixels, foldl_keep State.cols fun t i => by simp]
@[simp] theorem storePixels_dcin (br bc : Nat) (k : Fin 3) : (storePixels br bc k s).dcin = s.dcin := by
 rw [storePixels, foldl_keep State.dcin fun t i => by simp]
@[simp] theorem storePixels_dcout (br bc : Nat) (k : Fin 3) : (storePixels br bc k s).dcout = s.dcout := by
 rw [storePixels, foldl_keep State.dcout fun t i => by simp]
@[simp] theorem storePixels_accnt (br bc : Nat) (k : Fin 3) : (storePixels br bc k s).accnt = s.accnt := by
 rw [storePixels, foldl_keep State.accnt fun t i => by simp]
@[simp] theorem storePixels_dcidx (br bc : Nat) (k : Fin 3) : (storePixels br bc k s).dcidx = s.dcidx := by
 rw [storePixels, foldl_keep State.dcidx fun t i => by simp]
@[simp] theorem storePixels_acidx (br bc : Nat) (k : Fin 3) : (storePixels br bc k s).acidx = s.acidx := by
 rw [storePixels, foldl_keep State.acidx fun t i => by simp]
@[simp] theorem storePixels_dclen (br bc : Nat) (k : Fin 3) : (storePixels br bc k s).dclen = s.dclen := by
 rw [storePixels, foldl_keep State.dclen fun t i => by simp]
@[simp] theorem storePixels_aclen (br bc : Nat) (k : Fin 3) : (storePixels br bc k s).aclen = s.aclen := by
 rw [storePixels, foldl_keep State.aclen fun t i => by simp]
@[simp] theorem storePixels_pixi (br bc : Nat) (k : Fin 3) : (storePixels br bc k s).pixi = s.pixi := by
 rw [storePixels, foldl_keep State.pixi fun t i => by simp]
@[simp] theorem storePixels_fcoef (br bc : Nat) (k : Fin 3) : (storePixels br bc k s).fcoef = s.fcoef := by
 rw [storePixels, foldl_keep State.fcoef fun t i => by simp]
@[simp] theorem storePixels_div (br bc : Nat) (k : Fin 3) : (storePixels br bc k s).div = s.div := by
 rw [storePixels, foldl_keep State.div fun t i => by simp]
@[simp] theorem storePixels_qco (br bc : Nat) (k : Fin 3) : (storePixels br bc k s).qco = s.qco := by
 rw [storePixels, foldl_keep State.qco fun t i => by simp]
@[simp] theorem storePixels_scan (br bc : Nat) (k : Fin 3) : (storePixels br bc k s).scan = s.scan := by
 rw [storePixels, foldl_keep State.scan fun t i => by simp]
@[simp] theorem storePixels_acin (br bc : Nat) (k : Fin 3) : (storePixels br bc k s).acin = s.acin := by
 rw [storePixels, foldl_keep State.acin fun t i => by simp]
@[simp] theorem storePixels_icoef (br bc : Nat) (k : Fin 3) : (storePixels br bc k s).icoef = s.icoef := by
 rw [storePixels, foldl_keep State.icoef fun t i => by simp]
@[simp] theorem storePixels_samp (br bc : Nat) (k : Fin 3) : (storePixels br bc k s).samp = s.samp := by
 rw [storePixels, foldl_keep State.samp fun t i => by simp]
@[simp] theorem storePixels_pixo (br bc : Nat) (k : Fin 3) : (storePixels br bc k s).pixo = s.pixo := by
 rw [storePixels, foldl_keep State.pixo fun t i => by simp]
@[simp] theorem storePixels_qbaseLuma (br bc : Nat) (k : Fin 3) : (storePixels br bc k s).qbaseLuma = s.qbaseLuma := by
 rw [storePixels, foldl_keep State.qbaseLuma fun t i => by simp]
@[simp] theorem storePixels_qbaseChroma (br bc : Nat) (k : Fin 3) : (storePixels br bc k s).qbaseChroma = s.qbaseChroma := by
 rw [storePixels, foldl_keep State.qbaseChroma fun t i => by simp]
@[simp] theorem storePixels_imgi (br bc : Nat) (k : Fin 3) : (storePixels br bc k s).imgi = s.imgi := by
 rw [storePixels, foldl_keep State.imgi fun t i => by simp]
@[simp] theorem storePixels_dcs (br bc : Nat) (k : Fin 3) : (storePixels br bc k s).dcs = s.dcs := by
 rw [storePixels, foldl_keep State.dcs fun t i => by simp]
@[simp] theorem storePixels_acs (br bc : Nat) (k : Fin 3) : (storePixels br bc k s).acs = s.acs := by
 rw [storePixels, foldl_keep State.acs fun t i => by simp]
@[simp] theorem storePixels_epoch (br bc : Nat) (k : Fin 3) : (storePixels br bc k s).epoch = s.epoch := by
 rw [storePixels, foldl_keep State.epoch fun t i => by simp]
@[simp] theorem storePixels_inbox (br bc : Nat) (k : Fin 3) : (storePixels br bc k s).inbox = s.inbox := by
 rw [storePixels, foldl_keep State.inbox fun t i => by simp]
@[simp] theorem storePixels_outputs (br bc : Nat) (k : Fin 3) : (storePixels br bc k s).outputs = s.outputs := by
 rw [storePixels, foldl_keep State.outputs fun t i => by simp]
@[simp] theorem storePixels_faulted (br bc : Nat) (k : Fin 3) : (storePixels br bc k s).faulted = s.faulted := by
 rw [storePixels, foldl_keep State.faulted fun t i => by simp]
@[simp] theorem storePixels_qbase (br bc : Nat) (k : Fin 3) (c : ChannelClass) : (storePixels br bc k s).qbase c = s.qbase c := by cases c <;> simp [State.qbase]
@[simp] theorem storePixels_readImgi (br bc : Nat) (k : Fin 3) (j : Nat) : (storePixels br bc k s).readImgi j = s.readImgi j := by simp [State.readImgi]
@[simp] theorem storePixels_readDcs (br bc : Nat) (k : Fin 3) (l : Fin 3) (j : Nat) : (storePixels br bc k s).readDcs l j = s.readDcs l j := by simp [State.readDcs]
@[simp] theorem storePixels_readAcs (br bc : Nat) (k : Fin 3) (l : Fin 3) (j : Nat) : (storePixels br bc k s).readAcs l j = s.readAcs l j := by simp [State.readAcs]

/-! ### encodeBlock -/

@[simp] theorem encodeBlock_status (br bc : Nat) (k : Fin 3) : (encodeBlock br bc k s).status = s.status := by simp [encodeBlock]
@[simp] theorem encodeBlock_errinfo (br bc : Nat) (k : Fin 3) : (encodeBlock br bc k s).errinfo = s.errinfo := by simp [encodeBlock]
@[simp] theorem encodeBlock_result (br bc : Nat) (k : Fin 3) : (encodeBlock br bc k s).result = s.result := by simp [encodeBlock]
@[simp] theorem encodeBlock_cf (br bc : Nat) (k : Fin 3) : (encodeBlock br bc k s).cf = s.cf := by simp [encodeBlock]
@[simp] theorem encodeBlock_rows (br bc : Nat) (k : Fin 3) : (encodeBlock br bc k s).rows = s.rows := by simp [encodeBlock]
@[simp] theorem encodeBlock_cols (br bc : Nat) (k : Fin 3) : (encodeBlock br bc k s).cols = s.cols := by simp [encodeBlock]
@[simp] theorem encodeBlock_dcin (br bc : Nat) (k : Fin 3) : (encodeBlock br bc k s).dcin = s.dcin := by simp [encodeBlock]
@[simp] theorem encodeBlock_accnt (br bc : Nat) (k : Fin 3) : (encodeBlock br bc k s).accnt = s.accnt := by simp [encodeBlock]
@[simp] theorem encodeBlock_dclen (br bc : Nat) (k : Fin 3) : (encodeBlock br bc k s).dclen = s.dclen := by simp [encodeBlock]
@[simp] theorem encodeBlock_aclen (br bc : Nat) (k : Fin 3) : (encodeBlock br bc k s).aclen = s.aclen := by simp [encodeBlock]
@[simp] theorem encodeBlock_acin (br bc : Nat) (k : Fin 3) : (encodeBlock br bc k s).acin = s.acin := by simp [encodeBlock]
@[simp] theorem encodeBlock_icoef (br bc : Nat) (k : Fin 3) : (encodeBlock br bc k s).icoef = s.icoef := by simp [encodeBlock]
@[simp] theorem encodeBlock_samp (br bc : Nat) (k : Fin 3) : (encodeBlock br bc k s).samp = s.samp := by simp [encodeBlock]
@[simp] theorem encodeBlock_pixo (br bc : Nat) (k : Fin 3) : (encodeBlock br bc k s).pixo = s.pixo := by simp [encodeBlock]
@[simp] theorem encodeBlock_qbaseLuma (br bc : Nat) (k : Fin 3) : (encodeBlock br bc k s).qbaseLuma = s.qbaseLuma := by simp [encodeBlock]
@[simp] theorem encodeBlock_qbaseChroma (br bc : Nat) (k : Fin 3) : (encodeBlock br bc k s).qbaseChroma = s.qbaseChroma := by simp [encodeBlock]
@[simp] theorem encodeBlock_imgi (br bc : Nat) (k : Fin 3) : (encodeBlock br bc k s).imgi = s.imgi := by simp [encodeBlock]
@[simp] theorem encodeBlock_imgo (br bc : Nat) (k : Fin 3) : (encodeBlock br bc k s).imgo = s.imgo := by simp [encodeBlock]
@[simp] theorem encodeBlock_epoch (br bc : Nat) (k : Fin 3) : (encodeBlock br bc k s).epoch = s.epoch := by simp [encodeBlock]
@[simp] theorem encodeBlock_inbox (br bc : Nat) (k : Fin 3) : (encodeBlock br bc k s).inbox = s.inbox := by simp [encodeBlock]
@[simp] theorem encodeBlock_outputs (br bc : Nat) (k : Fin 3) : (encodeBlock br bc k s).outputs = s.outputs := by simp [encodeBlock]
@[simp] theorem encodeBlock_faulted (br bc : Nat) (k : Fin 3) : (encodeBlock br bc k s).faulted = s.faulted := by simp [encodeBlock]
@[simp] theorem encodeBlock_qbase (br bc : Nat) (k : Fin 3) (c : ChannelClass) : (encodeBlock br bc k s).qbase c = s.qbase c := by cases c <;> simp [State.qbase]
@[simp] theorem encodeBlock_readImgi (br bc : Nat) (k : Fin 3) (j : Nat) : (encodeBlock br bc k s).readImgi j = s.readImgi j := by simp [State.readImgi]
@[simp] theorem encodeBlock_readImgo (br bc : Nat) (k : Fin 3) (j : Nat) : (encodeBlock br bc k s).readImgo j = s.readImgo j := by simp [State.readImgo]

/-! ### decodeBlock -/

@[simp] theorem decodeBlock_status (br bc : Nat) (k : Fin 3) : (decodeBlock br bc k s).status = s.status := by simp [decodeBlock]
@[simp] theorem decodeBlock_errinfo (br bc : Nat) (k : Fin 3) : (decodeBlock br bc k s).errinfo = s.errinfo := by simp [decodeBlock]
@[simp] theorem decodeBlock_result (br bc : Nat) (k : Fin 3) : (decodeBlock br bc k s).result = s.result := by simp [decodeBlock]
@[simp] theorem decodeBlock_cf (br bc : Nat) (k : Fin 3) : (decodeBlock br bc k s).cf = s.cf := by simp [decodeBlock]
@[simp] theorem decodeBlock_rows (br bc : Nat) (k : Fin 3) : (decodeBlock br bc k s).rows = s.rows := by simp [decodeBlock]
@[simp] theorem decodeBlock_cols (br bc : Nat) (k : Fin 3) : (decodeBlock br bc k s).cols = s.cols := by simp [decodeBlock]
@[simp] theorem decodeBlock_dcin (br bc : Nat) (k : Fin 3) : (decodeBlock br bc k s).dcin = s.dcin := by simp [decodeBlock]
@[simp] theorem decodeBlock_dcout (br bc : Nat) (k : Fin 3) : (decodeBlock br bc k s).dcout = s.dcout := by simp [decodeBlock]
@[simp] theorem decodeBlock_accnt (br bc : Nat) (k : Fin 3) : (decodeBlock br bc k s).accnt = s.accnt := by simp [decodeBlock]
@[simp] theorem decodeBlock_dclen (br bc : Nat) (k : Fin 3) : (decodeBlock br bc k s).dclen = s.dclen := by simp [decodeBlock]
@[simp] theorem decodeBlock_aclen (br bc : Nat) (k : Fin 3) : (decodeBlock br bc k s).aclen = s.aclen := by simp [decodeBlock]
@[simp] theorem decodeBlock_pixi (br bc : Nat) (k : Fin 3) : (decodeBlock br bc k s).pixi = s.pixi := by simp [decodeBlock]
@[simp] theorem decodeBlock_fcoef (br bc : Nat) (k : Fin 3) : (decodeBlock br bc k s).fcoef = s.fcoef := by simp [decodeBlock]
@[simp] theorem decodeBlock_acin (br bc : Nat) (k : Fin 3) : (decodeBlock br bc k s).acin = s.acin := by simp [decodeBlock]
@[simp] theorem decodeBlock_qbaseLuma (br bc : Nat) (k : Fin 3) : (decodeBlock br bc k s).qbaseLuma = s.qbaseLuma := by simp [decodeBlock]
@[simp] theorem decodeBlock_qbaseChroma (br bc : Nat) (k : Fin 3) : (decodeBlock br bc k s).qbaseChroma = s.qbaseChroma := by simp [decodeBlock]
@[simp] theorem decodeBlock_imgi (br bc : Nat) (k : Fin 3) : (decodeBlock br bc k s).imgi = s.imgi := by simp [decodeBlock]
@[simp] theorem decodeBlock_dcs (br bc : Nat) (k : Fin 3) : (decodeBlock br bc k s).dcs = s.dcs := by simp [decodeBlock]
@[simp] theorem decodeBlock_acs (br bc : Nat) (k : Fin 3) : (decodeBlock br bc k s).acs = s.acs := by simp [decodeBlock]
@[simp] theorem decodeBlock_epoch (br bc : Nat) (k : Fin 3) : (decodeBlock br bc k s).epoch = s.epoch := by simp [decodeBlock]
@[simp] theorem decodeBlock_inbox (br bc : Nat) (k : Fin 3) : (decodeBlock br bc k s).inbox = s.inbox := by simp [decodeBlock]
@[simp] theorem decodeBlock_outputs (br bc : Nat) (k : Fin 3) : (decodeBlock br bc k s).outputs = s.outputs := by simp [decodeBlock]
@[simp] theorem decodeBlock_faulted (br bc : Nat) (k : Fin 3) : (decodeBlock br bc k s).faulted = s.faulted := by simp [decodeBlock]
@[simp] theorem decodeBlock_qbase (br bc : Nat) (k : Fin 3) (c : ChannelClass) : (decodeBlock br bc k s).qbase c = s.qbase c := by cases c <;> simp [State.qbase]
@[simp] theorem decodeBlock_readImgi (br bc : Nat) (k : Fin 3) (j : Nat) : (decodeBlock br bc k s).readImgi j = s.readImgi j := by simp [State.readImgi]
@[simp] theorem decodeBlock_readDcs (br bc : Nat) (k : Fin 3) (l : Fin 3) (j : Nat) : (decodeBlock br bc k s).readDcs l j = s.readDcs l j := by simp [State.readDcs]
@[simp] theorem decodeBlock_readAcs (br bc : Nat) (k : Fin 3) (l : Fin 3) (j : Nat) : (decodeBlock br bc k s).readAcs l j = s.readAcs l j := by simp [State.readAcs]

/-! ### runPass encodeBlock -/

@[simp] theorem runPass_encodeBlock_status : (runPass encodeBlock s).status = s.status := runPass_keep State.status (by simp) s
@[simp] theorem runPass_encodeBlock_errinfo : (runPass encodeBlock s).errinfo = s.errinfo := runPass_keep State.errinfo (by simp) s
@[simp] theorem runPass_encodeBlock_result : (runPass encodeBlock s).result = s.result := runPass_keep State.result (by simp) s
@[simp] theorem runPass_encodeBlock_cf : (runPass encodeBlock s).cf = s.cf := runPass_keep State.cf (by simp) s
@[simp] theorem runPass_encodeBlock_rows : (runPass encodeBlock s).rows = s.rows := runPass_keep State.rows (by simp) s
@[simp] theorem runPass_encodeBlock_cols : (runPass encodeBlock s).cols = s.cols := runPass_keep State.cols (by simp) s
@[simp] theorem runPass_encodeBlock_dcin : (runPass encodeBlock s).dcin = s.dcin := runPass_keep State.dcin (by simp) s
@[simp] theorem runPass_encodeBlock_accnt : (runPass encodeBlock s).accnt = s.accnt := runPass_keep State.accnt (by simp) s
@[simp] theorem runPass_encodeBlock_dclen : (runPass encodeBlock s).dclen = s.dclen := runPass_keep State.dclen (by simp) s
@[simp] theorem runPass_encodeBlock_aclen : (runPass encodeBlock s).aclen = s.aclen := runPass_keep State.aclen (by simp) s
@[simp] theorem runPass_encodeBlock_acin : (runPass encodeBlock s).acin = s.acin := runPass_keep State.acin (by simp) s
@[simp] theorem runPass_encodeBlock_icoef : (runPass encodeBlock s).icoef = s.icoef := runPass_keep State.icoef (by simp) s
@[simp] theorem runPass_encodeBlock_samp : (runPass encodeBlock s).samp = s.samp := runPass_keep State.samp (by simp) s
@[simp] theorem runPass_encodeBlock_pixo : (runPass encodeBlock s).pixo = s.pixo := runPass_keep State.pixo (by simp) s
@[simp] theorem runPass_encodeBlock_qbaseLuma : (runPass encodeBlock s).qbaseLuma = s.qbaseLuma := runPass_keep State.qbaseLuma (by simp) s
@[simp] theorem runPass_encodeBlock_qbaseChroma : (runPass encodeBlock s).qbaseChroma = s.qbaseChroma := runPass_keep State.qbaseChroma (by simp) s
@[simp] theorem runPass_encodeBlock_imgi : (runPass encodeBlock s).imgi = s.imgi := runPass_keep State.imgi (by simp) s
@[simp] theorem runPass_encodeBlock_imgo : (runPass encodeBlock s).imgo = s.imgo := runPass_keep State.imgo (by simp) s
@[simp] theorem runPass_encodeBlock_epoch : (runPass encodeBlock s).epoch = s.epoch := runPass_keep State.epoch (by simp) s
@[simp] theorem runPass_encodeBlock_inbox : (runPass encodeBlock s).inbox = s.inbox := runPass_keep State.inbox (by simp) s
@[simp] theorem runPass_encodeBlock_outputs : (runPass encodeBlock s).outputs = s.outputs := runPass_keep State.outputs (by simp) s
@[simp] theorem runPass_encodeBlock_faulted : (runPass encodeBlock s).faulted = s.faulted := runPass_keep State.faulted (by simp) s
@[simp] theorem runPass_encodeBlock_qbase (c : ChannelClass) : (runPass encodeBlock s).qbase c = s.qbase c := by
  cases c <;> simp [State.qbase]

/-! ### runPass decodeBlock -/

@[simp] theorem runPass_decodeBlock_status : (runPass decodeBlock s).status = s.status := runPass_keep State.status (by simp) s
@[simp] theorem runPass_decodeBlock_errinfo : (runPass decodeBlock s).errinfo = s.errinfo := runPass_keep State.errinfo (by simp) s
@[simp] theorem runPass_decodeBlock_result : (runPass decodeBlock s).result = s.result := runPass_keep State.result (by simp) s
@[simp] theorem runPass_decodeBlock_cf : (runPass decodeBlock s).cf = s.cf := runPass_keep State.cf (by simp) s
@[simp] theorem runPass_decodeBlock_rows : (runPass decodeBlock s).rows = s.rows := runPass_keep State.rows (by simp) s
@[simp] theorem runPass_decodeBlock_cols : (runPass decodeBlock s).cols = s.cols := runPass_keep State.cols (by simp) s
@[simp] theorem runPass_decodeBlock_dcin : (runPass decodeBlock s).dcin = s.dcin := runPass_keep State.dcin (by simp) s
@[simp] theorem runPass_decodeBlock_dcout : (runPass decodeBlock s).dcout = s.dcout := runPass_keep State.dcout (by simp) s
@[simp] theorem runPass_decodeBlock_accnt : (runPass decodeBlock s).accnt = s.accnt := runPass_keep State.accnt (by simp) s
@[simp] theorem runPass_decodeBlock_dclen : (runPass decodeBlock s).dclen = s.dclen := runPass_keep State.dclen (by simp) s
@[simp] theorem runPass_decodeBlock_aclen : (runPass decodeBlock s).aclen = s.aclen := runPass_keep State.aclen (by simp) s
@[simp] theorem runPass_decodeBlock_pixi : (runPass decodeBlock s).pixi = s.pixi := runPass_keep State.pixi (by simp) s
@[simp] theorem runPass_decodeBlock_fcoef : (runPass decodeBlock s).fcoef = s.fcoef := runPass_keep State.fcoef (by simp) s
@[simp] theorem runPass_decodeBlock_acin : (runPass decodeBlock s).acin = s.acin := runPass_keep State.acin (by simp) s
@[simp] theorem runPass_decodeBlock_qbaseLuma : (runPass decodeBlock s).qbaseLuma = s.qbaseLuma := runPass_keep State.qbaseLuma (by simp) s
@[simp] theorem runPass_decodeBlock_qbaseChroma : (runPass decodeBlock s).qbaseChroma = s.qbaseChroma := runPass_keep State.qbaseChroma (by simp) s
@[simp] theorem runPass_decodeBlock_imgi : (runPass decodeBlock s).imgi = s.imgi := runPass_keep State.imgi (by simp) s
@[simp] theorem runPass_decodeBlock_dcs : (runPass decodeBlock s).dcs = s.dcs := runPass_keep State.dcs (by simp) s
@[simp] theorem runPass_decodeBlock_acs : (runPass decodeBlock s).acs = s.acs := runPass_keep State.acs (by simp) s
@[simp] theorem runPass_decodeBlock_epoch : (runPass decodeBlock s).epoch = s.epoch := runPass_keep State.epoch (by simp) s
@[simp] theorem runPass_decodeBlock_inbox : (runPass decodeBlock s).inbox = s.inbox := runPass_keep State.inbox (by simp) s
@[simp] theorem runPass_decodeBlock_outputs : (runPass decodeBlock s).outputs = s.outputs := runPass_keep State.outputs (by simp) s
@[simp] theorem runPass_decodeBlock_faulted : (runPass decodeBlock s).faulted = s.faulted := runPass_keep State.faulted (by simp) s
@[simp] theorem runPass_decodeBlock_qbase (c : ChannelClass) : (runPass decodeBlock s).qbase c = s.qbase c := by
  cases c <;> simp [State.qbase]

end Sys2Proof.Machine
end

