-- ==== Sys2Proof/Laws/Blocks.lean ====
section
/-! SUPPORT. What one block of a pass depends on, and what it leaves in the streams and in the output image. -/

namespace Sys2Proof.Machine

variable {s t : State}

/-- The scatter of `ZZ.SCAN` forgets what `SCAN` held. -/
theorem scatter_zigzag_congr (src dst dst' : Buf 16) :
    scatter (fun i => zigzag (rowOf i) (colOf i)) src dst = scatter (fun i => zigzag (rowOf i) (colOf i)) src dst' :=
  buf_ext fun j => by rw [scatter_zigzag, scatter_zigzag]

/-- The scatter of `ZZ.UNSCAN` forgets what `QCO` held. -/
theorem scatter_unzigzag_congr (src dst dst' : Buf 16) : scatter unzigzag src dst = scatter unzigzag src dst' :=
  buf_ext fun j => by rw [scatter_unzigzag, scatter_unzigzag]

theorem divisor_congr {cls : ChannelClass} (hc : t.cf = s.cf) (hq : t.qbase cls = s.qbase cls) (u v : Fin 8) :
    divisor t cls u v = divisor s cls u v := by
  rw [divisor, divisor, hc, hq]

/-- `bc_forward` reads `PIXI`, `CF` and `QBASE` only. -/
theorem bcForward_congr {cls : ChannelClass} (hp : t.pixi = s.pixi) (hc : t.cf = s.cf)
    (hq : t.qbase cls = s.qbase cls) :
    (bcForward cls t).div = (bcForward cls s).div ∧ (bcForward cls t).fcoef = (bcForward cls s).fcoef ∧
    (bcForward cls t).qco = (bcForward cls s).qco ∧ (bcForward cls t).scan = (bcForward cls s).scan ∧
    (bcForward cls t).dcout = (bcForward cls s).dcout := by
  have hd : (bcForward cls t).div = (bcForward cls s).div := by
    simp [bcForward, divisor_congr hc hq]
  have hf : (bcForward cls t).fcoef = (bcForward cls s).fcoef := by simp [bcForward, hp]
  have hqc : (bcForward cls t).qco = (bcForward cls s).qco := by
    simp [bcForward, hp, divisor_congr hc hq]
  have hs : (bcForward cls t).scan = (bcForward cls s).scan := by
    have hqc' : (quantise (transformForward (buildDivisors cls t))).qco =
        (quantise (transformForward (buildDivisors cls s))).qco := by simpa [bcForward] using hqc
    show scatter _ (quantise (transformForward (buildDivisors cls t))).qco _ =
      scatter _ (quantise (transformForward (buildDivisors cls s))).qco _
    rw [hqc']
    exact scatter_zigzag_congr _ _ _
  refine ⟨hd, hf, hqc, hs, ?_⟩
  show (bcForward cls t).scan[0] = (bcForward cls s).scan[0]
  rw [hs]

/-- `bc_inverse` reads `SCAN`, `CF` and `QBASE` only. -/
theorem bcInverse_congr {cls : ChannelClass} (hs : t.scan = s.scan) (hc : t.cf = s.cf)
    (hq : t.qbase cls = s.qbase cls) :
    (bcInverse cls t).qco = (bcInverse cls s).qco ∧ (bcInverse cls t).div = (bcInverse cls s).div ∧
    (bcInverse cls t).icoef = (bcInverse cls s).icoef ∧ (bcInverse cls t).samp = (bcInverse cls s).samp ∧
    (bcInverse cls t).pixo = (bcInverse cls s).pixo := by
  have hqc : scatter unzigzag t.scan t.qco = scatter unzigzag s.scan s.qco := by
    rw [hs]; exact scatter_unzigzag_congr _ _ _
  have hdv : ∀ u v, divisor (unscanBlock t) cls u v = divisor (unscanBlock s) cls u v :=
    divisor_congr (by simpa using hc) (by simpa using hq)
  have hic : (bcInverse cls t).icoef = (bcInverse cls s).icoef := by
    simp only [bcInverse, clampSamples_icoef, transformInverse_icoef, dequantise_icoef, buildDivisors_qco,
      buildDivisors_div, unscanBlock_qco, hqc, hdv]
  have hsm : (bcInverse cls t).samp = (bcInverse cls s).samp := by
    have h : ∀ r : State, (bcInverse cls r).samp = bufOfMatrix 16 (idct (signedMatrix (bcInverse cls r).icoef)) :=
      fun r => by simp [bcInverse]
    rw [h, h, hic]
  refine ⟨by simpa [bcInverse] using hqc, by simp [bcInverse, hdv], hic, hsm, ?_⟩
  have h : ∀ r : State, (bcInverse cls r).pixo =
      tabulate fun i => BitVec.ofInt 8 (clamp255 (bcInverse cls r).samp[i].toInt) := fun r => by simp [bcInverse]
  rw [h, h, hsm]

/-! ### The streams after one block -/

theorem readDcs_appendStreams (k l : Fin 3) (j : Nat) :
    (appendStreams k s).readDcs l j = if l = k ∧ j = s.dcidx[k].toNat then s.dcout else s.readDcs l j := by
  rw [appendStreams, foldl_keep (fun t => t.readDcs l j) fun t i => by simp]
  simp

/-- Writing a list of elements from an index up: what the list's own indices read. -/
theorem readAcs_foldl (k l : Fin 3) (base j : Nat) (v : Fin 63 → BitVec 16) (is : List (Fin 63)) :
    (is.foldl (fun t i => t.writeAcs k (base + i.val) (v i)) s).readAcs l j =
      if h : l = k ∧ ∃ i ∈ is, j = base + i.val then v (h.2.choose) else s.readAcs l j := by
  induction is generalizing s with
  | nil => simp
  | cons i is ih =>
    rw [List.foldl_cons, ih]
    by_cases hl : l = k
    · subst hl
      by_cases hi : ∃ i ∈ is, j = base + i.val
      · have hi' : ∃ a ∈ i :: is, j = base + a.val := by
          obtain ⟨a, ha, e⟩ := hi
          exact ⟨a, List.mem_cons_of_mem _ ha, e⟩
        rw [dif_pos ⟨rfl, hi⟩, dif_pos ⟨rfl, hi'⟩]
        congr 1
        ext
        have h₁ := hi.choose_spec.2
        have h₂ := hi'.choose_spec.2
        omega
      · rw [dif_neg fun h => hi h.2]
        by_cases hj : j = base + i.val
        · have hi' : ∃ a ∈ i :: is, j = base + a.val := ⟨i, List.mem_cons_self, hj⟩
          rw [dif_pos ⟨rfl, hi'⟩]
          have h₂ := hi'.choose_spec.2
          have : hi'.choose = i := by ext; omega
          rw [this]
          simp [hj]
        · rw [dif_neg]
          · simp [hj]
          · rintro ⟨-, a, ha, e⟩
            rcases List.mem_cons.1 ha with rfl | ha
            · exact hj e
            · exact hi ⟨a, ha, e⟩
    · simp [hl]

/-- The 63 AC values of the block, at the cursor. -/
theorem readAcs_appendStreams_same (k : Fin 3) (i : Fin 63) :
    (appendStreams k s).readAcs k (s.acidx[k].toNat + i.val) = s.scan[i.val + 1] := by
  rw [appendStreams, readAcs_foldl k k _ _ (fun i => s.scan[i.val + 1])]
  have h : ∃ a ∈ List.finRange 63, s.acidx[k].toNat + i.val = s.acidx[k].toNat + a.val := ⟨i, by simp, rfl⟩
  rw [dif_pos ⟨rfl, h⟩]
  have h₂ := h.choose_spec.2
  have : h.choose = i := by ext; omega
  rw [this]

/-- Every other AC element is as before. -/
theorem readAcs_appendStreams_other {k l : Fin 3} {j : Nat}
    (h : l ≠ k ∨ j < s.acidx[k].toNat ∨ s.acidx[k].toNat + 63 ≤ j) :
    (appendStreams k s).readAcs l j = s.readAcs l j := by
  rw [appendStreams, readAcs_foldl k l _ _ (fun i => s.scan[i.val + 1]), dif_neg]
  · simp
  · rintro ⟨rfl, i, -, e⟩
    omega

/-! ### The output image after one block -/

theorem readImgo_foldl (at_ : Fin 64 → Nat) (hinj : Function.Injective at_) (v : Fin 64 → BitVec 8) (j : Nat)
    (is : List (Fin 64)) :
    (∀ i ∈ is, j = at_ i → (is.foldl (fun t i => t.writeImgo (at_ i) (v i)) s).readImgo j = v i) ∧
    ((∀ i ∈ is, j ≠ at_ i) → (is.foldl (fun t i => t.writeImgo (at_ i) (v i)) s).readImgo j = s.readImgo j) := by
  induction is generalizing s with
  | nil => simp
  | cons i is ih =>
    obtain ⟨h₁, h₂⟩ := ih (s := s.writeImgo (at_ i) (v i))
    refine ⟨fun a ha e => ?_, fun h => ?_⟩
    · by_cases hm : a ∈ is
      · exact h₁ a hm e
      · have hai : a = i := by
          rcases List.mem_cons.1 ha with h | h
          · exact h
          · exact absurd h hm
        subst hai
        rw [List.foldl_cons, h₂ fun b hb e' => hm (hinj (e.symm.trans e') ▸ hb)]
        simp [e]
    · rw [List.foldl_cons, h₂ fun b hb => h b (List.mem_cons_of_mem _ hb)]
      simp [h i List.mem_cons_self]

/-- The elements of one block of one channel are all different. -/
theorem blockPixel_injective {cols br bc : Nat} (k : Fin 3) (h : 8 * bc + 8 ≤ cols) :
    Function.Injective (blockPixel cols br bc k) := by
  intro i j hij
  simp only [blockPixel, pixIndex, rowOf, colOf] at hij
  have hi : i.val % 8 < 8 := Nat.mod_lt _ (by omega)
  have hj : j.val % 8 < 8 := Nat.mod_lt _ (by omega)
  have hmul : (8 * br + i.val / 8) * cols + (8 * bc + i.val % 8) =
      (8 * br + j.val / 8) * cols + (8 * bc + j.val % 8) := by omega
  have hrow : 8 * br + i.val / 8 = 8 * br + j.val / 8 := by
    have key : ∀ a b, b < cols → (a * cols + b) / cols = a := fun a b hb => by
      rw [Nat.mul_comm, Nat.mul_add_div (by omega), Nat.div_eq_of_lt hb, Nat.add_zero]
    rw [← key (8 * br + i.val / 8) (8 * bc + i.val % 8) (by omega), hmul, key _ _ (by omega)]
  rw [hrow] at hmul
  ext
  omega

/-- The block's pixels, where they belong. -/
theorem readImgo_storePixels_same {br bc : Nat} (k : Fin 3) (h : 8 * bc + 8 ≤ s.cols.toNat) (i : Fin 64) :
    (storePixels br bc k s).readImgo (blockPixel s.cols.toNat br bc k i) = s.pixo[i] :=
  (readImgo_foldl _ (blockPixel_injective k h) (fun i => s.pixo[i]) _ _).1 i (by simp) rfl

/-- Every other element of the output image is as before. -/
theorem readImgo_storePixels_other {br bc : Nat} (k : Fin 3) (h : 8 * bc + 8 ≤ s.cols.toNat) {j : Nat}
    (hj : ∀ i, j ≠ blockPixel s.cols.toNat br bc k i) : (storePixels br bc k s).readImgo j = s.readImgo j :=
  (readImgo_foldl _ (blockPixel_injective k h) (fun i => s.pixo[i]) _ _).2 fun i _ => hj i

end Sys2Proof.Machine
end

