-- ==== Sys2Proof/Laws/Invariant.lean ====
section
/-! SUPPORT. The canonical form of the memories: every operation that writes an element inside its space keeps it, and
every operation that writes no memory does. -/

namespace Sys2Proof.Machine

variable {s : State}

theorem memoriesOk_congr {t : State} (h : s.memoriesOk) (h₁ : t.imgi = s.imgi) (h₂ : t.imgo = s.imgo)
    (h₃ : t.dcs = s.dcs) (h₄ : t.acs = s.acs) : t.memoriesOk := by
  unfold State.memoriesOk at *
  rw [h₁, h₂, h₃, h₄]
  exact h

theorem memoriesOk_writeImgi (h : s.memoriesOk) {i : Nat} (hi : i < imageSize) (v : BitVec 8) :
    (s.writeImgi i v).memoriesOk :=
  ⟨⟨Memory.store_wf h.1.1 _ _, Memory.store_within h.1.2 hi _⟩, h.2.1, h.2.2⟩

theorem memoriesOk_writeImgo (h : s.memoriesOk) {i : Nat} (hi : i < imageSize) (v : BitVec 8) :
    (s.writeImgo i v).memoriesOk :=
  ⟨h.1, ⟨Memory.store_wf h.2.1.1 _ _, Memory.store_within h.2.1.2 hi _⟩, h.2.2⟩

theorem memoriesOk_writeDcs (h : s.memoriesOk) (k : Fin 3) {i : Nat} (hi : i < dcsSize) (v : BitVec 16) :
    (s.writeDcs k i v).memoriesOk := by
  refine ⟨h.1, h.2.1, fun l => ⟨?_, (h.2.2 l).2⟩⟩
  simp only [State.writeDcs_dcs, Fin.getElem_fin, Vector.getElem_set]
  by_cases hk : k.val = l.val
  · simp only [hk, if_true]
    exact ⟨Memory.store_wf (h.2.2 l).1.1 _ _, Memory.store_within (h.2.2 l).1.2 hi _⟩
  · simp only [hk, if_false]
    exact (h.2.2 l).1

theorem memoriesOk_writeAcs (h : s.memoriesOk) (k : Fin 3) {i : Nat} (hi : i < acsSize) (v : BitVec 16) :
    (s.writeAcs k i v).memoriesOk := by
  refine ⟨h.1, h.2.1, fun l => ⟨(h.2.2 l).1, ?_⟩⟩
  simp only [State.writeAcs_acs, Fin.getElem_fin, Vector.getElem_set]
  by_cases hk : k.val = l.val
  · simp only [hk, if_true]
    exact ⟨Memory.store_wf (h.2.2 l).2.1 _ _, Memory.store_within (h.2.2 l).2.2 hi _⟩
  · simp only [hk, if_false]
    exact (h.2.2 l).2

/-- A host memory write keeps the canonical form, whatever its index. -/
theorem memoriesOk_hostWrite (h : s.memoriesOk) (sel : BitVec 4) (i d : Word) : (hostWrite sel i d s).memoriesOk := by
  unfold hostWrite
  split
  · rename_i m _
    cases m <;> simp only [hostWriteSpace] <;> split
    · exact h
    · exact memoriesOk_writeImgi h (by omega) _
    · exact h
    · exact memoriesOk_writeImgo h (by omega) _
    · exact h
    · exact memoriesOk_writeDcs h _ (by omega) _
    · exact h
    · exact memoriesOk_writeAcs h _ (by omega) _
  · exact h

/-- A hardware reset leaves nothing listed. -/
theorem memoriesOk_hardReset (s : State) : (hardReset s).memoriesOk := by
  refine ⟨⟨List.Pairwise.nil, by simp [hardReset]⟩, ⟨List.Pairwise.nil, by simp [hardReset]⟩, fun k => ?_⟩
  have hd : (hardReset s).dcs[k] = [] := by simp [hardReset]
  have ha : (hardReset s).acs[k] = [] := by simp [hardReset]
  rw [hd, ha]
  exact ⟨⟨List.Pairwise.nil, by simp⟩, List.Pairwise.nil, by simp⟩

/-- Appending one block to the streams keeps the canonical form when the cursors point inside. -/
theorem memoriesOk_appendStreams (h : s.memoriesOk) (k : Fin 3) (hd : s.dcidx[k].toNat < dcsSize)
    (ha : s.acidx[k].toNat + 62 < acsSize) : (appendStreams k s).memoriesOk := by
  rw [appendStreams]
  generalize List.finRange 63 = l
  have h₁ : (s.writeDcs k s.dcidx[k].toNat s.dcout).memoriesOk := memoriesOk_writeDcs h k hd _
  generalize s.writeDcs k s.dcidx[k].toNat s.dcout = t at h₁ ⊢
  induction l generalizing t with
  | nil => exact h₁
  | cons i l ih => exact ih _ (memoriesOk_writeAcs h₁ k (by omega) _)

/-- Storing one block of pixels keeps the canonical form when they all lie inside the image memory. -/
theorem memoriesOk_storePixels (h : s.memoriesOk) (br bc : Nat) (k : Fin 3)
    (hi : ∀ i, blockPixel s.cols.toNat br bc k i < imageSize) : (storePixels br bc k s).memoriesOk := by
  rw [storePixels]
  generalize List.finRange 64 = l
  suffices ∀ t : State, t.memoriesOk →
      (l.foldl (fun t i => t.writeImgo (blockPixel s.cols.toNat br bc k i) s.pixo[i]) t).memoriesOk from this s h
  intro t ht
  induction l generalizing t with
  | nil => exact ht
  | cons i l ih => exact ih _ (memoriesOk_writeImgo ht (hi i) _)

end Sys2Proof.Machine
end

