-- ==== Sys2Proof/Laws/PerInstr.lean ====
section
/-! SUPPORT. The family `EncodeHighHalf`: bits 31:16 of every command's word are its `UNIT`, its `OP` and eight zero
bits, whatever its operands (spec/30_encoding.md R51, R54). -/

namespace Sys2Proof.Laws

/-- An operand field in the low half leaves the high half zero. -/
theorem place_high {x lo len : Nat} (h : lo + len ≤ 16) : (place x lo len).extractLsb' 16 16 = 0 := by
  ext i hi
  simp only [place, BitVec.getElem_extractLsb', BitVec.getLsbD_shiftLeft, BitVec.getLsbD_setWidth]
  rw [BitVec.getLsbD_of_ge _ _ (by omega)]
  simp

theorem high_or (a b : Word) :
    (a ||| b).extractLsb' 16 16 = a.extractLsb' 16 16 ||| b.extractLsb' 16 16 := by
  ext i hi
  simp

namespace EncodeHighHalf

/-- Bits 31:16 of the word of a command. -/
def Statement (i : Instr) : Prop :=
  (encode i).extractLsb' 16 16 =
    match i with
    | .sysNop => 0x0000
    | .sysSreset => 0x0100
    | .twRd _ _ => 0x1000
    | .twBasis _ _ _ _ => 0x1100
    | .fdRun => 0x2000
    | .idRun => 0x3000
    | .qsDiv _ _ _ => 0x4000
    | .qsBuild _ => 0x4100
    | .zzFwd _ _ => 0x5000
    | .zzInv _ => 0x5100
    | .zzScan => 0x5200
    | .zzUnscan => 0x5300
    | .bcQuant => 0x6000
    | .bcDeq => 0x6100
    | .bcClamp => 0x6200
    | .bcFwd _ => 0x6300
    | .bcInv _ => 0x6400
    | .bcAcclr => 0x6500
    | .itEncode => 0x7000
    | .itDecode => 0x7100

theorem sysNop : Statement .sysNop := rfl

theorem sysSreset : Statement .sysSreset := rfl

theorem twRd (k n : Nat) : Statement (.twRd k n) := by
  simp [Statement, encode, high_or, place_high]

theorem twBasis (u v x y : Nat) : Statement (.twBasis u v x y) := by
  simp [Statement, encode, high_or, place_high]

theorem fdRun : Statement .fdRun := rfl

theorem idRun : Statement .idRun := rfl

theorem qsDiv (cls : ChannelClass) (u v : Nat) : Statement (.qsDiv cls u v) := by
  simp [Statement, encode, high_or, place_high]

theorem qsBuild (cls : ChannelClass) : Statement (.qsBuild cls) := by
  simp [Statement, encode, high_or, place_high]

theorem zzFwd (u v : Nat) : Statement (.zzFwd u v) := by
  simp [Statement, encode, high_or, place_high]

theorem zzInv (pos : Nat) : Statement (.zzInv pos) := by
  simp [Statement, encode, high_or, place_high]

theorem zzScan : Statement .zzScan := rfl

theorem zzUnscan : Statement .zzUnscan := rfl

theorem bcQuant : Statement .bcQuant := rfl

theorem bcDeq : Statement .bcDeq := rfl

theorem bcClamp : Statement .bcClamp := rfl

theorem bcFwd (cls : ChannelClass) : Statement (.bcFwd cls) := by
  simp [Statement, encode, high_or, place_high]

theorem bcInv (cls : ChannelClass) : Statement (.bcInv cls) := by
  simp [Statement, encode, high_or, place_high]

theorem bcAcclr : Statement .bcAcclr := rfl

theorem itEncode : Statement .itEncode := rfl

theorem itDecode : Statement .itDecode := rfl

end EncodeHighHalf

end Sys2Proof.Laws
end

