-- ==== Sys2Proof/Laws/Step.lean ====
section
/-! SUPPORT. What a step is, by what the host holds on the ports: one lemma per kind of input, so that no proof unfolds
`step`, `serve`, `perform` or `writeCmd`. -/

namespace Sys2Proof.Machine

variable {s : State}

@[simp] theorem request_pins (t : Transaction) : t.pins.request = .transaction t := by cases t <;> rfl

theorem perform_wr_cmd (w : Word) (s : State) : perform (.wr cmdIndex w) s = writeCmd w (answerH none s) := rfl

theorem perform_wr_other {a : BitVec 12} (h : a ≠ cmdIndex) (d : Word) (s : State) :
    perform (.wr a d) s = .next (writeReg a d (answerH none s)) := by
  show (if a = cmdIndex then _ else _) = _
  rw [if_neg h]

theorem perform_rd (a : BitVec 12) (s : State) : perform (.rd a) s = .next (answerH (some (readReg a s)) s) := rfl

theorem perform_mw (sel : BitVec 4) (i d : Word) (s : State) :
    perform (.mw sel i d) s = .next (hostWrite sel i d (answerM none s)) := rfl

theorem perform_mr (sel : BitVec 4) (i : Word) (s : State) :
    perform (.mr sel i) s = .next (answerM (some (hostRead sel i s)) s) := rfl

theorem writeCmd_faulted (h : s.faulted = true) (w : Word) :
    writeCmd w s = .next (if w = 0x01000000 then softReset s else s) := by
  rw [writeCmd, if_pos h]
  split <;> rfl

theorem writeCmd_command (h : s.faulted = false) {w : Word} {i : Instr} (hd : decode w = .command i) :
    writeCmd w s = exec i s := by
  rw [writeCmd, if_neg (by simp [h]), hd]

theorem writeCmd_illegal (h : s.faulted = false) {w : Word} {why : Illegal} (hd : decode w = .illegal why) :
    writeCmd w s = .next (raiseFault .illegalCommand w s) := by
  rw [writeCmd, if_neg (by simp [h]), hd]

theorem step_nil (h : s.inbox = []) : step s = .next (answerNone s) := by
  unfold step serve
  rw [h]
  rfl

theorem step_cons {p : Pins} {rest : List Pins} (h : s.inbox = p :: rest) :
    step s = answer p.request (afterInput rest s) := by
  unfold step serve
  rw [h]

theorem step_transaction {t : Transaction} {rest : List Pins} (h : s.inbox = t.pins :: rest) :
    step s = perform t (afterInput rest s) := by
  rw [step_cons h, request_pins]
  rfl

theorem withFetchWord_inbox (s : State) (w : Word) :
    (s.withFetchWord 32 w.toNat).inbox = (Transaction.wr cmdIndex w).pins :: s.inbox := by
  have : BitVec.ofNat 32 (w.toNat % 2 ^ 32) = w := by
    rw [Nat.mod_eq_of_lt w.isLt, BitVec.ofNat_toNat, BitVec.setWidth_eq]
  simp only [State.withFetchWord, this, presentCommand_inbox]

/-- Everything a step can do. -/
theorem step_cases {o : Out} (h : step s = o) :
    (s.inbox = [] ∧ o = .next (answerNone s)) ∨
    ∃ p rest, s.inbox = p :: rest ∧
      ((p.request = .reset ∧ o = .next (hardReset (answerNone (afterInput rest s)))) ∨
       (p.request = .idle ∧ o = .next (answerNone (afterInput rest s))) ∨
       (p.request = .conflict ∧ o = .refused .hostPresentsBothPorts) ∨
       ∃ t, p.request = .transaction t ∧ o = perform t (afterInput rest s)) := by
  cases hi : s.inbox with
  | nil => exact .inl ⟨rfl, by rw [← h, step_nil hi]⟩
  | cons p rest =>
    refine .inr ⟨p, rest, rfl, ?_⟩
    rw [step_cons hi] at h
    cases hr : p.request with
    | reset => exact .inl ⟨rfl, by rw [← h, hr]; rfl⟩
    | idle => exact .inr (.inl ⟨rfl, by rw [← h, hr]; rfl⟩)
    | conflict => exact .inr (.inr (.inl ⟨rfl, by rw [← h, hr]; rfl⟩))
    | transaction t => exact .inr (.inr (.inr ⟨t, rfl, by rw [← h, hr]; rfl⟩))

end Sys2Proof.Machine
end

