-- ==== Sys2Proof/Tests/Slice0.lean ====
section
/-! SUPPORT. Small tests of the model: words written out from the spec's encodings, the spec's tables against the
rules that generate them, one or two steps per command against spec/95_test_vectors.md, and for every statement with
hypotheses a witness that meets them. -/

namespace Sys2Proof.Machine.Tests

open Sys2Proof Sys2Proof.Machine

-- The tests are elaborated one after the other: all at once they start more threads than memory has stacks for.
set_option Elab.async false

/-! ### Helpers -/

/-- The next state of an answer; the reset state where there is none. -/
def next (o : Out) : State :=
  match o with
  | .next t => t
  | _ => State.reset

/-- The 64-element buffer with the values of a list, 0 beyond it. -/
def bufOf (w : Nat) (l : List Int) : Buf w := tabulate fun i => BitVec.ofInt w (l.getD i.val 0)

/-- The block `X` of spec/95_test_vectors.md. -/
def blockX : Buf 8 := tabulate fun i =>
  BitVec.ofNat 8 (37 * (i.val / 8) + 101 * (i.val % 8) + 13 * (i.val / 8) * (i.val % 8) + 7)

/-- The block `G` of spec/95_test_vectors.md. -/
def blockG : Buf 8 := tabulate fun i => BitVec.ofNat 8 (16 * (i.val / 8) + 8 * (i.val % 8) + 40)

/-- A state in the fault state: `TW.RD 8, 0` has faulted (V-D-TW-3). -/
def faultedState : State := raiseFault .invalidIndex 0x10000080 State.reset

/-- The reset state with `n` AC values counted. -/
def counted (n : BitVec 7) : State := { State.reset with accnt := n }

/-- The reset state with the image's sides set. -/
def sized (r c : BitVec 16) : State := { State.reset with rows := r, cols := c }

/-- The reset state with the host about to perform transactions. -/
def facing (ts : List Transaction) : State := { State.reset with inbox := ts.map Transaction.pins }

/-! ### WellFormed: an ill-formed term for each check (R52) -/

theorem test_wf_twRd_k : WellFormed (.twRd 16 0) = false := by decide
theorem test_wf_twRd_n : WellFormed (.twRd 0 16) = false := by decide
theorem test_wf_twBasis_u : WellFormed (.twBasis 16 0 0 0) = false := by decide
theorem test_wf_twBasis_v : WellFormed (.twBasis 0 16 0 0) = false := by decide
theorem test_wf_twBasis_x : WellFormed (.twBasis 0 0 16 0) = false := by decide
theorem test_wf_twBasis_y : WellFormed (.twBasis 0 0 0 16) = false := by decide
theorem test_wf_qsDiv_u : WellFormed (.qsDiv .luma 16 0) = false := by decide
theorem test_wf_qsDiv_v : WellFormed (.qsDiv .luma 0 16) = false := by decide
theorem test_wf_zzFwd_u : WellFormed (.zzFwd 8 0) = false := by decide
theorem test_wf_zzFwd_v : WellFormed (.zzFwd 0 8) = false := by decide
theorem test_wf_zzInv : WellFormed (.zzInv 64) = false := by decide

/-! ### Decoding: every command's word, bit by bit (R51, R52, R54): `UNIT OP zero ARG` -/

theorem test_decode_sysNop : decode 0b0000_0000_00000000_0000000000000000 = .command .sysNop := by decide
theorem test_decode_sysSreset : decode 0b0000_0001_00000000_0000000000000000 = .command .sysSreset := by decide
theorem test_decode_twRd : decode 0b0001_0000_00000000_00000000_0111_1010 = .command (.twRd 7 10) := by decide
theorem test_decode_twBasis :
    decode 0b0001_0001_00000000_0001_0010_0100_1000 = .command (.twBasis 1 2 4 8) := by decide
theorem test_decode_fdRun : decode 0b0010_0000_00000000_0000000000000000 = .command .fdRun := by decide
theorem test_decode_idRun : decode 0b0011_0000_00000000_0000000000000000 = .command .idRun := by decide
theorem test_decode_qsDiv :
    decode 0b0100_0000_00000000_0000000_1_0110_0101 = .command (.qsDiv .chroma 6 5) := by decide
theorem test_decode_qsBuild : decode 0b0100_0001_00000000_000000000000000_1 = .command (.qsBuild .chroma) := by decide
theorem test_decode_zzFwd : decode 0b0101_0000_00000000_0000000000_011_100 = .command (.zzFwd 3 4) := by decide
theorem test_decode_zzInv : decode 0b0101_0001_00000000_0000000000_100011 = .command (.zzInv 35) := by decide
theorem test_decode_zzScan : decode 0b0101_0010_00000000_0000000000000000 = .command .zzScan := by decide
theorem test_decode_zzUnscan : decode 0b0101_0011_00000000_0000000000000000 = .command .zzUnscan := by decide
theorem test_decode_bcQuant : decode 0b0110_0000_00000000_0000000000000000 = .command .bcQuant := by decide
theorem test_decode_bcDeq : decode 0b0110_0001_00000000_0000000000000000 = .command .bcDeq := by decide
theorem test_decode_bcClamp : decode 0b0110_0010_00000000_0000000000000000 = .command .bcClamp := by decide
theorem test_decode_bcFwd : decode 0b0110_0011_00000000_000000000000000_0 = .command (.bcFwd .luma) := by decide
theorem test_decode_bcInv : decode 0b0110_0100_00000000_000000000000000_1 = .command (.bcInv .chroma) := by decide
theorem test_decode_bcAcclr : decode 0b0110_0101_00000000_0000000000000000 = .command .bcAcclr := by decide
theorem test_decode_itEncode : decode 0b0111_0000_00000000_0000000000000000 = .command .itEncode := by decide
theorem test_decode_itDecode : decode 0b0111_0001_00000000_0000000000000000 = .command .itDecode := by decide

/-! ### Illegal words, one for each way of R55 (and V-D-TW-3, V-D-QS-4, V-D-ZZ-4) -/

theorem test_illegal_unit : decode 0x80000000 = .illegal .reservedUnit := by decide
theorem test_illegal_op : decode 0x02000000 = .illegal .unassignedOp := by decide
theorem test_illegal_middle : decode 0x10010000 = .illegal .nonzeroMiddle := by decide
theorem test_illegal_arg_kn : decode 0x10000100 = .illegal .nonzeroArgBit := by decide
theorem test_illegal_arg_cuv : decode 0x40000200 = .illegal .nonzeroArgBit := by decide
theorem test_illegal_arg_c : decode 0x41000002 = .illegal .nonzeroArgBit := by decide
theorem test_illegal_arg_uv3 : decode 0x50000040 = .illegal .nonzeroArgBit := by decide
theorem test_table_word : decodeTableWord 32 0x40000101 = some (.qsDiv .chroma 0 1) := by decide

/-! ### The constant tables against the rules that generate them -/

/-- R61: the ROM's words, the second (hexadecimal) table. -/
theorem test_rom_hex :
    ((List.finRange 8).map fun k => (List.finRange 8).map fun n => (BitVec.ofInt 16 (twiddle k n)).toNat) =
      [[0x5A82, 0x5A82, 0x5A82, 0x5A82, 0x5A82, 0x5A82, 0x5A82, 0x5A82],
       [0x7D8A, 0x6A6E, 0x471D, 0x18F9, 0xE707, 0xB8E3, 0x9592, 0x8276],
       [0x7642, 0x30FC, 0xCF04, 0x89BE, 0x89BE, 0xCF04, 0x30FC, 0x7642],
       [0x6A6E, 0xE707, 0x8276, 0xB8E3, 0x471D, 0x7D8A, 0x18F9, 0x9592],
       [0x5A82, 0xA57E, 0xA57E, 0x5A82, 0x5A82, 0xA57E, 0xA57E, 0x5A82],
       [0x471D, 0x8276, 0x18F9, 0x6A6E, 0x9592, 0xE707, 0x7D8A, 0xB8E3],
       [0x30FC, 0x89BE, 0x7642, 0xCF04, 0xCF04, 0x7642, 0x89BE, 0x30FC],
       [0x18F9, 0xB8E3, 0x6A6E, 0x8276, 0x7D8A, 0x9592, 0x471D, 0xE707]] := by
  decide +kernel

/-- R63: mirrored positions agree for an even frequency and are opposite for an odd one. -/
theorem test_rom_mirror : ∀ k n : Fin 8, twiddle k n.rev = (if k.val % 2 = 0 then twiddle k n else -twiddle k n) := by
  decide +kernel

/-- R101: along the scan positions the diagonal never falls, and along one diagonal `u` falls where it is even and
rises where it is odd (R100). -/
theorem test_zigzag_order : ∀ j : Fin 64, ∀ h : j.val + 1 < 64,
    let a := unzigzag j
    let b := unzigzag ⟨j.val + 1, h⟩
    (rowOf a).val + (colOf a).val < (rowOf b).val + (colOf b).val ∨
    ((rowOf a).val + (colOf a).val = (rowOf b).val + (colOf b).val ∧
      if ((rowOf a).val + (colOf a).val) % 2 = 0 then (rowOf b).val < (rowOf a).val
      else (rowOf a).val < (rowOf b).val) := by decide +kernel

/-- R28: the reset divisor tables at their corners. -/
theorem test_qdef_corners :
    (qdef .luma)[(0 : Fin 64)] = 16 ∧ (qdef .luma)[(7 : Fin 64)] = 61 ∧ (qdef .luma)[(56 : Fin 64)] = 72 ∧
    (qdef .luma)[(63 : Fin 64)] = 99 ∧ (qdef .chroma)[(0 : Fin 64)] = 17 ∧ (qdef .chroma)[(3 : Fin 64)] = 47 := by
  decide +kernel

/-! ### The commands, against spec/95_test_vectors.md -/

/-- V-D-SYS-1. -/
theorem test_sysNop : (next (exec .sysNop { State.reset with result := 11 })).result = 11 := by decide +kernel

/-- V-D-SYS-2. -/
theorem test_sysSreset :
    let t := next (exec .sysSreset
      { State.reset with cf := 0x0200, rows := 24, qbaseLuma := bufOf 8 [99], pixi := bufOf 8 [0, 0, 0, 0, 0, 77] })
    t.cf = 0x0100 ∧ t.rows = 0 ∧ t.qbaseLuma[(0 : Fin 64)] = 16 ∧ t.pixi[(5 : Fin 64)] = 77 := by decide +kernel

/-- V-D-TW-1. -/
theorem test_twRd_signed : (next (exec (.twRd 1 7) State.reset)).result = 0xFFFF8276 := by decide +kernel

/-- V-D-TW-3. -/
theorem test_twRd_index :
    let t := next (exec (.twRd 8 0) State.reset)
    t.status = 0x21 ∧ t.errinfo = 0x10000080 ∧ t.result = 0 := by decide +kernel

/-- V-D-TW-2. -/
theorem test_twBasis_signed : (next (exec (.twBasis 1 0 7 0) State.reset)).result = 0xD39DBBEC := by decide +kernel

/-- V-D-TW-3. -/
theorem test_twBasis_index : (next (exec (.twBasis 15 0 0 0) State.reset)).errinfo = 0x1100F000 := by decide +kernel

/-- V-D-FD-3: row 1 of the transform of `X`. -/
theorem test_fdRun_row :
    let t := next (exec .fdRun { State.reset with pixi := blockX })
    ((List.finRange 8).map fun v => (t.fcoef[lin 1 v]).toInt) = [-43, -75, -24, -83, 5, -53, -81, 138] := by
  decide +kernel

/-- V-D-FD-2: column 0 of the transform of `G`. -/
theorem test_fdRun_column :
    let t := next (exec .fdRun { State.reset with pixi := blockG })
    ((List.finRange 8).map fun u => (t.fcoef[lin u 0]).toInt) = [992, -292, 0, -30, 0, -9, 0, -2] := by
  decide +kernel

/-- V-D-ID-4. -/
theorem test_idRun_row :
    let t := next (exec .idRun { State.reset with icoef := bufOf 32 (List.replicate 63 0 ++ [2040]) })
    ((List.finRange 8).map fun y => (t.samp[lin 1 y]).toInt) = [-55, 157, -236, 278, -278, 236, -157, 55] := by
  decide +kernel

/-- V-D-ID-2. -/
theorem test_idRun_saturates :
    (next (exec .idRun { State.reset with icoef := bufOf 32 [-2147483648] })).samp[(9 : Fin 64)] = 0x8000 := by
  decide +kernel

/-- V-D-QS-1. -/
theorem test_qsDiv_half_up :
    (next (exec (.qsDiv .luma 7 7) { State.reset with cf := 0x0180 })).result = 149 := by decide +kernel

/-- V-D-QS-2. -/
theorem test_qsDiv_largest :
    (next (exec (.qsDiv .chroma 7 7)
      { State.reset with cf := 0xFFFF, qbaseChroma := bufOf 8 (List.replicate 64 255) })).result = 65279 := by
  decide +kernel

/-- V-D-QS-3. -/
theorem test_qsBuild_row :
    let t := next (exec (.qsBuild .luma) { State.reset with cf := 0x0280 })
    ((List.finRange 8).map fun v => (t.div[lin 0 v]).toNat) = [40, 28, 25, 40, 60, 100, 128, 153] := by decide +kernel

/-- V-D-QS-3. -/
theorem test_qsBuild_chroma :
    ((next (exec (.qsBuild .chroma) State.reset)).div[lin 0 3]).toNat = 47 := by decide +kernel

/-- V-D-ZZ-1. -/
theorem test_zzFwd : (next (exec (.zzFwd 7 0) State.reset)).result = 35 := by decide +kernel

/-- V-D-ZZ-2. -/
theorem test_zzInv : (next (exec (.zzInv 17) State.reset)).result = 19 := by decide +kernel

/-- V-D-ZZ-3. -/
theorem test_zzScan :
    let t := next (exec .zzScan { State.reset with qco := tabulate fun i => BitVec.ofNat 16 i.val })
    ((List.finRange 16).map fun i => (t.scan[i.val]'(by omega)).toNat) =
      [0, 1, 8, 16, 9, 2, 3, 10, 17, 24, 32, 25, 18, 11, 4, 5] := by decide +kernel

/-- V-D-ZZ-3, the row `u = 2` of the zig-zag table. -/
theorem test_zzUnscan :
    let t := next (exec .zzUnscan { State.reset with scan := tabulate fun i => BitVec.ofNat 16 i.val })
    ((List.finRange 8).map fun v => (t.qco[lin 2 v]).toNat) = [3, 8, 12, 17, 25, 30, 41, 43] := by decide +kernel

/-- V-D-BC-1. -/
theorem test_bcQuant :
    let t := next (exec .bcQuant
      { State.reset with
        fcoef := bufOf 12 [24, -24, 8, -8, 7, 1032, 2040, 2040, 2040, -1020, 5]
        div := bufOf 16 [16, 16, 16, 16, 16, 16, 1, 4079, 4081, 65279, 0] })
    ((List.finRange 11).map fun i => (t.qco[i.val]'(by omega)).toInt) = [2, -2, 1, -1, 0, 65, 2040, 1, 0, 0, 5] := by
  decide +kernel

/-- V-D-BC-2. -/
theorem test_bcDeq :
    let t := next (exec .bcDeq
      { State.reset with qco := bufOf 16 [-13, -32768, 32767], div := bufOf 16 [11, 65279, 65279] })
    ((List.finRange 3).map fun i => (t.icoef[i.val]'(by omega)).toInt) = [-143, -2139062272, 2138996993] := by
  decide +kernel

/-- V-D-BC-2. -/
theorem test_bcClamp :
    let t := next (exec .bcClamp
      { State.reset with samp := bufOf 16 [-72, -1, 0, 128, 255, 256, 317, 32767, -32768] })
    ((List.finRange 9).map fun i => (t.pixo[i.val]'(by omega)).toNat) = [0, 0, 0, 128, 255, 255, 255, 255, 0] := by
  decide +kernel

/-- V-D-BC-4: a flat Chroma block of 255. -/
theorem test_bcFwd_flat :
    (next (exec (.bcFwd .chroma) { State.reset with pixi := tabulate fun _ => 255 })).dcout = 120 := by
  decide +kernel

/-- V-D-BC-4: the flat Luma block of 255 comes back clamped. -/
theorem test_bcInv_flat :
    let t := next (exec (.bcInv .luma)
      { State.reset with dcin := 128, accnt := 63, acin := tabulate fun _ => 0 })
    t.icoef[(0 : Fin 64)] = 2048 ∧ t.samp[(9 : Fin 64)] = 256 ∧ t.pixo[(9 : Fin 64)] = 255 ∧ t.accnt = 0 := by
  decide +kernel

/-- V-D-BC-6. -/
theorem test_bcInv_malformed :
    let t := next (exec (.bcInv .luma) (counted 62))
    t.status = 0x31 ∧ t.errinfo = 0x64000000 ∧ t.accnt = 62 := by decide +kernel

/-- R119. -/
theorem test_bcAcclr : (next (exec .bcAcclr (counted 64))).accnt = 0 := by decide +kernel

/-- V-D-BC-6: a push keeps the low 16 bits and the count stops at 127. -/
theorem test_acpush :
    (pushAc 0x0001FFFF (counted 62)).acin[(62 : Fin 63)] = 0xFFFF ∧ (pushAc 1 (counted 127)).accnt = 127 := by
  decide +kernel

theorem sized_ok : dimsOk (sized 8 8) = true := by
  have h : ¬Config.maxBlocks < 1 := by
    unfold Config.maxBlocks
    omega
  simpa [dimsOk, sized, State.blockCount, State.blockRows, State.blockCols] using h

/-- V-D-IT-1. -/
theorem test_itEncode_dimensions :
    let t := next (exec .itEncode (sized 12 16))
    t.status = 0x11 ∧ t.errinfo = 0x70000000 := by decide +kernel

/-- V-D-BC-4 through R130 on an image of one block, every pixel 128: the Luma DC value 64, the lengths 1 and 63. -/
theorem test_itEncode_block :
    let t := next (exec .itEncode { sized 8 8 with imgi := (List.range 192).map fun i => (i, 128) })
    t.dcs[(0 : Fin 3)] = [(0, 64)] ∧ t.dclen = Vector.replicate 3 1 ∧ t.aclen = Vector.replicate 3 63 := by
  have h : dimsOk { sized 8 8 with imgi := (List.range 192).map fun i => (i, 128) } = true := sized_ok
  rw [exec_itEncode rfl, if_pos h]
  decide +kernel

/-- R133, R135: no block, lengths 0: the pass completes with its cursors at 0 and stores nothing. -/
theorem test_itDecode_empty :
    (next (exec .itDecode { sized 0 16 with acidx := #v[5, 5, 5] })).acidx = Vector.replicate 3 0 ∧
    (next (exec .itDecode { sized 0 16 with acidx := #v[5, 5, 5] })).imgo = [] := by
  have h : dimsOk { sized 0 16 with acidx := #v[5, 5, 5] } = true := by
    simp [dimsOk, sized, State.blockCount, State.blockRows, State.blockCols]
  have hl : lengthsOk { sized 0 16 with acidx := #v[5, 5, 5] } = true := by decide +kernel
  rw [exec_itDecode rfl, if_pos h, if_pos hl]
  decide +kernel

/-- V-D-IT-2, on one block. -/
theorem test_itDecode_malformed :
    (next (exec .itDecode { sized 8 8 with dclen := Vector.replicate 3 1, aclen := #v[63, 63, 62] })).status = 0x31 := by
  have h : dimsOk { sized 8 8 with dclen := Vector.replicate 3 1, aclen := #v[63, 63, 62] } = true := sized_ok
  rw [exec_itDecode rfl, if_pos h]
  decide +kernel

/-! ### The host's transactions and the step -/

/-- V-D-REG-1. -/
theorem test_reg_extends :
    readReg 0x005 (writeReg 0x005 0x12345 State.reset) = 0x2345 ∧
    readReg 0x040 (writeReg 0x040 0x1FF State.reset) = 0xFF ∧
    readReg 0x100 (writeReg 0x100 0x8000 State.reset) = 0xFFFF8000 ∧
    readReg 0x1C0 (writeReg 0x1C0 0xFFFFFFFF State.reset) = 0xFFFFFFFF := by decide +kernel

/-- V-D-REG-1. -/
theorem test_reg_constants :
    readReg 0x003 State.reset = 0 ∧ readReg 0x00C State.reset = 0 ∧ readReg 0x000 State.reset = 0x53524950 ∧
    readReg 0x000 (writeReg 0x000 0 State.reset) = 0x53524950 := by decide +kernel

/-- V-D-REG-2. -/
theorem test_mem_extends :
    hostRead 3 0 (hostWrite 3 0 0x18000 State.reset) = 0xFFFF8000 ∧ hostRead 9 0 State.reset = 0 := by
  decide +kernel

/-- V-D-REG-3. -/
theorem test_fault_state :
    (next (perform (.wr 0x005 0x0200) faultedState)).cf = 0x0100 ∧
    (next (perform (.wr 0x003 0xFFFFFFFF) faultedState)).errinfo = 0x10000080 ∧
    (next (perform (.wr 0x003 0x01000000) faultedState)).status = 0 := by decide +kernel

/-- V-D-SYS-3, through the step: the host writes an illegal word to `CMD`. -/
theorem test_step_illegal :
    let t := next (step (State.reset.withFetchWord 32 0x01000001))
    t.status = 0x41 ∧ t.errinfo = 0x01000001 ∧ t.inbox = [] := by decide +kernel

/-- A fetched word runs as the first command after reset (R16, R22), and the port answers (R179). -/
theorem test_step_runs :
    let t := next (step (State.reset.withFetchWord 32 0x10000010))
    t.result = 0x7D8A ∧ t.outputs.hReady = true ∧ t.outputs.hRdata = none := by decide +kernel

/-- R165 to R167: `rst_n` low is one step that resets the registers and loses the memories. -/
theorem test_step_reset :
    let s := { State.reset with cf := 1, imgi := [(0, 9)], inbox := [{ Pins.quiet with rstN := false }] }
    (next (step s)).cf = 0x0100 ∧ (next (step s)).imgi = [] ∧ (next (step s)).epoch = 1 := by decide +kernel

/-- R179: the two ports never carry a transaction together. -/
theorem test_step_refuses :
    step { State.reset with inbox := [{ Pins.quiet with hValid := true, mValid := true }] } =
      .refused .hostPresentsBothPorts := rfl

/-- R58: the lines of `SETDIM`. -/
theorem test_pseudo_setdim : (Pseudo.setdim 16 24).expand = [.wr 0x006 16, .wr 0x007 24] := by decide +kernel

/-! ### Witnesses: for every statement with hypotheses, a state and operands that meet them -/

theorem witness_DecodeOfEncode :
    WellFormed (.twRd 15 15) ∧ WellFormed (.twBasis 15 15 15 15) ∧ WellFormed (.qsDiv .chroma 15 15) ∧
    WellFormed (.zzFwd 7 7) ∧ WellFormed (.zzInv 63) ∧ WellFormed (.bcInv .luma) := by decide

theorem witness_EncodeOfDecode :
    decode 0x1100FFFF = .command (.twBasis 15 15 15 15) ∧ decode 0x00000000 = .command .sysNop := by decide

theorem witness_NoWordMatchesTwoRows :
    ∃ r ∈ opcodeMap, r.accepts 0x100000FF = true ∧ r.mnemonic = "TW.RD" := by decide

theorem witness_IllegalWordsFault :
    decode 0x80000000 = .illegal .reservedUnit ∧ decode 0x65000001 = .illegal .nonzeroArgBit ∧
    WellFormed (.twRd 8 0) ∧ indexOutOfRange (.twRd 8 0) ∧ WellFormed (.qsDiv .luma 0 15) ∧
    indexOutOfRange (.qsDiv .luma 0 15) ∧ State.reset.faulted = false := by decide

theorem witness_RegisterAccessFollowsTheMap :
    regAt 0x00C = none ∧ regAt 0x1BF = none ∧ regAt 0x300 = none ∧ regAt 0xFFF = none ∧
    faultedState.faulted = true ∧ State.reset.faulted = false ∧
    ((0x005 : BitVec 12) ≠ cmdIndex ∧ ((0x003 : BitVec 12) ≠ cmdIndex ∨ (0x01000001 : Word) ≠ 0x01000000)) ∧
    (regAt 0x000 = some .id ∧ Reg.id.access = .ro) ∧ (regAt 0x003 = some .cmd ∧ Reg.cmd.access = .wo) ∧
    (regAt 0x1FF = some (.icoef 63) ∧ (Reg.icoef 63).access = .rw) ∧
    (regAt 0x2FF = some (.qbase .chroma 63) ∧ (Reg.qbase .chroma 63).access = .rw) := by decide

theorem witness_StepRunsTheDecodedCommand :
    (facing [.wr cmdIndex 0x10000010]).faulted = false ∧ decode 0x10000010 = .command (.twRd 1 0) ∧
    (facing [.wr cmdIndex 0x10000010]).inbox = [(Transaction.wr cmdIndex 0x10000010).pins] := by decide +kernel

theorem witness_StepServesOneTransaction :
    (facing [.rd 0x001]).inbox = [(Transaction.rd 0x001).pins] ∧
    ((0x005 : BitVec 12) ≠ cmdIndex ∧ (facing [.wr 0x005 7]).inbox = [(Transaction.wr 0x005 7).pins]) ∧
    (facing [.mr 2 0]).inbox = [(Transaction.mr 2 0).pins] ∧
    (facing [.mw 7 0 1, .rd 0]).inbox = (Transaction.mw 7 0 1).pins :: [(Transaction.rd 0).pins] ∧
    State.reset.inbox = [] := by decide +kernel

theorem witness_PortsCarryTheHostsRequests :
    let both : Pins := { Pins.quiet with hValid := true, mValid := true }
    let low : Pins := { Pins.quiet with rstN := false }
    (both.rstN = true ∧ both.hValid = true ∧ both.mValid = true ∧
      { State.reset with inbox := [both] }.inbox = [both]) ∧
    let lowBoth : Pins := { both with rstN := false }
    (low.rstN = false ∧ { State.reset with inbox := [low, both] }.inbox = low :: [both]) ∧
    (lowBoth.rstN = false ∧ lowBoth.hValid = true ∧ lowBoth.mValid = true ∧
      { State.reset with inbox := [lowBoth] }.inbox = [lowBoth]) := by decide +kernel

theorem witness_FaultStateRefusesAllButSreset :
    let s := fun t : Transaction => { faultedState with inbox := [t.pins] }
    (s (.rd 0)).faulted = true ∧ (s (.wr cmdIndex 0x01000000)).inbox = [(Transaction.wr cmdIndex 0x01000000).pins] ∧
    ((0x005 : BitVec 12) ≠ cmdIndex ∧ (s (.wr 0x005 1)).inbox = [(Transaction.wr 0x005 1).pins]) ∧
    (s (.rd 0)).inbox = [(Transaction.rd 0).pins] ∧ (s (.mr 0 0)).inbox = [(Transaction.mr 0 0).pins] ∧
    (s (.mw 0 0 9)).inbox = [(Transaction.mw 0 0 9).pins] := by decide +kernel

/-- For the statements whose only hypothesis is that the core is not in the fault state: NopChangesNothing has none;
AcPushFillsTheStagingBuffer at the counts 62, 63 and 127; PseudoInstructionsLoadTheirTargets,
FdRunIsTheRoundedDoubleSum, IdRunIsTheSaturatedDoubleSum, QsBuildGivesAllDivisors, ScanAndUnscanMoveEveryElement,
ScanAndUnscanUndoEachOther, BcQuantDividesAndRounds, DeqIsExactAndClampIsInRange, BcFwdIsTheStepSequence,
AcclrRestartsTheStaging, the clause about `BC.FWD` in EncodeFillsTheStreams; and, at the count 63, the clause about
`BC.INV` in DecodeFillsTheImage. -/
theorem witness_not_faulted :
    State.reset.faulted = false ∧ (counted 62).faulted = false ∧ (counted 63).faulted = false ∧
    (counted 127).faulted = false := by decide

theorem witness_MemoryReadAfterWrite :
    spaceOfSel 8 = none ∧ spaceOfSel 15 = none ∧ spaceOfSel 0 = some .imgi ∧ spaceOfSel 7 = some (.acs 2) ∧
    (0 : Word).toNat < spaceSize .imgi ∧ (62 : Word).toNat < spaceSize (.acs 2) ∧
    spaceSize (.dcs 0) ≤ (0xFFFFFFFF : Word).toNat ∧ ((3 : BitVec 4) ≠ 0 ∧ (1 : Word) ≠ 0) ∧
    (191 : Word).toNat < 192 * Config.maxBlocks ∧ (0 : Word).toNat < Config.maxBlocks ∧
    (62 : Word).toNat < 63 * Config.maxBlocks := by
  have h : 1 ≤ Config.maxBlocks ∧ Config.maxBlocks ≤ 67092481 := by
    have := Config.maxBlocksLessOne.isLt
    unfold Config.maxBlocks
    omega
  refine ⟨by decide, by decide, by decide, by decide, ?_, ?_, ?_, by decide, ?_, ?_, ?_⟩
  · show 0 < 192 * Config.maxBlocks
    omega
  · show 62 < 63 * Config.maxBlocks
    omega
  · show Config.maxBlocks ≤ 4294967295
    omega
  · show 191 < 192 * Config.maxBlocks
    omega
  · show 0 < Config.maxBlocks
    omega
  · show 62 < 63 * Config.maxBlocks
    omega

theorem witness_CommandsAreRefusedWhileFaulted : Instr.itEncode ≠ .sysSreset ∧ faultedState.faulted = true := by decide

theorem witness_CommandFaultsArePrecise :
    commandFault (.twRd 8 0) State.reset = some .invalidIndex ∧ commandFault (.twRd 7 7) State.reset = none ∧
    commandFault (.twBasis 0 0 0 15) State.reset = some .invalidIndex ∧
    commandFault (.bcInv .luma) (counted 62) = some .malformedStream ∧
    commandFault (.bcInv .luma) (counted 64) = some .malformedStream ∧
    commandFault (.bcInv .luma) (counted 63) = none ∧
    commandFault .itEncode (sized 12 16) = some .invalidDimensions ∧ commandFault .itEncode (sized 8 8) = none ∧
    commandFault .itDecode (sized 16 20) = some .invalidDimensions ∧
    commandFault .itDecode (sized 8 8) = some .malformedStream ∧ commandFault .itDecode (sized 0 0) = none := by
  have h0 : dimsOk (sized 0 0) = true := by
    simp [dimsOk, sized, State.blockCount, State.blockRows, State.blockCols]
  have h1 : lengthsOk (sized 0 0) = true := by decide +kernel
  have h2 : lengthsOk (sized 8 8) = false := by decide +kernel
  refine ⟨by decide, by decide, by decide, by decide, by decide, by decide, by decide +kernel, ?_, by decide +kernel,
    ?_, ?_⟩
  · show (if dimsOk (sized 8 8) then none else some FaultKind.invalidDimensions) = none
    rw [if_pos sized_ok]
  · show (if dimsOk (sized 8 8) then if lengthsOk (sized 8 8) then none else some FaultKind.malformedStream
      else some FaultKind.invalidDimensions) = some .malformedStream
    rw [if_pos sized_ok, h2]
    rfl
  · show (if dimsOk (sized 0 0) then if lengthsOk (sized 0 0) then none else some FaultKind.malformedStream
      else some FaultKind.invalidDimensions) = none
    rw [if_pos h0, if_pos h1]

theorem witness_OnlyResetsLeaveTheFaultState :
    let s := { faultedState with inbox := [(Transaction.wr cmdIndex 0x01000000).pins] }
    s.faulted = true ∧ step s = .next (next (step s)) ∧ (next (step s)).faulted = false := by
  refine ⟨rfl, ?_, by decide +kernel⟩
  rfl

theorem witness_TwRdReadsTheRom :
    State.reset.faulted = false ∧ (7 : Nat) < 16 ∧ (15 : Nat) < 16 ∧ (7 : Nat) < 8 ∧ (7 < 8 ∨ 7 < 15) := by decide

theorem witness_TwBasisIsTheExactProduct :
    State.reset.faulted = false ∧ (0 : Nat) < 16 ∧ (8 : Nat) < 16 ∧ (0 : Nat) < 8 ∧
    (7 < 0 ∨ 7 < 8 ∨ 7 < 0 ∨ 7 < 0) := by decide

theorem witness_RoundingIsOdd_RoundingIsToNearest : 1 ≤ 1 ∧ 1 ≤ 65279 := by decide

theorem witness_ForwardBounds :
    isPixelBlock (fun _ _ => 0) ∧ isPixelBlock (fun _ _ => 255) ∧ ((0 : Fin 8) ≠ 0 ∨ (4 : Fin 8) ≠ 0) ∧
    ((4 : Fin 8), (4 : Fin 8)) ∈ [((0 : Fin 8), (4 : Fin 8)), (4, 0), (4, 4)] := by
  refine ⟨fun _ _ => ⟨?_, ?_⟩, fun _ _ => ⟨?_, ?_⟩, by decide, by decide⟩ <;> norm_num

theorem witness_FlatBlockHasOnlyDc_DcOnlyMatrixIsFlat :
    ((1 : Fin 8) ≠ 0 ∨ (0 : Fin 8) ≠ 0) ∧ ((0 : Int) ≤ 0 ∧ (0 : Int) ≤ 255) ∧ ((0 : Int) ≤ 255 ∧ (255 : Int) ≤ 255) := by
  decide

theorem witness_InverseBounds : isWordMatrix (fun _ _ => -2 ^ 31) ∧ isWordMatrix (fun _ _ => 2 ^ 31 - 1) := by
  refine ⟨fun _ _ => ⟨?_, ?_⟩, fun _ _ => ⟨?_, ?_⟩⟩ <;> norm_num

theorem witness_RoundTripIsWithinFour : isPixelBlock (unsignedMatrix blockX) :=
  fun x y => by
    have := (blockX[lin x y]).isLt
    simp only [unsignedMatrix]
    omega

theorem witness_QsDivGivesOneDivisor :
    State.reset.faulted = false ∧ (7 : Nat) < 16 ∧ (15 : Nat) < 16 ∧ (7 : Nat) < 8 ∧ (7 < 7 ∨ 7 < 15) := by decide

theorem witness_DivisorGrowsWithFactor : (0x00FF : BitVec 16).toNat ≤ (0x0100 : BitVec 16).toNat := by decide

theorem witness_DivisorAtFactorsOneAndZero :
    State.reset.cf = 0x0100 ∧ { State.reset with cf := 0 }.cf = 0 ∧
    ((State.reset.qbase .luma)[lin 0 0].toNat * (1 : BitVec 16).toNat + 128) / 256 = 0 := by decide +kernel

theorem witness_ZigzagLookupsAreInverse :
    State.reset.faulted = false ∧ (0 : Nat) < 8 ∧ (7 : Nat) < 8 ∧ (0 : Nat) < 64 ∧ (63 : Nat) < 64 := by decide

theorem witness_ScanAndUnscanUndoEachOther : zigzag 0 1 ≠ 0 ∧ zigzag 7 7 ≠ 0 := by decide

theorem witness_QuantisationErrorIsHalfADivisor :
    ∃ s t u : State, s.faulted = false ∧ exec .fdRun s = .next t ∧ t.faulted = false ∧ exec .bcQuant t = .next u :=
  ⟨State.reset, _, _, rfl, exec_fdRun rfl, rfl, exec_bcQuant rfl⟩

theorem witness_BcInvIsTheStepSequence :
    State.reset.faulted = false ∧ State.reset.accnt.toNat ≠ 63 ∧ (counted 64).accnt.toNat ≠ 63 ∧
    (counted 63).accnt.toNat = 63 := by decide

theorem witness_FlatBlockThroughTheEngine :
    (let s := { State.reset with pixi := tabulate fun _ => 128 }
     s.faulted = false ∧ ∀ i : Fin 64, s.pixi[i] = 128) ∧
    (let s := { State.reset with accnt := 63, acin := tabulate fun _ => 0, dcin := 64 }
     s.faulted = false ∧ s.accnt.toNat = 63 ∧ (∀ i : Fin 63, s.acin[i] = 0) ∧
      s.dcin.toInt = rdiv (8 * ((128 : BitVec 8).toNat : Int)) (divisor s .luma 0 0) ∧
      divisor s .luma 0 0 ∣ 8 * (128 : BitVec 8).toNat) := by decide +kernel

/-- The state in which the host has given back what `BC.FWD` left in `t`. -/
def fedBack (t : State) : State :=
  { State.reset with cf := 0, dcin := t.dcout, acin := tabulate fun i => t.scan[i.val + 1], accnt := 63 }

theorem fedBack_meets (t : State) :
    (fedBack t).dcin = t.dcout ∧ (∀ i : Fin 63, (fedBack t).acin[i] = t.scan[i.val + 1]) ∧
    (fedBack t).accnt.toNat = 63 ∧ (fedBack t).faulted = false ∧ (fedBack t).cf = 0 ∧
    (fedBack t).qbase .luma = State.reset.qbase .luma :=
  ⟨rfl, fun i => by simp [fedBack], rfl, by simp [fedBack, State.faulted, State.reset], rfl, rfl⟩

/-- At factor 0 every divisor of the block is 1 (R97). -/
theorem div_one {s : State} (h : s.cf = 0) (cls : ChannelClass) (i : Fin 64) : (bcForward cls s).div[i] = 1 := by
  show (buildDivisors cls s).div[i] = 1
  simp [buildDivisors, bufOfMatrix, divisor, scaleDivisor, h]

theorem witness_EngineRoundTripError :
    ∃ s t u : State, s.faulted = false ∧ exec (.bcFwd .luma) s = .next t ∧ u.dcin = t.dcout ∧
      (∀ i : Fin 63, u.acin[i] = t.scan[i.val + 1]) ∧ u.accnt.toNat = 63 ∧ u.faulted = false ∧ u.cf = s.cf ∧
      u.qbase .luma = s.qbase .luma ∧ s.cf = 0 ∧ ∀ i : Fin 64, t.div[i] = 1 := by
  obtain ⟨t, ht, hdiv⟩ : ∃ t, exec (.bcFwd .luma) { State.reset with cf := 0 } = .next t ∧ ∀ i : Fin 64, t.div[i] = 1 :=
    ⟨_, exec_bcFwd rfl .luma, div_one rfl .luma⟩
  obtain ⟨h₁, h₂, h₃, h₄, h₅, h₆⟩ := fedBack_meets t
  exact ⟨{ State.reset with cf := 0 }, t, fedBack t, rfl, ht, h₁, h₂, h₃, h₄, h₅, h₆, rfl, hdiv⟩

theorem witness_EncodeFillsTheStreams :
    (sized 8 8).faulted = false ∧ dimsOk (sized 8 8) = true ∧ dimsOk (sized 0 0) = true ∧
    0 < (sized 8 8).blockRows ∧ 0 < (sized 8 8).blockCols ∧ 0 < (sized 8 8).blockCount ∧
    (sized 0 0).blockCount = 0 := by
  refine ⟨rfl, sized_ok, ?_, by decide, by decide, by decide, by decide⟩
  simp [dimsOk, sized, State.blockCount, State.blockRows, State.blockCols]

theorem witness_DecodeFillsTheImage :
    let s := { sized 8 8 with dclen := Vector.replicate 3 1, aclen := Vector.replicate 3 63 }
    s.faulted = false ∧ dimsOk s = true ∧ lengthsOk s = true ∧ 0 < s.blockRows ∧ 0 < s.blockCols ∧
    191 < 3 * s.rows.toNat * s.cols.toNat ∧ 3 * s.rows.toNat * s.cols.toNat ≤ 192 ∧ 0 < s.blockCount ∧
    (dimsOk (sized 0 0) = true ∧ lengthsOk (sized 0 0) = true ∧ (sized 0 0).blockCount = 0) := by
  refine ⟨rfl, sized_ok, by decide +kernel, by decide, by decide, by decide, by decide, by decide, ?_, by decide +kernel,
    by decide⟩
  simp [dimsOk, sized, State.blockCount, State.blockRows, State.blockCols]

theorem witness_CommandsKeepTheirInputs_OnlyTheirCommands :
    exec .fdRun State.reset = .next (transformForward State.reset) ∧ Instr.fdRun ≠ .sysSreset ∧
    (∀ k n, Instr.fdRun ≠ .twRd k n) ∧ (∀ u v x y, Instr.fdRun ≠ .twBasis u v x y) ∧
    (∀ cls u v, Instr.fdRun ≠ .qsDiv cls u v) ∧ (∀ u v, Instr.fdRun ≠ .zzFwd u v) ∧
    (∀ pos, Instr.fdRun ≠ .zzInv pos) ∧ Instr.fdRun ≠ .itEncode ∧ Instr.fdRun ≠ .itDecode := by
  refine ⟨exec_fdRun rfl, ?_⟩
  simp

/-- A state that meets the invariant, and a step from it; the state is not the reset state. -/
theorem witness_StepKeepsTheInvariant_StatusFieldsAgree :
    (raiseFault .invalidIndex 0x10000080 (hardReset State.reset)).Inv ∧
    step (raiseFault .invalidIndex 0x10000080 (hardReset State.reset)) =
      .next (answerNone (raiseFault .invalidIndex 0x10000080 (hardReset State.reset))) := by
  refine ⟨⟨memoriesOk_congr (memoriesOk_hardReset State.reset) rfl rfl rfl rfl, ?_⟩, step_nil rfl⟩
  exact .inr (.inr (.inl ⟨rfl, .twRd 8 0, by decide, rfl⟩))

end Sys2Proof.Machine.Tests
end

/-! PROOF. The two rounding functions of spec/00_scope.md R10: `rnd32` is `rdiv` by 2^32, so oddness (R11) and
rounding to nearest are proved once, for `rdiv`, and there once for the integers that are not negative. -/

namespace Sys2Proof.Machine

/-- R10 writes `rnd32` with the half 2^31 where `rdiv` doubles the dividend; the two agree. -/
theorem rnd32_eq_rdiv (a : Int) : rnd32 a = rdiv a (2 ^ 32) := by
  have hquot : (a.natAbs + 2 ^ 31) / 2 ^ 32 = (2 * a.natAbs + 2 ^ 32) / (2 * 2 ^ 32) := by omega
  rw [rnd32, rdiv, hquot]

theorem rdiv_natCast (n d : Nat) : rdiv n d = ((2 * n + d) / (2 * d) : Nat) := by
  have hsgn : sgn n = 1 := if_neg (by omega)
  rw [rdiv, hsgn, one_mul, Int.natAbs_natCast]

@[simp] theorem rdiv_zero (d : Nat) : rdiv 0 d = 0 := by
  have hquot : d / (2 * d) = 0 := by
    rw [Nat.div_eq_zero_iff]
    omega
  simpa [hquot] using rdiv_natCast 0 d

theorem sgn_neg {a : Int} (ha : a ≠ 0) : sgn (-a) = -sgn a := by
  unfold sgn
  split <;> split <;> omega

/-- R11 for `rdiv`; `sgn` itself is not odd at 0, where the quotient is 0. -/
theorem rdiv_neg (a : Int) (d : Nat) : rdiv (-a) d = -rdiv a d := by
  by_cases ha : a = 0
  · simp [ha]
  · rw [rdiv, rdiv, sgn_neg ha, Int.natAbs_neg, neg_mul]

/-- The scaled quotient of a natural number lies within half a divisor of it, the upper end included. -/
theorem mul_rdiv_natCast_bounds (n : Nat) {d : Nat} (hd : 1 ≤ d) :
    2 * (n : Int) - d < 2 * (d * rdiv n d) ∧ 2 * (d * rdiv n d) ≤ 2 * (n : Int) + d := by
  have hlow := Nat.mul_div_le (2 * n + d) (2 * d)
  have hhigh := Nat.lt_mul_div_succ (2 * n + d) (show 0 < 2 * d by omega)
  rw [rdiv_natCast, ← Nat.cast_mul]
  rw [mul_add, mul_one, mul_assoc] at hhigh
  rw [mul_assoc] at hlow
  omega

/-- R10 for `rdiv`: to nearest, and at exactly half a divisor away from zero. -/
theorem rdiv_nearest (a : Int) {d : Nat} (hd : 1 ≤ d) :
    2 * ((d : Int) * rdiv a d - a).natAbs ≤ d ∧
      (2 * ((d : Int) * rdiv a d - a).natAbs = d → a.natAbs < ((d : Int) * rdiv a d).natAbs) := by
  obtain ⟨n, rfl | rfl⟩ := a.eq_nat_or_neg <;> obtain ⟨hlow, hhigh⟩ := mul_rdiv_natCast_bounds n hd
  · omega
  · rw [rdiv_neg, mul_neg]
    omega

/-- Settles O24: `rdiv` is odd, and `rnd32` is `rdiv` by 2^32. -/
theorem roundingIsOdd : Obligations.RoundingIsOdd := by
  refine ⟨fun a => ?_, fun a d _ => rdiv_neg a d⟩
  rw [rnd32_eq_rdiv, rnd32_eq_rdiv, rdiv_neg]

/-- Settles O25: `rdiv` rounds to nearest, and `rnd32` is its case of the divisor 2^32. -/
theorem roundingIsToNearest : Obligations.RoundingIsToNearest := by
  refine ⟨fun a => ?_, fun a d hd => rdiv_nearest a hd⟩
  rw [rnd32_eq_rdiv]
  exact rdiv_nearest a (d := 2 ^ 32) (by norm_num)

end Sys2Proof.Machine

/-! PROOF. What each command does, said once for all of them: outside the fault state a command has its own effect
unless the table R162 gives it a fault. -/

namespace Sys2Proof.Machine

variable {s t : State} {i : Instr}

/-- Every command but `SYS.SRESET` tests `STATUS.FAULT` first (R30, R152). -/
theorem exec_faulted (hi : i ≠ .sysSreset) (h : s.faulted = true) : exec i s = .next s := by
  cases i with
  | sysSreset => exact absurd rfl hi
  | _ => unfold exec; exact runCommand_faulted h

/-- What a command does when nothing stops it: the state it leaves outside the fault state where the table R162 gives
it no fault. -/
def effect : Instr → State → State
  | .sysNop, s => s
  | .sysSreset, s => softReset s
  | .twRd k n, s => setResult (BitVec.ofInt 32 (twiddle (toIndex k) (toIndex n))) s
  | .twBasis u v x y, s => setResult (BitVec.ofInt 32 (basis (toIndex u) (toIndex v) (toIndex x) (toIndex y))) s
  | .fdRun, s => transformForward s
  | .idRun, s => transformInverse s
  | .qsDiv cls u v, s => setResult (BitVec.ofNat 32 (divisor s cls (toIndex u) (toIndex v))) s
  | .qsBuild cls, s => buildDivisors cls s
  | .zzFwd u v, s => setResult (BitVec.ofNat 32 (zigzag (toIndex u) (toIndex v)).val) s
  | .zzInv pos, s => setResult (BitVec.ofNat 32 (unzigzag (Fin.ofNat 64 pos)).val) s
  | .zzScan, s => scanBlock s
  | .zzUnscan, s => unscanBlock s
  | .bcQuant, s => quantise s
  | .bcDeq, s => dequantise s
  | .bcClamp, s => clampSamples s
  | .bcFwd cls, s => bcForward cls s
  | .bcInv cls, s => clearAccnt (bcInverse cls (loadScan s))
  | .bcAcclr, s => clearAccnt s
  | .itEncode, s => setLengths (runPass encodeBlock (zeroCursors s))
  | .itDecode, s => runPass decodeBlock (zeroCursors s)

/-- The index checks of R67, R68 and R92 are the table's `InvalidIndex` column (R147). -/
theorem legalIndex_eq (n : Nat) : legalIndex n = !decide (7 < n) := by
  rw [legalIndex, ← decide_not, decide_eq_decide]
  omega

/-- Outside the fault state: the fault that the table R162 gives, else the command's own effect. -/
theorem exec_not_faulted (i : Instr) (h : s.faulted = false) :
    exec i s = (commandFault i s).elim (.next (effect i s)) fun k => .next (raiseFault k (encode i) s) := by
  cases i with
  | sysNop => exact exec_sysNop h
  | sysSreset => exact exec_sysSreset s
  | twRd k n =>
    have hl : (legalIndex k && legalIndex n) = !indexOutOfRange (.twRd k n) := by
      simp [indexOutOfRange, legalIndex_eq]
    rw [exec_twRd h, hl]
    cases hr : indexOutOfRange (.twRd k n) <;> simp [commandFault, hr, effect]
  | twBasis u v x y =>
    have hl : (legalIndex u && legalIndex v && legalIndex x && legalIndex y) =
        !indexOutOfRange (.twBasis u v x y) := by
      simp [indexOutOfRange, legalIndex_eq]
    rw [exec_twBasis h, hl]
    cases hr : indexOutOfRange (.twBasis u v x y) <;> simp [commandFault, hr, effect]
  | fdRun => exact exec_fdRun h
  | idRun => exact exec_idRun h
  | qsDiv cls u v =>
    have hl : (legalIndex u && legalIndex v) = !indexOutOfRange (.qsDiv cls u v) := by
      simp [indexOutOfRange, legalIndex_eq]
    rw [exec_qsDiv h, hl]
    cases hr : indexOutOfRange (.qsDiv cls u v) <;> simp [commandFault, hr, effect]
  | qsBuild cls => exact exec_qsBuild h cls
  | zzFwd u v => exact exec_zzFwd h u v
  | zzInv pos => exact exec_zzInv h pos
  | zzScan => exact exec_zzScan h
  | zzUnscan => exact exec_zzUnscan h
  | bcQuant => exact exec_bcQuant h
  | bcDeq => exact exec_bcDeq h
  | bcClamp => exact exec_bcClamp h
  | bcFwd cls => exact exec_bcFwd h cls
  | bcInv cls =>
    rw [exec_bcInv h]
    by_cases ha : s.accnt.toNat = 63 <;> simp [commandFault, indexOutOfRange, ha, effect]
  | bcAcclr => exact exec_bcAcclr h
  | itEncode =>
    rw [exec_itEncode h]
    cases hd : dimsOk s <;> simp [commandFault, indexOutOfRange, hd, effect]
  | itDecode =>
    rw [exec_itDecode h]
    cases hd : dimsOk s <;> cases hl : lengthsOk s <;> simp [commandFault, indexOutOfRange, hd, hl, effect]

/-- Everything a command can do: nothing in the fault state; the table's fault, with its own word; or its effect. -/
theorem exec_cases (h : exec i s = .next t) :
    (i ≠ .sysSreset ∧ s.faulted = true ∧ t = s) ∨
    (∃ k, s.faulted = false ∧ commandFault i s = some k ∧ t = raiseFault k (encode i) s) ∨
    ((i = .sysSreset ∨ s.faulted = false) ∧ commandFault i s = none ∧ t = effect i s) := by
  by_cases hi : i = .sysSreset
  · subst hi
    rw [exec_sysSreset] at h
    exact .inr (.inr ⟨.inl rfl, rfl, (Host.Outcome.next.inj h).symm⟩)
  · cases hf : s.faulted with
    | true =>
      rw [exec_faulted hi hf] at h
      exact .inl ⟨hi, rfl, (Host.Outcome.next.inj h).symm⟩
    | false =>
      rw [exec_not_faulted i hf] at h
      cases hc : commandFault i s with
      | some k =>
        rw [hc] at h
        exact .inr (.inl ⟨k, rfl, rfl, (Host.Outcome.next.inj h).symm⟩)
      | none =>
        rw [hc] at h
        exact .inr (.inr ⟨.inr rfl, rfl, (Host.Outcome.next.inj h).symm⟩)

/-- Settles O18: the first test of every command but `SYS.SRESET`. -/
theorem commandsAreRefusedWhileFaulted : Obligations.CommandsAreRefusedWhileFaulted :=
  fun _ _ hi h => exec_faulted hi h

/-- What no command writes (R43, R98, R137): what a fault leaves alone and every command's effect does too. -/
theorem effect_keeps_inputs (i : Instr) (s : State) :
    (effect i s).imgi = s.imgi ∧ (effect i s).acin = s.acin ∧ (effect i s).epoch = s.epoch ∧
    (effect i s).inbox = s.inbox ∧ (effect i s).outputs = s.outputs := by
  cases i <;> simp [effect]

/-- What only `SYS.SRESET` writes (R43, R98, R137). -/
theorem effect_keeps_parameters (hi : i ≠ .sysSreset) (s : State) :
    (effect i s).cf = s.cf ∧ (effect i s).rows = s.rows ∧ (effect i s).cols = s.cols ∧ (effect i s).dcin = s.dcin ∧
    ∀ cls, (effect i s).qbase cls = s.qbase cls := by
  cases i with
  | sysSreset => exact absurd rfl hi
  | _ => simp [effect]

/-- Settles O56: neither a fault nor a command's effect writes its inputs. -/
theorem commandsKeepTheirInputs : Obligations.CommandsKeepTheirInputs := by
  intro i s t h
  obtain ⟨-, -, rfl⟩ | ⟨k, -, -, rfl⟩ | ⟨-, -, rfl⟩ := exec_cases h
  · simp
  · simp
  · obtain ⟨himgi, hacin, hepoch, hinbox, houtputs⟩ := effect_keeps_inputs i s
    exact ⟨State.readImgi_congr himgi hepoch, himgi, hacin, hepoch, hinbox, houtputs,
      fun hi => effect_keeps_parameters hi s⟩

/-- Settles O57: a fault writes none of these, and each effect only its own. -/
theorem onlyTheirCommandsWriteResultAndStreams : Obligations.OnlyTheirCommandsWriteResultAndStreams := by
  intro i s t h hi
  obtain ⟨-, -, rfl⟩ | ⟨k, -, -, rfl⟩ | ⟨-, -, rfl⟩ := exec_cases h
  · simp
  · simp
  · cases i with
    | sysSreset => exact absurd rfl hi
    | itEncode => simp [effect, State.readImgo]
    | itDecode => simp [effect, State.readDcs, State.readAcs]
    | _ => simp [effect]

end Sys2Proof.Machine

/-! PROOF. Encoding undoes decoding (R51 to R54): the row that accepts a word gives its match bits, the operand fields
give the rest. -/

namespace Sys2Proof

/-- The bits of a field of a command word (R51, R52). -/
def fieldMask (lo len : Nat) : Word := (BitVec.allOnes len).setWidth 32 <<< lo

/-- A field put back where it was read are the word's bits there. -/
theorem place_field (w : Word) (lo len : Nat) : place (field w lo len) lo len = w &&& fieldMask lo len := by
  have hfield : BitVec.ofNat len (field w lo len) = w.extractLsb' lo len := by
    rw [field, BitVec.ofNat_toNat, BitVec.setWidth_eq]
  ext i hi
  by_cases hlo : i < lo
  · simp [place, fieldMask, hlo]
  · have hi' : lo + (i - lo) = i := by omega
    by_cases hlen : i - lo < len <;> simp [place, hfield, fieldMask, hlo, hlen, hi', hi]

/-- The class bit is the number its one-bit field spells (R52). -/
theorem classBit_bit (w : Word) (lo : Nat) : (classBit w lo).bit = field w lo 1 := by
  have hbit : w.extractLsb' lo 1 = BitVec.ofBool (w.getLsbD lo) := by
    ext i hi
    have : i = 0 := by omega
    simp [this]
  cases hb : w.getLsbD lo <;> simp [classBit, field, ChannelClass.bit, hbit, hb]

/-- Masks that cover the word together give it back. -/
theorem and_eq_self_of_eq_allOnes {w m : Word} (h : m = BitVec.allOnes 32) : w &&& m = w := by
  rw [h, BitVec.and_allOnes]

/-- The command a row builds from a word it accepts has that word: in every row, the mask and the operand fields cover
the 32 bits. -/
theorem encode_build {w : Word} : ∀ r ∈ opcodeMap, r.accepts w = true → encode (r.build w) = w := by
  simp only [opcodeMap, rowsSysToId, rowsQsZz, rowsBcIt, List.cons_append, List.nil_append, List.forall_mem_cons,
    List.not_mem_nil, IsEmpty.forall_iff, implies_true, and_true, Row.accepts, beq_iff_eq]
  and_intros
  all_goals
    intro hw
    simp only [encode, place_field, classBit_bit, ← hw, ← BitVec.and_or_distrib_left]
    exact and_eq_self_of_eq_allOnes (by decide)

/-- A word that decodes is the word of its command (R51 to R54). -/
theorem encode_of_decode {w : Word} {i : Instr} (h : decode w = .command i) : encode i = w := by
  unfold decode at h
  split at h
  · rename_i r hr
    rw [← Decoded.command.inj h]
    exact encode_build r (List.mem_of_find?_eq_some hr) (List.find?_some (p := fun r : Row => r.accepts w) hr)
  · cases h

end Sys2Proof

/-! PROOF. Every step keeps the invariant (R19, R20, R35, R38, R145, R150). -/

namespace Sys2Proof.Machine

variable {s t : State} {i : Instr}

/-! ### The fault record -/

/-- Which command may raise which fault (the table R162). -/
theorem commandFault_cases {k : FaultKind} (h : commandFault i s = some k) :
    (k = .invalidIndex ∧ indexOutOfRange i = true) ∨
    (k = .invalidDimensions ∧ (i = .itEncode ∨ i = .itDecode)) ∨
    (k = .malformedStream ∧ (i = .itDecode ∨ ∃ cls, i = .bcInv cls)) := by
  unfold commandFault at h
  split at h
  · rename_i hi
    exact .inl ⟨(Option.some.inj h).symm, hi⟩
  · cases i with
    | bcInv cls =>
      obtain ⟨-, hk⟩ := Option.ite_none_left_eq_some.1 h
      exact .inr (.inr ⟨(Option.some.inj hk).symm, .inr ⟨cls, rfl⟩⟩)
    | itEncode =>
      obtain ⟨-, hk⟩ := Option.ite_none_left_eq_some.1 h
      exact .inr (.inl ⟨(Option.some.inj hk).symm, .inl rfl⟩)
    | itDecode =>
      dsimp only at h
      split at h
      · obtain ⟨-, hk⟩ := Option.ite_none_left_eq_some.1 h
        exact .inr (.inr ⟨(Option.some.inj hk).symm, .inl rfl⟩)
      · exact .inr (.inl ⟨(Option.some.inj h).symm, .inr rfl⟩)
    | _ => cases h

/-- A fault records its kind and a word that can raise it. -/
theorem faultRecordOk_raiseFault {k : FaultKind} (hd : decode (encode i) = .command i)
    (h : commandFault i s = some k) : (raiseFault k (encode i) s).faultRecordOk := by
  simp only [State.faultRecordOk, raiseFault_status, raiseFault_errinfo, hd, Decoded.command.injEq]
  obtain ⟨rfl, hi⟩ | ⟨rfl, hi⟩ | ⟨rfl, hi⟩ := commandFault_cases h
  · exact .inr (.inr (.inl ⟨rfl, i, rfl, hi⟩))
  · exact .inr (.inl ⟨rfl, hi⟩)
  · exact .inr (.inr (.inr (.inl ⟨rfl, hi⟩)))

theorem faultRecordOk_congr (h : s.faultRecordOk) (hs : t.status = s.status) (he : t.errinfo = s.errinfo) :
    t.faultRecordOk := by
  unfold State.faultRecordOk at *
  rwa [hs, he]

/-! ### The cursors of a pass -/

theorem maxBlocks_le : Config.maxBlocks ≤ 67092481 := by
  have := Config.maxBlocksLessOne.isLt
  unfold Config.maxBlocks
  omega

/-- How many blocks of channel `l` the first `n` block steps of a pass take (R131). -/
def blocksDone (n : Nat) (l : Fin 3) : Nat := (n + 2 - l.val) / 3

/-- The cursors after `n` block steps of a pass (R130, R133). -/
def CursorsAt (n : Nat) (t : State) : Prop :=
  ∀ l : Fin 3, t.dcidx[l].toNat = blocksDone n l ∧ t.acidx[l].toNat = 63 * blocksDone n l

theorem blocksDone_succ (n : Nat) (l : Fin 3) :
    blocksDone (n + 1) l = if Fin.ofNat 3 n = l then blocksDone n l + 1 else blocksDone n l := by
  have hl : Fin.ofNat 3 n = l ↔ n % 3 = l.val := Fin.ext_iff
  simp only [blocksDone, hl]
  split <;> omega

/-- The channel of block step `n` has had as many blocks as have been finished. -/
theorem blocksDone_current (n : Nat) : blocksDone n (Fin.ofNat 3 n) = n / 3 := by
  simp only [blocksDone, Fin.val_ofNat]
  omega

theorem cursorsAt_zeroCursors (s : State) : CursorsAt 0 (zeroCursors s) := by
  intro l
  have hl : blocksDone 0 l = 0 := by simp only [blocksDone]; omega
  simp [hl]

/-- One block step counts one block of its channel, and no cursor wraps. -/
theorem cursorsAt_advanceCursors {n : Nat} (h : CursorsAt n t) (hn : n < Config.maxBlocks * 3) :
    CursorsAt (n + 1) (advanceCursors (Fin.ofNat 3 n) t) := by
  intro l
  obtain ⟨hd, ha⟩ := h l
  rw [blocksDone_succ]
  by_cases hl : Fin.ofNat 3 n = l
  · subst hl
    have hcap := maxBlocks_le
    have hone : (1 : Word).toNat = 1 := rfl
    have hstep : (63 : Word).toNat = 63 := rfl
    rw [blocksDone_current] at hd ha ⊢
    simp only [advanceCursors_dcidx, advanceCursors_acidx, Fin.getElem_fin, Vector.getElem_set_self, if_true,
      BitVec.toNat_add] at hd ha ⊢
    rw [hd, ha, hone, hstep]
    omega
  · have hl' : (Fin.ofNat 3 n).val ≠ l.val := fun h => hl (Fin.ext h)
    simp only [hl, if_false, advanceCursors_dcidx, advanceCursors_acidx, Fin.getElem_fin,
      Vector.getElem_set_ne _ _ hl'] at hd ha ⊢
    exact ⟨hd, ha⟩

/-- The cursors say all that `CursorsAt` does. -/
theorem cursorsAt_congr {n : Nat} {u : State} (h : CursorsAt n t) (hd : u.dcidx = t.dcidx) (ha : u.acidx = t.acidx) :
    CursorsAt n u := by
  unfold CursorsAt
  rwa [hd, ha]

theorem encodeBlock_dcidx (br bc : Nat) (k : Fin 3) (s : State) :
    (encodeBlock br bc k s).dcidx = (advanceCursors k s).dcidx := by simp [encodeBlock]

theorem encodeBlock_acidx (br bc : Nat) (k : Fin 3) (s : State) :
    (encodeBlock br bc k s).acidx = (advanceCursors k s).acidx := by simp [encodeBlock]

/-! ### The memories -/

theorem dimsOk_iff : dimsOk s = true ↔
    s.rows.toNat % 8 = 0 ∧ s.cols.toNat % 8 = 0 ∧ s.blockCount ≤ Config.maxBlocks := by
  simp [dimsOk, and_assoc]

/-- One block of `IT.ENCODE` writes inside the streams when the cursors point inside. -/
theorem memoriesOk_encodeBlock (h : s.memoriesOk) (br bc : Nat) (k : Fin 3) (hd : s.dcidx[k].toNat < dcsSize)
    (ha : s.acidx[k].toNat + 62 < acsSize) : (encodeBlock br bc k s).memoriesOk := by
  have hfwd : (bcForward (classOf k) (loadPixels br bc k s)).memoriesOk :=
    memoriesOk_congr h (by simp) (by simp) (by simp) (by simp)
  have happend := memoriesOk_appendStreams hfwd k (by simpa using hd) (by simpa using ha)
  exact memoriesOk_congr happend (by simp [encodeBlock]) (by simp [encodeBlock]) (by simp [encodeBlock])
    (by simp [encodeBlock])

/-- `IT.ENCODE` writes inside the streams when the dimensions are good: block step `n` writes block `n / 3` of its
channel. -/
theorem memoriesOk_encodePass (h : s.memoriesOk) (hdims : dimsOk s = true) :
    (runPass encodeBlock (zeroCursors s)).memoriesOk := by
  obtain ⟨-, -, hcap⟩ := dimsOk_iff.1 hdims
  have hcount : (zeroCursors s).blockCount = s.blockCount := rfl
  refine (runPass_induction (s := zeroCursors s) (fun n t => t.memoriesOk ∧ CursorsAt n t)
    ⟨memoriesOk_congr h rfl rfl rfl rfl, cursorsAt_zeroCursors s⟩ fun n t hn ⟨hmem, hcur⟩ => ?_).1
  obtain ⟨hd, ha⟩ := hcur (Fin.ofNat 3 n)
  rw [blocksDone_current] at hd ha
  refine ⟨memoriesOk_encodeBlock hmem _ _ _ ?_ ?_, cursorsAt_congr
    (cursorsAt_advanceCursors hcur (by omega)) (encodeBlock_dcidx ..) (encodeBlock_acidx ..)⟩
  · rw [hd, dcsSize]; omega
  · rw [ha, acsSize]; omega

/-- Every pixel of a block of the image lies among the first `192 * nb` elements (R36, R128). -/
theorem blockPixel_lt {cols nbr nbc br bc : Nat} (k : Fin 3) (i : Fin 64) (hcols : cols = 8 * nbc) (hbr : br < nbr)
    (hbc : bc < nbc) : blockPixel cols br bc k i < 192 * (nbr * nbc) := by
  have hrow : (rowOf i).val < 8 := (rowOf i).isLt
  have hcol : (colOf i).val < 8 := (colOf i).isLt
  have hk : k.val < 3 := k.isLt
  have hrows : (8 * br + (rowOf i).val + 1) * cols ≤ 8 * nbr * cols := Nat.mul_le_mul_right _ (by omega)
  have harea : 8 * nbr * cols = 64 * (nbr * nbc) := by rw [hcols]; ring
  rw [Nat.add_mul, harea] at hrows
  simp only [blockPixel, pixIndex]
  omega

/-- One block of `IT.DECODE` writes inside the image when the block lies inside it. -/
theorem memoriesOk_decodeBlock (h : s.memoriesOk) {br bc : Nat} (k : Fin 3)
    (hi : ∀ i, blockPixel s.cols.toNat br bc k i < imageSize) : (decodeBlock br bc k s).memoriesOk :=
  memoriesOk_storePixels (memoriesOk_congr h (by simp) (by simp) (by simp) (by simp)) br bc k (by simpa using hi)

/-- `IT.DECODE` writes inside the image when the dimensions are good. -/
theorem memoriesOk_decodePass (h : s.memoriesOk) (hdims : dimsOk s = true) :
    (runPass decodeBlock (zeroCursors s)).memoriesOk := by
  obtain ⟨-, hcols, hcap⟩ := dimsOk_iff.1 hdims
  have hcount : (zeroCursors s).blockCount = s.blockRows * s.blockCols := rfl
  have hnbc : (zeroCursors s).blockCols = s.blockCols := rfl
  have hwidth : s.cols.toNat = 8 * s.blockCols := by rw [State.blockCols]; omega
  refine (runPass_induction (s := zeroCursors s) (fun n t => t.memoriesOk ∧ t.cols = s.cols)
    ⟨memoriesOk_congr h rfl rfl rfl rfl, rfl⟩ fun n t hn ⟨hmem, htcols⟩ => ?_).1
  refine ⟨memoriesOk_decodeBlock hmem _ fun i => ?_, by simpa using htcols⟩
  rw [hcount] at hn
  have hn3 : n / 3 < s.blockCols * s.blockRows := by rw [Nat.mul_comm]; omega
  have hbc : n / 3 % s.blockCols < s.blockCols :=
    Nat.mod_lt _ (Nat.pos_of_ne_zero fun h0 => by simp [h0] at hn3)
  rw [htcols, hnbc]
  exact (blockPixel_lt _ i hwidth (Nat.div_lt_of_lt_mul hn3) hbc).trans_le (Nat.mul_le_mul_left 192 hcap)

/-- A command's effect keeps the memories canonical and in bounds, where the table gives it no fault. -/
theorem memoriesOk_effect (h : s.memoriesOk) (hc : commandFault i s = none) : (effect i s).memoriesOk := by
  cases i with
  | itEncode =>
    have hdims : dimsOk s = true := by simpa [commandFault, indexOutOfRange] using hc
    exact memoriesOk_congr (memoriesOk_encodePass h hdims) rfl rfl rfl rfl
  | itDecode =>
    have hdims : dimsOk s = true := by
      cases hd : dimsOk s with
      | true => rfl
      | false => simp [commandFault, indexOutOfRange, hd] at hc
    exact memoriesOk_decodePass h hdims
  | _ => exact memoriesOk_congr h (by simp [effect]) (by simp [effect]) (by simp [effect]) (by simp [effect])

/-! ### The invariant -/

/-- The invariant speaks of the memories, `STATUS` and `ERRINFO` only. -/
theorem inv_congr (h : s.Inv) (h₁ : t.imgi = s.imgi) (h₂ : t.imgo = s.imgo) (h₃ : t.dcs = s.dcs) (h₄ : t.acs = s.acs)
    (hs : t.status = s.status) (he : t.errinfo = s.errinfo) : t.Inv :=
  ⟨memoriesOk_congr h.1 h₁ h₂ h₃ h₄, faultRecordOk_congr h.2 hs he⟩

theorem inv_softReset (h : s.Inv) : (softReset s).Inv :=
  ⟨memoriesOk_congr h.1 rfl rfl rfl rfl, .inl ⟨rfl, rfl⟩⟩

theorem inv_hardReset (s : State) : (hardReset s).Inv :=
  ⟨memoriesOk_hardReset s, .inl ⟨rfl, rfl⟩⟩

/-- The ports and the host's inbox do not matter to the invariant. -/
theorem inv_ports (h : s.Inv) (rest : List Pins) (o : Outputs) : { s with inbox := rest, outputs := o }.Inv := h

/-- A command other than `SYS.SRESET` writes `STATUS` and `ERRINFO` only to raise a fault. -/
theorem effect_keeps_fault_record (hi : i ≠ .sysSreset) (s : State) :
    (effect i s).status = s.status ∧ (effect i s).errinfo = s.errinfo := by
  cases i with
  | sysSreset => exact absurd rfl hi
  | _ => simp [effect]

/-- A command keeps the invariant, if its word decodes to it, as that of every decoded command does. -/
theorem inv_exec (hd : decode (encode i) = .command i) (h : s.Inv) (he : exec i s = .next t) : t.Inv := by
  obtain ⟨-, -, rfl⟩ | ⟨k, -, hk, rfl⟩ | ⟨-, hc, rfl⟩ := exec_cases he
  · exact h
  · exact ⟨memoriesOk_congr h.1 rfl rfl rfl rfl, faultRecordOk_raiseFault hd hk⟩
  · by_cases hi : i = .sysSreset
    · subst hi
      exact inv_softReset h
    · obtain ⟨hstatus, herrinfo⟩ := effect_keeps_fault_record hi s
      exact ⟨memoriesOk_effect h.1 hc, faultRecordOk_congr h.2 hstatus herrinfo⟩

/-- A write to `CMD` keeps the invariant: it does nothing, resets, runs its command or records that it is illegal. -/
theorem inv_writeCmd {w : Word} (h : s.Inv) (hw : writeCmd w s = .next t) : t.Inv := by
  cases hf : s.faulted with
  | true =>
    rw [writeCmd_faulted hf] at hw
    rw [← Host.Outcome.next.inj hw]
    split
    · exact inv_softReset h
    · exact h
  | false =>
    cases hd : decode w with
    | command i =>
      rw [writeCmd_command hf hd] at hw
      exact inv_exec (by rwa [encode_of_decode hd]) h hw
    | illegal why =>
      rw [writeCmd_illegal hf hd] at hw
      rw [← Host.Outcome.next.inj hw]
      exact ⟨memoriesOk_congr h.1 rfl rfl rfl rfl, .inr (.inr (.inr (.inr ⟨rfl, why, hd⟩)))⟩

theorem inv_writeReg (h : s.Inv) (a : BitVec 12) (d : Word) : (writeReg a d s).Inv := by
  unfold writeReg
  split
  · exact h
  · split
    · rename_i r _
      obtain ⟨⟨hstatus, herrinfo, -⟩, -, ⟨himgi, himgo, hdcs, hacs⟩, -⟩ := writeLocation_frame r d s
      exact inv_congr h himgi himgo hdcs hacs hstatus herrinfo
    · exact h

/-- A host memory write touches no register: here `STATUS` and `ERRINFO`. -/
theorem hostWrite_keeps_fault_record (sel : BitVec 4) (i d : Word) (s : State) :
    (hostWrite sel i d s).status = s.status ∧ (hostWrite sel i d s).errinfo = s.errinfo := by
  unfold hostWrite
  split
  · rename_i m _
    cases m <;> simp only [hostWriteSpace] <;> split <;> simp
  · simp

theorem inv_hostWrite (h : s.Inv) (sel : BitVec 4) (i d : Word) : (hostWrite sel i d s).Inv := by
  obtain ⟨hs, he⟩ := hostWrite_keeps_fault_record sel i d s
  exact ⟨memoriesOk_hostWrite h.1 sel i d, faultRecordOk_congr h.2 hs he⟩

/-- Every host transaction keeps the invariant. -/
theorem inv_perform {tr : Transaction} (h : s.Inv) (hp : perform tr s = .next t) : t.Inv := by
  cases tr with
  | wr a d =>
    by_cases ha : a = cmdIndex
    · subst ha
      rw [perform_wr_cmd] at hp
      exact inv_writeCmd (inv_ports h ..) hp
    · rw [perform_wr_other ha] at hp
      rw [← Host.Outcome.next.inj hp]
      exact inv_writeReg (inv_ports h ..) a d
  | rd a =>
    rw [perform_rd] at hp
    rw [← Host.Outcome.next.inj hp]
    exact inv_ports h ..
  | mw sel j d =>
    rw [perform_mw] at hp
    rw [← Host.Outcome.next.inj hp]
    exact inv_hostWrite (inv_ports h ..) sel j d
  | mr sel j =>
    rw [perform_mr] at hp
    rw [← Host.Outcome.next.inj hp]
    exact inv_ports h ..

/-- Settles O58: a step is idle, a hardware reset or one host transaction, and each keeps the invariant. -/
theorem stepKeepsTheInvariant : Obligations.StepKeepsTheInvariant := by
  intro s t h hstep
  obtain ⟨-, ho⟩ | ⟨p, rest, -, ⟨-, ho⟩ | ⟨-, ho⟩ | ⟨-, ho⟩ | ⟨tr, -, ho⟩⟩ := step_cases hstep
  · rw [Host.Outcome.next.inj ho]
    exact inv_ports h ..
  · rw [Host.Outcome.next.inj ho]
    exact inv_hardReset _
  · rw [Host.Outcome.next.inj ho]
    exact inv_ports h ..
  · cases ho
  · exact inv_perform (inv_ports h ..) ho.symm

/-- Settles O60: in each of the five fault records the fields of `STATUS` are those of one literal word. -/
theorem statusFieldsAgree : Obligations.StatusFieldsAgree := by
  rintro s ⟨-, hrec⟩
  have hread : readReg 0x001 s = s.status := rfl
  simp only [State.faulted, State.errCode, hread, and_true]
  obtain ⟨hs, -⟩ | ⟨hs, -⟩ | ⟨hs, -⟩ | ⟨hs, -⟩ | ⟨hs, -⟩ := hrec <;> rw [hs] <;> decide

end Sys2Proof.Machine

/-! PROOF. The register map (R17, R18): an index names a location exactly when the map gives it that index; reads,
writes and their frame follow location by location. -/

namespace Sys2Proof.Machine

variable {s : State} {r : Reg} {a : BitVec 12}

/-! ### Indices -/

/-- The single locations stand at their own indices. -/
theorem index_of_mem_singles {n : Nat} : ∀ r ∈ singles[n]?, n = r.index := by
  have hall : ∀ m : Fin 12, m.val = singles[m].index := by decide
  intro r h
  obtain ⟨hn, rfl⟩ := List.getElem?_eq_some_iff.1 h
  exact hall ⟨n, hn⟩

theorem singles_eq_none {n : Nat} (h : 12 ≤ n) : singles[n]? = none := List.getElem?_eq_none h

/-- A group's locations stand where the group does, if the map gives them its indices. -/
theorem index_of_mem_inGroup {n base m : Nat} {mk : Fin m → Reg} (hmk : ∀ k, (mk k).index = base + k.val) :
    ∀ r ∈ inGroup n base m mk, n = r.index := by
  intro r h
  obtain ⟨k, hk, rfl⟩ := inGroup_eq_some.1 h
  rw [hk, hmk]

theorem index_of_mem_orElse {n : Nat} {o o' : Option Reg} (h : ∀ r ∈ o, n = r.index) (h' : ∀ r ∈ o', n = r.index) :
    ∀ r ∈ (o <|> o'), n = r.index := by
  intro r hr
  obtain hr | ⟨-, hr⟩ := (Option.orElse_eq_some ..).1 hr
  · exact h r hr
  · exact h' r hr

/-- A location that an index names has that index: it does in every group of the map. -/
theorem index_of_regAt (h : regAt a = some r) : a.toNat = r.index := by
  suffices hall : ∀ r ∈ regAt a, a.toNat = r.index from hall r h
  unfold regAt
  refine index_of_mem_orElse index_of_mem_singles ?_
  iterate 14 refine index_of_mem_orElse (index_of_mem_inGroup fun _ => rfl) ?_
  exact index_of_mem_inGroup fun _ => rfl

/-- A location's index names it: no earlier group of the map holds that index. -/
theorem regAt_of_index (h : a.toNat = r.index) : regAt a = some r := by
  cases r with
  | qbase cls i =>
    cases cls <;>
      (simp (disch := omega) only [regAt, h, Reg.index, singles_eq_none, inGroup_eq_none, inGroup_base]; rfl)
  | _ => simp (disch := omega) only [regAt, h, Reg.index, singles_eq_none, inGroup_eq_none, inGroup_base]; rfl

/-- Settles O6: each direction is a pass over the groups of the map. -/
theorem registerIndicesFollowTheMap : Obligations.RegisterIndicesFollowTheMap :=
  fun _ _ => ⟨index_of_regAt, regAt_of_index⟩

/-- Every index of the map fits 12 bits. -/
theorem Reg.index_lt (r : Reg) : r.index < 2 ^ 12 := by
  cases r with
  | qbase cls i => cases cls <;> simp only [Reg.index] <;> omega
  | _ => simp only [Reg.index]; omega

/-- The index that the map gives a location names it. -/
@[simp] theorem regAt_index (r : Reg) : regAt (BitVec.ofNat 12 r.index) = some r :=
  regAt_of_index (by rw [BitVec.toNat_ofNat, Nat.mod_eq_of_lt r.index_lt])

/-- No two indices name one location. -/
theorem regAt_injective {b : BitVec 12} (ha : regAt a = some r) (hb : regAt b = some r) : a = b :=
  BitVec.eq_of_toNat_eq ((index_of_regAt ha).trans (index_of_regAt hb).symm)

/-! ### Reads -/

theorem readReg_of_regAt (h : regAt a = some r) (s : State) : readReg a s = readLocation r s := by
  rw [readReg, h]

theorem readReg_of_regAt_none (h : regAt a = none) (s : State) : readReg a s = 0 := by
  rw [readReg, h]

/-- A read at the index that the map gives a location. -/
theorem readReg_index (r : Reg) (s : State) : readReg (BitVec.ofNat 12 r.index) s = readLocation r s :=
  readReg_of_regAt (regAt_index r) s

/-- A location whose field is unsigned reads as the field's number (R17). -/
theorem toNat_readReg {w : Nat} {x : BitVec w} (r : Reg) (h : readLocation r s = x.setWidth 32) (hw : w ≤ 32) :
    (readReg (BitVec.ofNat 12 r.index) s).toNat = x.toNat := by
  rw [readReg_index, h, BitVec.toNat_setWidth_of_le hw]

/-- A location whose field is signed reads as the field's integer (R17). -/
theorem toInt_readReg {w : Nat} {x : BitVec w} (r : Reg) (h : readLocation r s = x.signExtend 32) (hw : w ≤ 32) :
    (readReg (BitVec.ofNat 12 r.index) s).toInt = x.toInt := by
  rw [readReg_index, h, BitVec.toInt_signExtend_of_le hw]

/-- What is read is already extended by the location's type. -/
theorem extend_readLocation (r : Reg) (s : State) : r.extend (readLocation r s) = readLocation r s := by
  cases r <;> simp [Reg.extend, Reg.signed, Reg.width, readLocation, setWidth_signExtend]

theorem readLocation_wo (h : r.access = .wo) (s : State) : readLocation r s = 0 := by
  cases r <;> cases h <;> rfl

/-! ### Writes -/

theorem writeReg_faulted (h : s.faulted = true) (a : BitVec 12) (d : Word) : writeReg a d s = s := by
  rw [writeReg, if_pos h]

theorem writeReg_of_regAt_none (h : regAt a = none) (d : Word) (s : State) : writeReg a d s = s := by
  simp [writeReg, h]

theorem writeReg_of_regAt (hf : s.faulted = false) (h : regAt a = some r) (d : Word) :
    writeReg a d s = writeLocation r d s := by
  simp [writeReg, hf, h]

theorem writeLocation_ro (h : r.access = .ro) (d : Word) (s : State) : writeLocation r d s = s := by
  cases r <;> cases h <;> rfl

/-- A read-write location reads back the low bits written, extended by its type. -/
theorem readLocation_writeLocation_same (h : r.access = .rw) (d : Word) (s : State) :
    readLocation r (writeLocation r d s) = r.extend d := by
  cases r with
  | qbase cls i => cases cls <;> simp [readLocation, writeLocation, State.qbase, Reg.extend, Reg.signed, Reg.width]
  | _ => cases h <;> simp [readLocation, writeLocation, Reg.extend, Reg.signed, Reg.width]

theorem getElem_set_other {α : Type} {n : Nat} (v : Vector α n) {k l : Fin n} (h : l ≠ k) (x : α) :
    (v.set k.val x k.isLt)[l.val] = v[l.val] :=
  Vector.getElem_set_ne _ _ fun e => h (Fin.ext e).symm

/-- A write to a read-write location leaves every other location alone: its field is another one, or another element
of the same. -/
theorem readLocation_writeLocation_other {r' : Reg} (hr : r.access = .rw) (hne : r' ≠ r) (d : Word) (s : State) :
    readLocation r' (writeLocation r d s) = readLocation r' s := by
  cases r with
  | cf | rows | cols | dcin =>
    cases r' <;> simp [readLocation, writeLocation, State.qbase] at hne ⊢
  | dclen k | aclen k | pixi k | qco k | scan k | icoef k =>
    cases r' <;> simp_all [readLocation, writeLocation, State.qbase, getElem_set_other]
  | qbase cls i =>
    cases r' with
    | qbase cls' j =>
      cases cls <;> cases cls' <;> simp_all [readLocation, writeLocation, State.qbase, getElem_set_other]
    | _ => cases cls <;> rfl
  | _ => cases hr

/-- Memories are no registers. -/
theorem hostRead_writeLocation (sel : BitVec 4) (i : Word) (r : Reg) (d : Word) (s : State) :
    hostRead sel i (writeLocation r d s) = hostRead sel i s := by
  obtain ⟨-, -, ⟨himgi, himgo, hdcs, hacs⟩, hepoch, -⟩ := writeLocation_frame r d s
  unfold hostRead
  split
  · rename_i m _
    cases m <;> simp only [hostReadSpace, State.readImgi_congr himgi hepoch, State.readImgo_congr himgo hepoch,
      State.readDcs_congr hdcs hepoch, State.readAcs_congr hacs hepoch]
  · rfl

/-- A register write leaves every index but its own reading as before. -/
theorem readReg_writeReg_other {b : BitVec 12} (ha : regAt a = some r) (hr : r.access = .rw) (hf : s.faulted = false)
    (hb : b ≠ a) (d : Word) : readReg b (writeReg a d s) = readReg b s := by
  rw [writeReg_of_regAt hf ha]
  cases hb' : regAt b with
  | none => rw [readReg_of_regAt_none hb', readReg_of_regAt_none hb']
  | some r' =>
    have hne : r' ≠ r := fun e => hb (regAt_injective hb' (e ▸ ha))
    rw [readReg_of_regAt hb', readReg_of_regAt hb', readLocation_writeLocation_other hr hne]

/-- In the fault state a register write but that of `SYS.SRESET` to `CMD` does nothing (R152). -/
theorem perform_wr_faulted (hf : s.faulted = true) {d : Word} (h : a ≠ cmdIndex ∨ d ≠ 0x01000000) :
    perform (.wr a d) s = .next (answerH none s) := by
  have hf' : (answerH none s).faulted = true := by simpa using hf
  by_cases ha : a = cmdIndex
  · subst ha
    have hd : d ≠ 0x01000000 := h.resolve_left (fun hne => hne rfl)
    rw [perform_wr_cmd, writeCmd_faulted hf', if_neg hd]
  · rw [perform_wr_other ha, writeReg_faulted hf']

/-- Settles O7: each location is read at its index, and a write follows the location's access. -/
theorem registerAccessFollowsTheMap : Obligations.RegisterAccessFollowsTheMap := by
  intro s a d
  refine ⟨⟨readReg_index .id s, readReg_index .status s, readReg_index .errinfo s, readReg_index .cmd s,
      readReg_index .result s, toNat_readReg .cf rfl (by decide), toNat_readReg .rows rfl (by decide),
      toNat_readReg .cols rfl (by decide), toInt_readReg .dcin rfl (by decide), toInt_readReg .dcout rfl (by decide),
      readReg_index .acpush s, toNat_readReg .accnt rfl (by decide)⟩,
    fun k => ⟨readReg_index (.dcidx k) s, readReg_index (.acidx k) s, readReg_index (.dclen k) s,
      readReg_index (.aclen k) s⟩,
    fun i => ⟨toNat_readReg (.pixi i) rfl (by decide), toInt_readReg (.fcoef i) rfl (by decide),
      toNat_readReg (.div i) rfl (by decide), toInt_readReg (.qco i) rfl (by decide),
      toInt_readReg (.scan i) rfl (by decide), congrArg BitVec.toInt (readReg_index (.icoef i) s),
      toInt_readReg (.samp i) rfl (by decide), toNat_readReg (.pixo i) rfl (by decide),
      toNat_readReg (.qbase .luma i) rfl (by decide), toNat_readReg (.qbase .chroma i) rfl (by decide)⟩,
    fun i => toInt_readReg (.acin i) rfl (by decide),
    fun h => ⟨readReg_of_regAt_none h s, writeReg_of_regAt_none h d s⟩,
    fun hf => ⟨fun _ => writeReg_faulted hf a d, perform_wr_faulted hf⟩,
    fun r hr => ⟨?_, fun hwo => ?_, fun hro => ?_, fun hrw hf => ⟨?_, fun b hb => ?_, fun sel i => ?_⟩⟩⟩
  · rw [readReg_of_regAt hr, extend_readLocation]
  · rw [readReg_of_regAt hr, readLocation_wo hwo]
  · cases hf : s.faulted with
    | true => exact writeReg_faulted hf a d
    | false => rw [writeReg_of_regAt hf hr, writeLocation_ro hro]
  · rw [writeReg_of_regAt hf hr, readReg_of_regAt hr, readLocation_writeLocation_same hrw]
  · exact readReg_writeReg_other hr hrw hf hb d
  · rw [writeReg_of_regAt hf hr, hostRead_writeLocation]

end Sys2Proof.Machine

/-! PROOF. A step that takes a command word off the register port (R22, R50, R53, R178). -/

namespace Sys2Proof.Machine

/-- Settles O8: the transaction is a write to `CMD`, and outside the fault state that runs the decoded command. -/
theorem stepRunsTheDecodedCommand : Obligations.StepRunsTheDecodedCommand := by
  intro s w i hf hd
  have hrun : ∀ (u : State) (rest : List Pins), u.faulted = false →
      u.inbox = (Transaction.wr cmdIndex w).pins :: rest → step u = exec i (answerH none (afterInput rest u)) :=
    fun u rest hu hin => by
      rw [step_transaction hin, perform_wr_cmd]
      exact writeCmd_command (by simpa using hu) hd
  exact ⟨fun rest hin => hrun s rest hf hin, hrun (s.withFetchWord 32 w.toNat) s.inbox hf (withFetchWord_inbox s w)⟩

end Sys2Proof.Machine

/-! PROOF. The host's memory transactions (R35, R38, R44, R47): a write changes the one element it names, a read depends
on the memories only. -/

namespace Sys2Proof.Machine

variable {m : Space} {sel : BitVec 4}

/-! ### The selector -/

/-- `sel` selects by its position in a list of eight. -/
theorem spaceOfSel_eq_none_iff : spaceOfSel sel = none ↔ 8 ≤ sel.toNat := List.getElem?_eq_none_iff

/-- No two values of `sel` select one memory: the eight are different. -/
theorem sel_eq_of_spaceOfSel {sel' : BitVec 4} (h : spaceOfSel sel = some m) (h' : spaceOfSel sel' = some m) :
    sel' = sel := by
  have hlt : sel.toNat < 8 := (List.getElem?_eq_some_iff.1 h).1
  exact (BitVec.eq_of_toNat_eq ((List.getElem?_inj hlt (by decide)).1 (h.trans h'.symm))).symm

/-- The values 2 to 4 of `sel` are the DC streams, 5 to 7 the AC streams. -/
theorem spaceOfSel_streams : ∀ k : Fin 3, spaceOfSel (BitVec.ofNat 4 (2 + k)) = some (.dcs k) ∧
    spaceOfSel (BitVec.ofNat 4 (5 + k)) = some (.acs k) := by decide

theorem hostRead_of_sel_none (h : spaceOfSel sel = none) (i : Word) (s : State) : hostRead sel i s = 0 := by
  rw [hostRead, h]

theorem hostWrite_of_sel_none (h : spaceOfSel sel = none) (i d : Word) (s : State) : hostWrite sel i d s = s := by
  rw [hostWrite, h]

/-! ### One memory -/

/-- An element as the host reads it (R47): zero-extended from an image, sign-extended from a stream. -/
def State.element (s : State) : Space → Nat → Word
  | .imgi, i => (s.readImgi i).setWidth 32
  | .imgo, i => (s.readImgo i).setWidth 32
  | .dcs k, i => (s.readDcs k i).signExtend 32
  | .acs k, i => (s.readAcs k i).signExtend 32

/-- The low bits of a word, written to an element (R47). -/
def State.setElement (s : State) : Space → Nat → Word → State
  | .imgi, i, d => s.writeImgi i (d.setWidth 8)
  | .imgo, i, d => s.writeImgo i (d.setWidth 8)
  | .dcs k, i, d => s.writeDcs k i (d.setWidth 16)
  | .acs k, i, d => s.writeAcs k i (d.setWidth 16)

theorem hostRead_of_sel (h : spaceOfSel sel = some m) (i : Word) (s : State) :
    hostRead sel i s = if spaceSize m ≤ i.toNat then 0 else s.element m i.toNat := by
  rw [hostRead, h]
  cases m <;> rfl

theorem hostWrite_of_sel (h : spaceOfSel sel = some m) (i d : Word) (s : State) :
    hostWrite sel i d s = if spaceSize m ≤ i.toNat then s else s.setElement m i.toNat d := by
  rw [hostWrite, h]
  cases m <;> rfl

/-- A write sets the element it names, to the low bits written, and no other of any memory. -/
theorem element_setElement (m m' : Space) (i j : Nat) (d : Word) (s : State) :
    (s.setElement m i d).element m' j = if m' = m ∧ j = i then spaceExtend m d else s.element m' j := by
  cases m <;> cases m' <;>
    simp [State.element, State.setElement, spaceExtend, apply_ite (BitVec.setWidth 32),
      apply_ite (BitVec.signExtend 32)]

theorem hostRead_beyond {i : Word} (h : spaceOfSel sel = some m) (hi : spaceSize m ≤ i.toNat) (s : State) :
    hostRead sel i s = 0 := by
  rw [hostRead_of_sel h, if_pos hi]

theorem hostRead_inside {i : Word} (h : spaceOfSel sel = some m) (hi : i.toNat < spaceSize m) (s : State) :
    hostRead sel i s = s.element m i.toNat := by
  rw [hostRead_of_sel h, if_neg (Nat.not_le.2 hi)]

theorem hostWrite_beyond {i : Word} (h : spaceOfSel sel = some m) (hi : spaceSize m ≤ i.toNat) (d : Word)
    (s : State) : hostWrite sel i d s = s := by
  rw [hostWrite_of_sel h, if_pos hi]

theorem hostWrite_inside {i : Word} (h : spaceOfSel sel = some m) (hi : i.toNat < spaceSize m) (d : Word)
    (s : State) : hostWrite sel i d s = s.setElement m i.toNat d := by
  rw [hostWrite_of_sel h, if_neg (Nat.not_le.2 hi)]

/-- Another `sel` or another index is another element. -/
theorem hostRead_setElement_other {sel' : BitVec 4} {i j : Word} (h : spaceOfSel sel = some m)
    (hne : sel' ≠ sel ∨ j ≠ i) (d : Word) (s : State) :
    hostRead sel' j (s.setElement m i.toNat d) = hostRead sel' j s := by
  cases h' : spaceOfSel sel' with
  | none => rw [hostRead_of_sel_none h', hostRead_of_sel_none h']
  | some m' =>
    have hother : ¬(m' = m ∧ j.toNat = i.toNat) := fun ⟨hm, hj⟩ => by
      subst hm
      exact hne.elim (absurd (sel_eq_of_spaceOfSel h h')) (absurd (BitVec.eq_of_toNat_eq hj))
    rw [hostRead_of_sel h', hostRead_of_sel h', element_setElement, if_neg hother]

/-- A host memory write changes the memories only. -/
theorem hostWrite_frame (sel : BitVec 4) (i d : Word) (s : State) :
    hostWrite sel i d s = { s with
      imgi := (hostWrite sel i d s).imgi, imgo := (hostWrite sel i d s).imgo,
      dcs := (hostWrite sel i d s).dcs, acs := (hostWrite sel i d s).acs } := by
  cases hsel : spaceOfSel sel with
  | none => rw [hostWrite_of_sel_none hsel]
  | some m =>
    rw [hostWrite_of_sel hsel]
    split
    · rfl
    · cases m <;> rfl

/-! ### What reads depend on -/

/-- Neither the memories nor what the host will present are registers. -/
theorem readReg_memories_inbox (a : BitVec 12) (s : State) (imgi imgo : Memory 8) (dcs acs : Vector (Memory 16) 3)
    (inbox : List Pins) :
    readReg a { s with imgi := imgi, imgo := imgo, dcs := dcs, acs := acs, inbox := inbox } = readReg a s := by
  cases ha : regAt a with
  | none => rw [readReg_of_regAt_none ha, readReg_of_regAt_none ha]
  | some r => rw [readReg_of_regAt ha, readReg_of_regAt ha]; cases r <;> rfl

theorem readReg_hostWrite (a : BitVec 12) (sel : BitVec 4) (i d : Word) (s : State) :
    readReg a (hostWrite sel i d s) = readReg a s := by
  rw [hostWrite_frame]
  exact readReg_memories_inbox a s _ _ _ _ s.inbox

theorem readReg_afterInput (a : BitVec 12) (rest : List Pins) (s : State) :
    readReg a (afterInput rest s) = readReg a s :=
  readReg_memories_inbox a s s.imgi s.imgo s.dcs s.acs rest

theorem hostRead_afterInput (sel : BitVec 4) (i : Word) (rest : List Pins) (s : State) :
    hostRead sel i (afterInput rest s) = hostRead sel i s := by
  cases hsel : spaceOfSel sel with
  | none => rw [hostRead_of_sel_none hsel, hostRead_of_sel_none hsel]
  | some m => rw [hostRead_of_sel hsel, hostRead_of_sel hsel]; cases m <;> rfl

/-- Settles O14: the laws of one memory, for the one that `sel` selects. -/
theorem memoryReadAfterWrite : Obligations.MemoryReadAfterWrite := by
  intro s sel i d
  refine ⟨spaceOfSel_eq_none_iff, ⟨rfl, rfl, spaceOfSel_streams⟩, ⟨rfl, rfl, fun _ => ⟨rfl, rfl⟩⟩,
    fun hi => ⟨?_, ?_⟩, fun k => ⟨fun hi => ?_, fun hi => ?_⟩, fun b => readReg_hostWrite b sel i d s,
    fun hsel => ⟨hostWrite_of_sel_none hsel i d s, hostRead_of_sel_none hsel i s⟩,
    fun m hsel hi => ⟨hostWrite_beyond hsel hi d s, hostRead_beyond hsel hi s⟩,
    fun m hsel hi => ⟨?_, fun sel' j hne => ?_⟩⟩
  · rw [hostRead_inside (m := .imgi) rfl hi]
    exact BitVec.toNat_setWidth_of_le (by decide)
  · rw [hostRead_inside (m := .imgo) rfl hi]
    exact BitVec.toNat_setWidth_of_le (by decide)
  · rw [hostRead_inside (spaceOfSel_streams k).1 hi]
    exact BitVec.toInt_signExtend_of_le (by decide)
  · rw [hostRead_inside (spaceOfSel_streams k).2 hi]
    exact BitVec.toInt_signExtend_of_le (by decide)
  · rw [hostRead_inside hsel hi, hostWrite_inside hsel hi, element_setElement, if_pos ⟨rfl, rfl⟩]
  · rw [hostWrite_inside hsel hi, hostRead_setElement_other hsel hne]

end Sys2Proof.Machine

/-! PROOF. A step that performs any other transaction (R41, R44, R47, R49, R50). -/

namespace Sys2Proof.Machine

/-- Settles O9: each transaction is performed whole, and what it reads does not depend on the inbox. -/
theorem stepServesOneTransaction : Obligations.StepServesOneTransaction := by
  refine fun s => ⟨fun a rest h => ?_, fun a d rest ha h => ?_, fun sel i rest h => ?_, fun sel i d rest h => ?_,
    step_nil⟩
  · rw [step_transaction h, perform_rd, readReg_afterInput]
  · rw [step_transaction h, perform_wr_other ha]
  · rw [step_transaction h, perform_mr, hostRead_afterInput]
  · rw [step_transaction h, perform_mw]

end Sys2Proof.Machine

/-! PROOF. The pass of `IT.ENCODE` (R130, R131, R132, R135): block step `n` leaves block `n / 3` of its channel in the
streams, as it is coded from the input image that the pass found. -/

namespace Sys2Proof.Machine

variable {s t : State}

/-! ### Blocks in raster order -/

/-- A block of the image is one of the `nb` blocks in raster order. -/
theorem raster_lt {br bc : Nat} (hbr : br < s.blockRows) (hbc : bc < s.blockCols) :
    br * s.blockCols + bc < s.blockCount := by
  have hrows : (br + 1) * s.blockCols ≤ s.blockCount := Nat.mul_le_mul_right _ hbr
  rw [Nat.succ_mul] at hrows
  omega

/-- The last of the `nb` blocks in raster order is the one at the last row and column. -/
theorem raster_last (h : 0 < s.blockCount) :
    0 < s.blockCols ∧ (s.blockRows - 1) * s.blockCols + (s.blockCols - 1) = s.blockCount - 1 := by
  have hrows : 0 < s.blockRows := Nat.pos_of_mul_pos_right h
  have hcols : 0 < s.blockCols := Nat.pos_of_mul_pos_left h
  have hcount : s.blockCount = (s.blockRows - 1) * s.blockCols + s.blockCols := by
    rw [← Nat.succ_mul, Nat.succ_eq_add_one, Nat.sub_add_cancel hrows, State.blockCount]
  omega

/-- The blocks counted after one more block step are those counted before it and its own. -/
theorem lt_blocksDone_succ {n b : Nat} {l : Fin 3} :
    b < blocksDone (n + 1) l ↔ b < blocksDone n l ∨ l = Fin.ofNat 3 n ∧ b = n / 3 := by
  rw [blocksDone_succ]
  split
  · next hl =>
    subst hl
    rw [blocksDone_current, Nat.lt_succ_iff_lt_or_eq]
    simp
  · next hl => exact ⟨.inl, fun h => h.resolve_right fun hcur => hl hcur.1.symm⟩

/-- A pass over every block has counted them all in each channel. -/
theorem blocksDone_mul_three (nb : Nat) (l : Fin 3) : blocksDone (nb * 3) l = nb := by
  simp only [blocksDone]
  omega

theorem runPass_of_blockCount_eq_zero {f : Nat → Nat → Fin 3 → State → State} (h : s.blockCount = 0) :
    runPass f s = s := by
  have hcount : s.blockRows * s.blockCols = 0 := h
  rw [runPass, passOrder_eq, hcount]
  rfl

/-! ### One block -/

/-- What coding a block reads, apart from the block's place (R43, R98, R128). -/
structure SameEncodeInputs (t s : State) : Prop where
  imgi : t.imgi = s.imgi
  epoch : t.epoch = s.epoch
  cols : t.cols = s.cols
  cf : t.cf = s.cf
  qbase : ∀ cls, t.qbase cls = s.qbase cls

/-- The block buffers that coding a block writes are the same. -/
def SameBlockBuffers (t e : State) : Prop :=
  t.pixi = e.pixi ∧ t.div = e.div ∧ t.fcoef = e.fcoef ∧ t.qco = e.qco ∧ t.scan = e.scan ∧ t.dcout = e.dcout

/-- Channel `k` of block `b` in raster order, coded from the input image of `s` (R127, R128, R131). -/
def codedBlock (s : State) (b : Nat) (k : Fin 3) : State :=
  bcForward (classOf k) (loadPixels (b / s.blockCols) (b % s.blockCols) k s)

/-- Block `(br, bc)` of the image is block `br * nbc + bc` in raster order (R131). -/
theorem codedBlock_raster (s : State) {br bc : Nat} (k : Fin 3) (hbc : bc < s.blockCols) :
    codedBlock s (br * s.blockCols + bc) k = bcForward (classOf k) (loadPixels br bc k s) := by
  have hsplit : bc + s.blockCols * br = br * s.blockCols + bc := by ring
  obtain ⟨hrow, hcol⟩ := (Nat.div_mod_unique (Nat.zero_lt_of_lt hbc)).2 ⟨hsplit, hbc⟩
  rw [codedBlock, hrow, hcol]

/-- The last block step of a pass codes channel 2 of the block at the last row and column (R131). -/
theorem codedBlock_last (h : 0 < s.blockCount) :
    codedBlock s ((s.blockCount * 3 - 1) / 3) (Fin.ofNat 3 (s.blockCount * 3 - 1)) =
      bcForward .chroma (loadPixels (s.blockRows - 1) (s.blockCols - 1) 2 s) := by
  obtain ⟨hcols, hlast⟩ := raster_last h
  have hchan : Fin.ofNat 3 (s.blockCount * 3 - 1) = 2 := Fin.ext (by simp only [Fin.val_ofNat]; omega)
  have hblock : (s.blockCount * 3 - 1) / 3 = s.blockCount - 1 := by omega
  rw [hchan, hblock, ← hlast, codedBlock_raster s 2 (by omega)]
  rfl

/-- The streams of channel `k` hold the values of the coded block `e` as block `b` (R130). -/
def HoldsBlock (t : State) (k : Fin 3) (b : Nat) (e : State) : Prop :=
  t.readDcs k b = e.dcout ∧ ∀ i : Fin 63, t.readAcs k (63 * b + i.val) = e.scan[i.val + 1]

/-- The streams of channel `k` hold as block `b` what they do in `s`. -/
def KeepsBlock (t : State) (k : Fin 3) (b : Nat) (s : State) : Prop :=
  t.readDcs k b = s.readDcs k b ∧ ∀ i : Fin 63, t.readAcs k (63 * b + i.val) = s.readAcs k (63 * b + i.val)

theorem HoldsBlock.of_keeps {u : State} {k : Fin 3} {b : Nat} {e : State} (hu : KeepsBlock u k b t)
    (ht : HoldsBlock t k b e) : HoldsBlock u k b e :=
  ⟨hu.1.trans ht.1, fun i => (hu.2 i).trans (ht.2 i)⟩

theorem KeepsBlock.trans {u : State} {k : Fin 3} {b : Nat} (hu : KeepsBlock u k b t) (ht : KeepsBlock t k b s) :
    KeepsBlock u k b s :=
  ⟨hu.1.trans ht.1, fun i => (hu.2 i).trans (ht.2 i)⟩

/-- Every AC element belongs to some block. -/
theorem readAcs_of_keepsBlock {k : Fin 3} {a : Nat} (h : KeepsBlock t k (a / 63) s) :
    t.readAcs k a = s.readAcs k a := by
  have hread := h.2 ⟨a % 63, Nat.mod_lt _ (by decide)⟩
  rwa [Nat.div_add_mod] at hread

theorem loadPixels_pixi_congr (h : SameEncodeInputs t s) (br bc : Nat) (k : Fin 3) :
    (loadPixels br bc k t).pixi = (loadPixels br bc k s).pixi := by
  simp only [loadPixels_pixi, h.cols, State.readImgi_congr h.imgi h.epoch]

/-- The coded block depends on the inputs only. -/
theorem sameBlockBuffers_bcForward (h : SameEncodeInputs t s) (br bc : Nat) (k : Fin 3) (cls : ChannelClass) :
    SameBlockBuffers (bcForward cls (loadPixels br bc k t)) (bcForward cls (loadPixels br bc k s)) := by
  have hpix := loadPixels_pixi_congr h br bc k
  obtain ⟨hdiv, hfcoef, hqco, hscan, hdcout⟩ := bcForward_congr (t := loadPixels br bc k t)
    (s := loadPixels br bc k s) (cls := cls) hpix (by simpa using h.cf) (by simpa using h.qbase cls)
  exact ⟨by simpa using hpix, hdiv, hfcoef, hqco, hscan, hdcout⟩

theorem sameEncodeInputs_encodeBlock (h : SameEncodeInputs t s) (br bc : Nat) (k : Fin 3) :
    SameEncodeInputs (encodeBlock br bc k t) s where
  imgi := by simpa using h.imgi
  epoch := by simpa using h.epoch
  cols := by simpa using h.cols
  cf := by simpa using h.cf
  qbase := by simpa using h.qbase

/-- After a block step the buffers hold the block it coded. -/
theorem sameBlockBuffers_encodeBlock (h : SameEncodeInputs t s) (br bc : Nat) (k : Fin 3) :
    SameBlockBuffers (encodeBlock br bc k t) (bcForward (classOf k) (loadPixels br bc k s)) := by
  have hcoded := sameBlockBuffers_bcForward h br bc k (classOf k)
  simpa only [SameBlockBuffers, encodeBlock, advanceCursors_pixi, advanceCursors_div, advanceCursors_fcoef,
    advanceCursors_qco, advanceCursors_scan, advanceCursors_dcout, appendStreams_pixi, appendStreams_div,
    appendStreams_fcoef, appendStreams_qco, appendStreams_scan, appendStreams_dcout] using hcoded

theorem readDcs_encodeBlock (br bc : Nat) (k l : Fin 3) (j : Nat) (t : State) :
    (encodeBlock br bc k t).readDcs l j =
      if l = k ∧ j = t.dcidx[k].toNat then (bcForward (classOf k) (loadPixels br bc k t)).dcout
      else t.readDcs l j := by
  simp only [encodeBlock, advanceCursors_readDcs, readDcs_appendStreams, bcForward_dcidx, loadPixels_dcidx,
    bcForward_readDcs, loadPixels_readDcs]

theorem readAcs_encodeBlock_same (br bc : Nat) (k : Fin 3) (i : Fin 63) (t : State) :
    (encodeBlock br bc k t).readAcs k (t.acidx[k].toNat + i.val) =
      (bcForward (classOf k) (loadPixels br bc k t)).scan[i.val + 1] := by
  rw [← readAcs_appendStreams_same, encodeBlock, advanceCursors_readAcs, bcForward_acidx, loadPixels_acidx]

theorem readAcs_encodeBlock_other (br bc : Nat) {k l : Fin 3} {j : Nat}
    (h : l ≠ k ∨ j < t.acidx[k].toNat ∨ t.acidx[k].toNat + 63 ≤ j) :
    (encodeBlock br bc k t).readAcs l j = t.readAcs l j := by
  rw [encodeBlock, advanceCursors_readAcs, readAcs_appendStreams_other, bcForward_readAcs, loadPixels_readAcs]
  rwa [bcForward_acidx, loadPixels_acidx]

/-- A block step leaves its block at the cursors. -/
theorem holdsBlock_encodeBlock (h : SameEncodeInputs t s) (br bc : Nat) {k : Fin 3} {b : Nat}
    (hd : t.dcidx[k].toNat = b) (ha : t.acidx[k].toNat = 63 * b) :
    HoldsBlock (encodeBlock br bc k t) k b (bcForward (classOf k) (loadPixels br bc k s)) := by
  obtain ⟨-, -, -, -, hscan, hdcout⟩ := sameBlockBuffers_bcForward h br bc k (classOf k)
  refine ⟨?_, fun i => ?_⟩
  · rw [readDcs_encodeBlock, if_pos ⟨rfl, hd.symm⟩, hdcout]
  · rw [← ha, readAcs_encodeBlock_same, hscan]

/-- A block step leaves every other block of the streams alone. -/
theorem keepsBlock_encodeBlock (br bc : Nat) {k l : Fin 3} {b b' : Nat} (hd : t.dcidx[k].toNat = b)
    (ha : t.acidx[k].toNat = 63 * b) (hne : ¬(l = k ∧ b' = b)) : KeepsBlock (encodeBlock br bc k t) l b' t := by
  refine ⟨?_, fun i => readAcs_encodeBlock_other br bc ?_⟩
  · rw [readDcs_encodeBlock, hd, if_neg hne]
  · rw [ha]
    omega

/-! ### The pass -/

/-- What holds after `n` block steps of `IT.ENCODE` on `s`: the inputs are as before, each channel's streams hold the
blocks counted so far and beyond them what they held, and the buffers hold the last block. -/
structure EncodedUpTo (s : State) (n : Nat) (t : State) : Prop where
  inputs : SameEncodeInputs t s
  cursors : CursorsAt n t
  coded : ∀ l b, b < blocksDone n l → HoldsBlock t l b (codedBlock s b l)
  kept : ∀ l b, blocksDone n l ≤ b → KeepsBlock t l b s
  last : 0 < n → SameBlockBuffers t (codedBlock s ((n - 1) / 3) (Fin.ofNat 3 (n - 1)))

theorem encodedUpTo_zeroCursors (s : State) : EncodedUpTo s 0 (zeroCursors s) where
  inputs := ⟨rfl, rfl, rfl, rfl, fun _ => rfl⟩
  cursors := cursorsAt_zeroCursors s
  coded l b h := by simp only [blocksDone] at h; omega
  kept _ _ _ := ⟨rfl, fun _ => rfl⟩
  last h := absurd h (Nat.lt_irrefl 0)

/-- One more block step: its own block is coded, the others are as they were. -/
theorem encodedUpTo_encodeBlock {n : Nat} (h : EncodedUpTo s n t) (hn : n < Config.maxBlocks * 3) :
    EncodedUpTo s (n + 1) (encodeBlock (n / 3 / s.blockCols) (n / 3 % s.blockCols) (Fin.ofNat 3 n) t) := by
  obtain ⟨hd, ha⟩ := h.cursors (Fin.ofNat 3 n)
  rw [blocksDone_current] at hd ha
  refine ⟨sameEncodeInputs_encodeBlock h.inputs .., cursorsAt_congr (cursorsAt_advanceCursors h.cursors hn)
    (encodeBlock_dcidx ..) (encodeBlock_acidx ..), fun l b hb => ?_, fun l b hb => ?_,
    fun _ => sameBlockBuffers_encodeBlock h.inputs ..⟩
  · by_cases hcur : l = Fin.ofNat 3 n ∧ b = n / 3
    · obtain ⟨rfl, rfl⟩ := hcur
      exact holdsBlock_encodeBlock h.inputs _ _ hd ha
    · have hbefore : b < blocksDone n l := (lt_blocksDone_succ.1 hb).resolve_right hcur
      exact (h.coded l b hbefore).of_keeps (keepsBlock_encodeBlock _ _ hd ha hcur)
  · obtain ⟨hbeyond, hcur⟩ := not_or.1 (mt lt_blocksDone_succ.2 (Nat.not_lt.2 hb))
    exact (keepsBlock_encodeBlock _ _ hd ha hcur).trans (h.kept l b (Nat.not_lt.1 hbeyond))

/-- The invariant at the end of the pass; with good dimensions no cursor wraps. -/
theorem encodedUpTo_encodePass (hdims : dimsOk s = true) :
    EncodedUpTo s (s.blockCount * 3) (runPass encodeBlock (zeroCursors s)) := by
  obtain ⟨-, -, hcap⟩ := dimsOk_iff.1 hdims
  have hcount : (zeroCursors s).blockCount = s.blockCount := rfl
  exact runPass_induction (s := zeroCursors s) (EncodedUpTo s) (encodedUpTo_zeroCursors s)
    fun n t hn h => encodedUpTo_encodeBlock h (by omega)

/-- What `IT.ENCODE` never writes. -/
theorem encodePass_frame (s : State) :
    let t := setLengths (runPass encodeBlock (zeroCursors s))
    t = { s with
      pixi := t.pixi, div := t.div, fcoef := t.fcoef, qco := t.qco, scan := t.scan, dcout := t.dcout,
      dcs := t.dcs, acs := t.acs, dcidx := t.dcidx, acidx := t.acidx, dclen := t.dclen, aclen := t.aclen } := by
  apply State.ext <;> simp

/-- Settles O54: the invariant of the pass at its end. -/
theorem encodeFillsTheStreams : Obligations.EncodeFillsTheStreams := by
  refine ⟨fun _ _ _ _ _ => rfl, ⟨rfl, rfl, rfl⟩,
    fun s br bc k => ⟨(loadPixels br bc k s).pixi, rfl, fun i => tabulate_getElem _ i.val i.isLt⟩,
    fun _ => ⟨rfl, rfl, rfl⟩, fun cls s hf => exec_bcFwd hf cls, fun s hf hdims => ?_⟩
  have h := encodedUpTo_encodePass hdims
  refine ⟨setLengths (runPass encodeBlock (zeroCursors s)), by rw [exec_itEncode hf, if_pos hdims],
    fun br bc k hbr hbc => ?_, fun k a => ⟨fun ha => ?_, fun ha => ?_⟩,
    fun a => ⟨State.readImgi_congr (by simp) (by simp) a, State.readImgo_congr (by simp) (by simp) a⟩, fun k => ?_,
    fun hnb => ?_, fun hnb => ?_, encodePass_frame s⟩
  · rw [← codedBlock_raster s k hbc]
    exact h.coded k _ (by rw [blocksDone_mul_three]; exact raster_lt hbr hbc)
  · exact (h.kept k a (by rwa [blocksDone_mul_three])).1
  · exact readAcs_of_keepsBlock (h.kept k (a / 63) (by rw [blocksDone_mul_three]; omega))
  · obtain ⟨hd, ha⟩ := h.cursors k
    rw [blocksDone_mul_three] at hd ha
    exact ⟨hd, ha, rfl, rfl⟩
  · exact ⟨_, rfl, codedBlock_last hnb ▸ h.last (by omega)⟩
  · rw [runPass_of_blockCount_eq_zero (s := zeroCursors s) hnb]
    rfl

end Sys2Proof.Machine

/-! PROOF. The decoder and the encoder undo each other (R51 to R54): the rows of the opcode map exclude each other, so
that the row of a command is the one that its word finds. -/

namespace Sys2Proof

variable {w : Word} {r r' : Row} {i : Instr}

/-! ### The rows exclude each other -/

theorem accepts_iff : r.accepts w = true ↔ w &&& r.mask = r.mtch := by
  rw [Row.accepts, beq_iff_eq]

/-- Two rows of the map differ in a bit that both masks test. -/
theorem opcodeMap_pairwise : opcodeMap.Pairwise fun r r' => r.mtch &&& r'.mask ≠ r'.mtch &&& r.mask := by decide

/-- At most one row accepts a word (R53): a word that two rows accept agrees with both in the bits that both test. -/
theorem row_eq_of_accepts (hr : r ∈ opcodeMap) (hr' : r' ∈ opcodeMap) (h : r.accepts w = true)
    (h' : r'.accepts w = true) : r = r' := by
  rw [accepts_iff] at h h'
  by_contra hne
  have : Std.Symm fun r r' : Row => r.mtch &&& r'.mask ≠ r'.mtch &&& r.mask := ⟨fun _ _ => Ne.symm⟩
  refine opcodeMap_pairwise.forall hr hr' hne ?_
  calc
    r.mtch &&& r'.mask = w &&& r.mask &&& r'.mask := by rw [h]
    _ = w &&& r'.mask &&& r.mask := by rw [BitVec.and_assoc, BitVec.and_comm r.mask, BitVec.and_assoc]
    _ = r'.mtch &&& r.mask := by rw [h']

/-- Settles O3: they are the same row. -/
theorem noWordMatchesTwoRows : Obligations.NoWordMatchesTwoRows :=
  fun _ _ _ hr hr' h h' => congrArg Row.mnemonic (row_eq_of_accepts hr hr' h h')

/-! ### What the decoder answers -/

theorem decode_of_accepts (hr : r ∈ opcodeMap) (h : r.accepts w = true) : decode w = .command (r.build w) := by
  unfold decode
  split
  · rename_i r' hr'
    rw [row_eq_of_accepts (List.mem_of_find?_eq_some hr') hr (List.find?_some (p := fun r : Row => r.accepts w) hr') h]
  · rename_i hnone
    exact absurd h (List.find?_eq_none.1 hnone r hr)

theorem decode_eq_command_iff : decode w = .command i ↔ ∃ r ∈ opcodeMap, r.accepts w = true ∧ r.build w = i := by
  refine ⟨fun h => ?_, fun ⟨r, hr, hacc, hb⟩ => hb ▸ decode_of_accepts hr hacc⟩
  unfold decode at h
  split at h
  · rename_i r hr
    have hacc := List.find?_some (p := fun r : Row => r.accepts w) hr
    exact ⟨r, List.mem_of_find?_eq_some hr, hacc, Decoded.command.inj h⟩
  · cases h

theorem exists_decode_eq_illegal_iff :
    (∃ why, decode w = .illegal why) ↔ ¬∃ r ∈ opcodeMap, r.accepts w = true := by
  refine ⟨fun ⟨why, hw⟩ ⟨r, hr, h⟩ => ?_, fun h => ?_⟩
  · rw [decode_of_accepts hr h] at hw
    cases hw
  · cases hd : decode w with
    | illegal why => exact ⟨why, rfl⟩
    | command i =>
      obtain ⟨r, hr, hacc, -⟩ := decode_eq_command_iff.1 hd
      exact absurd ⟨r, hr, hacc⟩ h

/-! ### Fields -/

theorem field_lt (w : Word) (lo len : Nat) : field w lo len < 2 ^ len := BitVec.isLt _

theorem field_ofNat (n lo len : Nat) : field (BitVec.ofNat 32 n) lo len = (n % 2 ^ 32) >>> lo % 2 ^ len := by
  rw [field, BitVec.extractLsb'_toNat, BitVec.toNat_ofNat]

/-- A placed field is read back, on top of what stood there. -/
theorem field_or_place_same {x lo len : Nat} (hx : x < 2 ^ len) (hlen : lo + len ≤ 32) :
    field (w ||| place x lo len) lo len = field w lo len ||| x := by
  have hp : (place x lo len).extractLsb' lo len = BitVec.ofNat len x := by
    ext j hj
    simp [place, hj, show lo + j < 32 by omega]
  rw [field, BitVec.extractLsb'_or, hp, BitVec.toNat_or, BitVec.toNat_ofNat, Nat.mod_eq_of_lt hx, field]

/-- A field placed elsewhere is not seen. -/
theorem field_or_place_other {x lo len lo' len' : Nat} (h : lo' + len' ≤ lo ∨ lo + len ≤ lo') :
    field (w ||| place x lo' len') lo len = field w lo len := by
  have hp : (w ||| place x lo' len').extractLsb' lo len = w.extractLsb' lo len := by
    ext j hj
    rcases h with h | h
    · simp [place, BitVec.getLsbD_of_ge _ _ (show len' ≤ lo + j - lo' by omega)]
    · have hlt : lo + j < lo' := by omega
      simp [place, hlt]
  rw [field, hp, field]

theorem ChannelClass.bit_lt (cls : ChannelClass) : cls.bit < 2 ^ 1 := by cases cls <;> decide

/-- The class is the one whose number the one-bit field spells (R52). -/
theorem classBit_eq_iff {lo : Nat} {cls : ChannelClass} : classBit w lo = cls ↔ field w lo 1 = cls.bit := by
  rw [← classBit_bit]
  cases classBit w lo <;> cases cls <;> decide

/-- A placed class bit is read back. -/
theorem field_or_place_bit {lo : Nat} (cls : ChannelClass) (hlo : lo < 32) :
    field (w ||| place cls.bit lo 1) lo 1 = field w lo 1 ||| cls.bit :=
  field_or_place_same cls.bit_lt hlo

/-- A placed field stays within its bits. -/
theorem place_and_fieldMask (x lo len : Nat) : place x lo len &&& fieldMask lo len = place x lo len := by
  ext j hj
  by_cases hlo : j < lo
  · simp [place, hlo]
  · by_cases hlen : j - lo < len
    · simp [fieldMask, hlo, hlen]
    · simp [place, hlo, BitVec.getLsbD_of_ge _ _ (show len ≤ j - lo by omega)]

/-- A field that the mask does not test is not seen by it. -/
theorem or_place_and {x lo len : Nat} {m : Word} (h : fieldMask lo len &&& m = 0) :
    (w ||| place x lo len) &&& m = w &&& m := by
  have hzero : place x lo len &&& m = 0#32 := by
    rw [← place_and_fieldMask, BitVec.and_assoc, h]
    exact BitVec.and_zero
  rw [BitVec.and_or_distrib_right, hzero, BitVec.or_zero]

/-! ### The round trips -/

/-- The rows stand in the order of the commands. -/
theorem Instr.ctorIdx_lt (i : Instr) : i.ctorIdx < opcodeMap.length := by
  cases i <;> simp [opcodeMap, rowsSysToId, rowsQsZz, rowsBcIt, Instr.ctorIdx]

/-- The command's row of the opcode map. -/
def Instr.row (i : Instr) : Row := opcodeMap[i.ctorIdx]'i.ctorIdx_lt

theorem Instr.row_mem (i : Instr) : i.row ∈ opcodeMap := List.getElem_mem _

/-- The row tests no bit of an operand field. -/
theorem Instr.row_accepts_encode (i : Instr) : i.row.accepts (encode i) = true := by
  cases i <;>
    simp (disch := decide) [Instr.row, Instr.ctorIdx, opcodeMap, rowsSysToId, rowsQsZz, rowsBcIt, accepts_iff, encode,
      or_place_and]

/-- The row reads each operand from the field it was placed in. -/
theorem Instr.row_build_encode (i : Instr) (h : WellFormed i = true) : i.row.build (encode i) = i := by
  cases i <;>
    simp_all [WellFormed, Instr.row, Instr.ctorIdx, opcodeMap, rowsSysToId, rowsQsZz, rowsBcIt, encode, field_ofNat,
      field_or_place_same, field_or_place_other, field_or_place_bit, classBit_eq_iff]

/-- Settles O1: its row finds the word of a command and reads its operands back. -/
theorem decodeOfEncode : Obligations.DecodeOfEncode := fun i h =>
  (decode_of_accepts i.row_mem i.row_accepts_encode).trans (congrArg _ (i.row_build_encode h))

/-- Every field that a row reads fits the operand it gives. -/
theorem wellFormed_build : ∀ r ∈ opcodeMap, WellFormed (r.build w) = true := by
  have h3 (lo : Nat) : field w lo 3 < 8 := field_lt w lo 3
  have h4 (lo : Nat) : field w lo 4 < 16 := field_lt w lo 4
  have h6 (lo : Nat) : field w lo 6 < 64 := field_lt w lo 6
  simp [opcodeMap, rowsSysToId, rowsQsZz, rowsBcIt, WellFormed, h3, h4, h6]

/-- Settles O2: the word is its command's, and the row's fields keep the operands in range. -/
theorem encodeOfDecode : Obligations.EncodeOfDecode := by
  intro w i h
  obtain ⟨r, hr, -, rfl⟩ := decode_eq_command_iff.1 h
  exact ⟨wellFormed_build r hr, encode_of_decode h⟩

end Sys2Proof

/-! PROOF. Which words are illegal (R55): a row tests the unit, the operation, bits 23:16 and the must-be-zero bits of
its ARG format. -/

namespace Sys2Proof

open Sys2Proof.Machine

variable {w : Word} {r : Row} {i : Instr}

/-! ### A row's test, field by field -/

/-- Two words agree in a field exactly when they agree in its bits. -/
theorem field_eq_field_iff {v : Word} {lo len : Nat} (h : lo + len ≤ 32) :
    field w lo len = field v lo len ↔ w &&& fieldMask lo len = v &&& fieldMask lo len := by
  have hfield (u : Word) : field (u &&& fieldMask lo len) lo len = field u lo len := by
    rw [← place_field, ← BitVec.zero_or (x := place _ lo len), field_or_place_same (field_lt u lo len) h, field_ofNat]
    simp
  refine ⟨fun he => by rw [← place_field, ← place_field, he], fun he => ?_⟩
  rw [← hfield w, ← hfield v, he]

/-- A narrower mask sees no more than a wider one. -/
theorem and_or_and (w m n : Word) : w &&& (m ||| n) &&& m = w &&& m := by
  ext j hj
  cases hm : m[j] <;> simp [hm]

/-- Two words agree in the bits of two masks exactly when they agree in those of each. -/
theorem and_or_eq_iff {v m n : Word} : w &&& (m ||| n) = v &&& (m ||| n) ↔ w &&& m = v &&& m ∧ w &&& n = v &&& n := by
  refine ⟨fun h => ⟨?_, ?_⟩, fun ⟨hm, hn⟩ => by rw [BitVec.and_or_distrib_left, BitVec.and_or_distrib_left, hm, hn]⟩
  · rw [← and_or_and w m n, h, and_or_and]
  · rw [BitVec.or_comm] at h
    rw [← and_or_and w n m, h, and_or_and]

/-- The `UNIT` of a row's commands (R51). -/
def Row.unit (r : Row) : Nat := field r.mtch 28 4

/-- The `OP` of a row's commands (R51). -/
def Row.op (r : Row) : Nat := field r.mtch 24 4

/-- The bits a row tests, and that no other is in its match: its mask leaves out the low bits that its format uses. -/
theorem row_mask : ∀ r ∈ opcodeMap,
    (r.mask = fieldMask 28 4 ||| fieldMask 24 4 ||| fieldMask 16 8 |||
      fieldMask (argWidth r.unit r.op) (16 - argWidth r.unit r.op)) ∧ r.mtch = r.mtch &&& r.mask := by decide

/-- A row's match names an assigned operation and is zero elsewhere. -/
theorem row_mtch : ∀ r ∈ opcodeMap, r.unit < 8 ∧ r.op < assignedOps r.unit ∧ argWidth r.unit r.op ≤ 16 ∧
    field r.mtch 16 8 = 0 ∧ field r.mtch (argWidth r.unit r.op) (16 - argWidth r.unit r.op) = 0 := by decide

/-- Every assigned operation has its row. -/
theorem exists_row_of_assigned : ∀ unit < 8, ∀ op < assignedOps unit, ∃ r ∈ opcodeMap, r.unit = unit ∧ r.op = op := by
  decide

theorem accepts_iff_fields (hr : r ∈ opcodeMap) : r.accepts w = true ↔
    ((field w 28 4 = r.unit ∧ field w 24 4 = r.op) ∧ field w 16 8 = 0) ∧
      field w (argWidth r.unit r.op) (16 - argWidth r.unit r.op) = 0 := by
  obtain ⟨hmask, hmtch⟩ := row_mask r hr
  obtain ⟨-, -, hle, hmiddle, harg⟩ := row_mtch r hr
  rw [accepts_iff, hmtch, hmask]
  simp only [and_or_eq_iff]
  rw [← field_eq_field_iff (by omega), ← field_eq_field_iff (by omega), ← field_eq_field_iff (by omega),
    ← field_eq_field_iff (by omega), hmiddle, harg, Row.unit, Row.op]

/-- The words that some row accepts. -/
theorem exists_accepts_iff : (∃ r ∈ opcodeMap, r.accepts w = true) ↔
    field w 28 4 < 8 ∧ field w 24 4 < assignedOps (field w 28 4) ∧ field w 16 8 = 0 ∧
      field w (argWidth (field w 28 4) (field w 24 4)) (16 - argWidth (field w 28 4) (field w 24 4)) = 0 := by
  constructor
  · rintro ⟨r, hr, hacc⟩
    obtain ⟨⟨⟨hunit, hop⟩, hmiddle⟩, harg⟩ := (accepts_iff_fields hr).1 hacc
    obtain ⟨hlt, hassigned, -⟩ := row_mtch r hr
    rw [hunit, hop]
    exact ⟨hlt, hassigned, hmiddle, harg⟩
  · rintro ⟨hlt, hassigned, hmiddle, harg⟩
    obtain ⟨r, hr, hunit, hop⟩ := exists_row_of_assigned _ hlt _ hassigned
    rw [← hunit, ← hop] at harg
    exact ⟨r, hr, (accepts_iff_fields hr).2 ⟨⟨⟨hunit.symm, hop.symm⟩, hmiddle⟩, harg⟩⟩

/-- Settles O4: a word is illegal when no row accepts it; a word with an index out of range is a command's own. -/
theorem illegalWordsFault : Obligations.IllegalWordsFault := by
  refine ⟨fun w => ?_, fun w why s hd hf => writeCmd_illegal hf hd, fun i s hwf hidx hf => ?_⟩
  · rw [exists_decode_eq_illegal_iff, exists_accepts_iff]
    omega
  · have hd := decodeOfEncode i hwf
    have hfault : commandFault i s = some .invalidIndex := if_pos hidx
    refine ⟨hd, ?_⟩
    rw [writeCmd_command hf hd, exec_not_faulted i hf, hfault, Option.elim_some]

/-- Settles O5: the ten legal words are written as the words of their commands. -/
theorem exampleWordsDecode : Obligations.ExampleWordsDecode :=
  ⟨decodeOfEncode (.twRd 1 0) rfl, decodeOfEncode (.twBasis 1 0 7 3) rfl, decodeOfEncode .fdRun rfl,
    decodeOfEncode .idRun rfl, decodeOfEncode (.qsDiv .chroma 0 1) rfl, decodeOfEncode (.qsBuild .chroma) rfl,
    decodeOfEncode (.zzFwd 3 4) rfl, decodeOfEncode (.zzInv 17) rfl, decodeOfEncode (.bcFwd .luma) rfl,
    decodeOfEncode .itDecode rfl, by decide, by decide⟩

end Sys2Proof

/-! PROOF. The loading pseudo-instructions (R58): each line of an expansion is one register write (R17), and the lines
add up to whole buffers. -/

namespace Sys2Proof.Machine

variable {s : State}

/-! ### One line of an expansion -/

theorem performAll_cons {tr : Transaction} {t : State} (h : perform tr s = .next t) (rest : List Transaction) :
    performAll (tr :: rest) s = performAll rest t := by
  rw [performAll, h]

/-- A register write and an answer on the port do not meet. -/
theorem writeLocation_answerH (r : Reg) (d : Word) (o : Option Word) (s : State) :
    writeLocation r d (answerH o s) = answerH o (writeLocation r d s) := by
  cases r with
  | qbase cls i => cases cls <;> rfl
  | _ => rfl

/-- A write line outside the fault state: the port answers and the location takes the value (R17, R57). -/
theorem perform_write {r : Reg} (hr : r ≠ .cmd) (d : Word) (h : s.faulted = false) :
    perform (r.write d) s = .next (answerH none (writeLocation r d s)) := by
  have hindex : BitVec.ofNat 12 r.index ≠ cmdIndex := fun he =>
    hr (Option.some.inj ((regAt_index r).symm.trans ((congrArg regAt he).trans (regAt_index .cmd))))
  rw [Reg.write, perform_wr_other hindex, writeReg_of_regAt (by simpa using h) (regAt_index r), writeLocation_answerH]

/-- What the port held before a write line is lost. -/
theorem performAll_write_answerH (r : Reg) (d : Word) (rest : List Transaction) (s : State) :
    performAll (r.write d :: rest) (answerH none s) = performAll (r.write d :: rest) s := rfl

theorem performAll_write {r : Reg} (hr : r ≠ .cmd) (d : Word) (rest : List Transaction) (h : s.faulted = false) :
    performAll (r.write d :: rest) (answerH none s) = performAll rest (answerH none (writeLocation r d s)) := by
  rw [performAll_write_answerH, performAll_cons (perform_write hr d h)]

/-! ### LDBLK -/

/-- The elements `l` of `PIXI` written one after the other. -/
def writePixels (vs : Vector Word 64) (l : List (Fin 64)) (b : Buf 8) : Buf 8 :=
  l.foldl (fun b i => b.set i.val (vs[i].setWidth 8) i.isLt) b

theorem writePixels_getElem (vs : Vector Word 64) (b : Buf 8) (i : Fin 64) :
    (writePixels vs (List.finRange 64) b)[i] = vs[i].setWidth 8 := by
  simpa [writePixels] using foldl_set_getElem id (vs.map (·.setWidth 8)) (List.finRange 64) b Function.injective_id i

theorem performAll_pixi (vs : Vector Word 64) (l : List (Fin 64)) (h : s.faulted = false) :
    performAll (l.map fun i => (Reg.pixi i).write vs[i]) (answerH none s) =
      .next { answerH none s with pixi := writePixels vs l s.pixi } := by
  induction l generalizing s with
  | nil => rfl
  | cons i l ih =>
    rw [List.map_cons, performAll_write (r := .pixi i) nofun _ _ h, ih (by rw [writeLocation_faulted, h])]
    rfl

theorem performAll_ldblk (vs : Vector Word 64) (h : s.faulted = false) :
    performAll (Pseudo.ldblk vs).expand s =
      .next { answerH none s with pixi := writePixels vs (List.finRange 64) s.pixi } := by
  rw [← performAll_pixi vs _ h, Pseudo.expand, List.finRange_succ, List.map_cons, performAll_write_answerH]

/-! ### LDAC -/

/-- Pushes from a count of `n` up fill the staging buffer from `n` up (R117), as long as there is room. -/
theorem performAll_acpush {n : Nat} (ds : List Word) (h : s.faulted = false) (hn : s.accnt.toNat = n)
    (hroom : n + ds.length ≤ 63) :
    ∃ t, performAll (ds.map Reg.acpush.write) (answerH none s) = .next t ∧ t.accnt.toNat = n + ds.length ∧
      (∀ j (hj : j < ds.length), t.acin[n + j] = ds[j].setWidth 16) ∧
      (∀ i (hi : i < n), t.acin[i] = s.acin[i]) ∧
      t = { answerH none s with acin := t.acin, accnt := t.accnt } := by
  induction ds generalizing s n with
  | nil => exact ⟨answerH none s, rfl, hn, fun j hj => (Nat.not_lt_zero j hj).elim, fun _ _ => rfl, rfl⟩
  | cons d ds ih =>
    rw [List.length_cons] at hroom
    have hcount : (pushAc d s).accnt.toNat = n + 1 := by
      rw [pushAc_accnt, hn, BitVec.toNat_ofNat]
      omega
    obtain ⟨t, ht, hcnt, hnew, hold, hframe⟩ := ih (s := pushAc d s) (n := n + 1) h hcount (by omega)
    refine ⟨t, ?_, ?_, fun j hj => ?_, fun i hi => ?_, hframe⟩
    · rw [List.map_cons, performAll_write (r := .acpush) nofun _ _ h]
      exact ht
    · rw [hcnt, List.length_cons]
      omega
    · cases j with
      | zero => simp [hold n (by omega), hn]
      | succ j =>
        rw [List.length_cons] at hj
        have hidx : n + 1 + j = n + (j + 1) := by omega
        simpa [hidx] using hnew j (by omega)
    · have hne : i ≠ n := by omega
      simp [hold i (by omega), hn, hne]

/-- `LDAC` clears the count with its first line and fills the staging buffer with the others. -/
theorem performAll_ldac (vs : Vector Word 63) (h : s.faulted = false) :
    ∃ t, performAll (Pseudo.ldac vs).expand s = .next t ∧ t.accnt = 63 ∧
      (∀ i : Fin 63, t.acin[i] = vs[i].setWidth 16) ∧ t = { answerH none s with acin := t.acin, accnt := t.accnt } := by
  have hclear : perform (commandLine .bcAcclr) s = .next (clearAccnt (answerH none s)) := by
    rw [commandLine, perform_wr_cmd, writeCmd_command (by simpa using h) (decodeOfEncode .bcAcclr rfl),
      exec_bcAcclr (by simpa using h)]
  obtain ⟨t, ht, hcnt, hnew, -, hframe⟩ :=
    performAll_acpush (s := clearAccnt s) (n := 0) ((List.finRange 63).map (vs[·])) h rfl (by simp)
  refine ⟨t, ?_, BitVec.eq_of_toNat_eq (by simpa using hcnt), fun i => ?_, hframe⟩
  · rw [Pseudo.expand, performAll_cons hclear]
    rw [List.map_map] at ht
    exact ht
  · simpa using hnew i.val (by simp)

/-- Settles O13: LDBLK and LDAC fill their buffers line by line, SETDIM writes its two registers. -/
theorem pseudoInstructionsLoadTheirTargets : Obligations.PseudoInstructionsLoadTheirTargets := by
  refine fun s h => ⟨fun vs => ⟨_, performAll_ldblk vs h, writePixels_getElem vs s.pixi, rfl⟩,
    fun vs => performAll_ldac vs h, fun r c => ?_⟩
  rw [Pseudo.expand, ← performAll_write_answerH, performAll_write (r := .rows) nofun _ _ h,
    performAll_write (r := .cols) nofun _ _ (by rw [writeLocation_faulted, h])]
  rfl

end Sys2Proof.Machine

/-! PROOF. The two commands of the SYS unit (R59, R60): a reset restores every register and leaves the storage alone. -/

namespace Sys2Proof.Machine

/-- Every register has its value of R166 after a soft reset. -/
theorem softReset_registersReset (s : State) : (softReset s).registersReset := by
  refine ⟨rfl, readLocation_wo rfl _, readLocation_wo rfl _, ?_⟩
  simp

/-- The fault code goes with the rest of `STATUS` (R60). -/
@[simp] theorem softReset_errCode (s : State) : (softReset s).errCode = 0 := by
  rw [State.errCode, softReset_status]
  rfl

/-- `SYS.NOP` answers the state it found, whether the fault state refuses it (R30) or it runs (R59). -/
theorem exec_sysNop_unchanged (s : State) : exec .sysNop s = .next s := by
  cases hf : s.faulted with
  | true => exact exec_faulted nofun hf
  | false => exact exec_sysNop hf

/-- Settles O16: the next state is the soft reset, which writes registers only. -/
theorem sresetResetsRegistersKeepsStorage : Obligations.SresetResetsRegistersKeepsStorage := by
  refine ⟨decodeOfEncode .sysSreset rfl, fun s => ⟨softReset s, exec_sysSreset s, softReset_registersReset s,
    softReset_faulted s, softReset_errCode s, ?_⟩⟩
  simp

/-- Settles O21: the word 0 is the command's own, and it leaves every state as it is. -/
theorem nopChangesNothing : Obligations.NopChangesNothing :=
  ⟨decodeOfEncode .sysNop rfl, exec_sysNop_unchanged⟩

end Sys2Proof.Machine

/-! PROOF. The two commands of the `twiddle_rom` unit (R67, R68): the word each has as a number, the fault on an index
above 7, and why 32 bits hold a twiddle word and the product of two. -/

namespace Sys2Proof

/-- A field placed below a multiple of the next power of two adds to it (R52). -/
theorem ofNat_or_place {a x lo len : Nat} (hx : x < 2 ^ len) (ha : 2 ^ (lo + len) ∣ a) :
    BitVec.ofNat 32 a ||| place x lo len = BitVec.ofNat 32 (a + 2 ^ lo * x) := by
  have hplace : place x lo len = BitVec.ofNat 32 (2 ^ lo * x) := by
    refine BitVec.eq_of_toNat_eq ?_
    simp [place, Nat.mod_eq_of_lt hx, Nat.shiftLeft_eq, Nat.mul_comm]
  have hlt : 2 ^ lo * x < 2 ^ (lo + len) := by
    rw [pow_add]
    exact Nat.mul_lt_mul_of_pos_left hx (Nat.two_pow_pos lo)
  obtain ⟨q, rfl⟩ := ha
  rw [hplace, Nat.two_pow_add_eq_or_of_lt hlt, BitVec.ofNat_or]

theorem encode_twRd {k n : Nat} (hk : k < 16) (hn : n < 16) :
    encode (.twRd k n) = BitVec.ofNat 32 (0x10000000 + 16 * k + n) := by
  have hword : encode (.twRd k n) = BitVec.ofNat 32 0x10000000 ||| place k 4 4 ||| place n 0 4 := rfl
  rw [hword, ofNat_or_place hk (by omega), ofNat_or_place hn (by omega)]
  simp

theorem encode_twBasis {u v x y : Nat} (hu : u < 16) (hv : v < 16) (hx : x < 16) (hy : y < 16) :
    encode (.twBasis u v x y) = BitVec.ofNat 32 (0x11000000 + 4096 * u + 256 * v + 16 * x + y) := by
  have hword : encode (.twBasis u v x y) =
      BitVec.ofNat 32 0x11000000 ||| place u 12 4 ||| place v 8 4 ||| place x 4 4 ||| place y 0 4 := rfl
  rw [hword, ofNat_or_place hu (by omega), ofNat_or_place hv (by omega), ofNat_or_place hx (by omega),
    ofNat_or_place hy (by omega)]
  simp

end Sys2Proof

namespace Sys2Proof.Machine

variable {s : State}

/-- An index above 7 raises `InvalidIndex` with the command's word (R147, R150, R162). -/
theorem exec_of_indexOutOfRange {i : Instr} (h : s.faulted = false) (hi : indexOutOfRange i = true) :
    exec i s = .next (raiseFault .invalidIndex (encode i) s) := by
  have hfault : commandFault i s = some .invalidIndex := if_pos hi
  rw [exec_not_faulted i h, hfault, Option.elim_some]

/-- A field from 0 to 7 spells its own index. -/
theorem toIndex_of_lt {n : Nat} (hn : n < 8) : toIndex n = ⟨n, hn⟩ :=
  Fin.ext (Nat.mod_eq_of_lt hn)

theorem legalIndex_of_lt {n : Nat} (hn : n < 8) : legalIndex n = true :=
  decide_eq_true (Nat.le_of_lt_succ hn)

/-- The largest magnitude in the ROM is 32138 (R61). -/
theorem twiddle_natAbs_le : ∀ k n : Fin 8, (twiddle k n).natAbs ≤ 32138 := by
  decide

/-- The product of two twiddle words fits s32 (R68). -/
theorem basis_natAbs_le (u v x y : Fin 8) : (basis u v x y).natAbs ≤ 32138 ^ 2 := by
  rw [basis, Int.natAbs_mul, sq]
  exact Nat.mul_le_mul (twiddle_natAbs_le u x) (twiddle_natAbs_le v y)

/-- A magnitude below 2^31 is read back from `RESULT` as the number it was (R12). -/
theorem toInt_word_of_natAbs_lt {a : Int} (ha : a.natAbs < 2 ^ 31) : (BitVec.ofInt 32 a).toInt = a :=
  toInt_ofInt_of_fits (by decide) (by omega) (by omega)

theorem exec_twRd_legal (h : s.faulted = false) {k n : Nat} (hk : k < 8) (hn : n < 8) :
    exec (.twRd k n) s = .next (setResult (BitVec.ofInt 32 (twiddle ⟨k, hk⟩ ⟨n, hn⟩)) s) := by
  rw [exec_twRd h, legalIndex_of_lt hk, legalIndex_of_lt hn, toIndex_of_lt hk, toIndex_of_lt hn]
  rfl

theorem exec_twBasis_legal (h : s.faulted = false) {u v x y : Nat} (hu : u < 8) (hv : v < 8) (hx : x < 8)
    (hy : y < 8) :
    exec (.twBasis u v x y) s =
      .next (setResult (BitVec.ofInt 32 (basis ⟨u, hu⟩ ⟨v, hv⟩ ⟨x, hx⟩ ⟨y, hy⟩)) s) := by
  rw [exec_twBasis h, legalIndex_of_lt hu, legalIndex_of_lt hv, legalIndex_of_lt hx, legalIndex_of_lt hy,
    toIndex_of_lt hu, toIndex_of_lt hv, toIndex_of_lt hx, toIndex_of_lt hy]
  rfl

/-- Settles O22: the ROM's magnitudes are below 2^31, and an index above 7 is the table's `InvalidIndex`. -/
theorem twRdReadsTheRom : Obligations.TwRdReadsTheRom := by
  intro k n s h hk16 hn16
  refine ⟨encode_twRd hk16 hn16, fun hk hn => ⟨_, exec_twRd_legal h hk hn, ?_⟩, fun hout => ?_⟩
  · exact toInt_word_of_natAbs_lt ((twiddle_natAbs_le _ _).trans_lt (by norm_num))
  · rw [← encode_twRd hk16 hn16]
    exact exec_of_indexOutOfRange h (by simpa [indexOutOfRange] using hout)

/-- Settles O23: 32138^2 is below 2^31, so 32 bits do not cut the product. -/
theorem twBasisIsTheExactProduct : Obligations.TwBasisIsTheExactProduct := by
  intro u v x y s h hu16 hv16 hx16 hy16
  refine ⟨encode_twBasis hu16 hv16 hx16 hy16, fun hu hv hx hy => ⟨_, exec_twBasis_legal h hu hv hx hy, ?_⟩,
    fun hout => ?_⟩
  · exact toInt_word_of_natAbs_lt ((basis_natAbs_le _ _ _ _).trans_lt (by norm_num))
  · rw [← encode_twBasis hu16 hv16 hx16 hy16]
    exact exec_of_indexOutOfRange h (by simpa [indexOutOfRange, or_assoc] using hout)

end Sys2Proof.Machine

/-! PROOF. Sums of eight terms, the rows and columns of the transforms: `sum8` is Mathlib's sum over `Fin 8`, so that the
library's laws of sums hold of it. -/

namespace Sys2Proof.Machine

theorem sum8_eq_sum (f : Fin 8 → Int) : sum8 f = ∑ i, f i :=
  (Fin.sum_univ_eight f).symm

theorem sum8_congr {f g : Fin 8 → Int} (h : ∀ i, f i = g i) : sum8 f = sum8 g :=
  congrArg sum8 (funext h)

theorem sum8_add (f g : Fin 8 → Int) : (sum8 fun i => f i + g i) = sum8 f + sum8 g := by
  simp only [sum8_eq_sum, Finset.sum_add_distrib]

theorem mul_sum8 (c : Int) (f : Fin 8 → Int) : c * sum8 f = sum8 fun i => c * f i := by
  simp only [sum8_eq_sum, Finset.mul_sum]

theorem sum8_mul (f : Fin 8 → Int) (c : Int) : (sum8 fun i => f i * c) = sum8 f * c := by
  simp only [sum8_eq_sum, Finset.sum_mul]

theorem sum8_comm (f : Fin 8 → Fin 8 → Int) :
    (sum8 fun i => sum8 fun j => f i j) = sum8 fun j => sum8 fun i => f i j := by
  simp only [sum8_eq_sum]
  exact Finset.sum_comm

/-- A sum may be read backwards. -/
theorem sum8_rev (f : Fin 8 → Int) : (sum8 fun i => f i.rev) = sum8 f := by
  simp only [sum8_eq_sum]
  exact Equiv.sum_comp Fin.revPerm f

/-- A weighted sum of terms of magnitude at most `m` is at most `m` times the sum of the weights' magnitudes. -/
theorem abs_sum8_mul_le (w : Fin 8 → Int) {a : Fin 8 → Int} {m : Int} (ha : ∀ i, |a i| ≤ m) :
    |sum8 fun i => w i * a i| ≤ (sum8 fun i => |w i|) * m := by
  simp only [sum8_eq_sum, Finset.sum_mul]
  refine (Finset.abs_sum_le_sum_abs _ _).trans (Finset.sum_le_sum fun i _ => ?_)
  rw [abs_mul]
  exact mul_le_mul_of_nonneg_left (ha i) (abs_nonneg _)

end Sys2Proof.Machine

/-! PROOF. The forward transform (spec/42_dct_forward_butterfly.md): the butterflies against the double sum (R71, R72),
flat blocks (R76), symmetries (R77), and the bounds that make 12 bits enough (R73, R74). -/

namespace Sys2Proof.Machine

/-! ### The ROM's rows -/

/-- R63 (a): mirrored positions agree for an even frequency and are opposite for an odd one. -/
theorem twiddle_rev : ∀ k n : Fin 8, twiddle k n.rev = (-1) ^ k.val * twiddle k n := by
  decide

theorem sum8_twiddle_zero : sum8 (twiddle 0) = 185360 := by
  decide

/-- R63 (b): a frequency above 0 has as much below zero as above it. -/
theorem sum8_twiddle_of_ne_zero : ∀ k : Fin 8, k ≠ 0 → sum8 (twiddle k) = 0 := by
  decide

/-- No row has a greater sum of magnitudes than frequency 0. -/
theorem sum8_abs_twiddle_le : ∀ k : Fin 8, (sum8 fun n => |twiddle k n|) ≤ 185360 := by
  decide

/-! ### The butterfly -/

/-- Settles O28: by R63 (a) the terms at `n` and `7 - n` share one twiddle word up to the sign `(-1)^k`. -/
theorem forwardButterflyIsTheSum : Obligations.ForwardButterflyIsTheSum := by
  intro a k
  have h4 : twiddle k 4 = (-1) ^ k.val * twiddle k 3 := twiddle_rev k 3
  have h5 : twiddle k 5 = (-1) ^ k.val * twiddle k 2 := twiddle_rev k 2
  have h6 : twiddle k 6 = (-1) ^ k.val * twiddle k 1 := twiddle_rev k 1
  have h7 : twiddle k 7 = (-1) ^ k.val * twiddle k 0 := twiddle_rev k 0
  rw [forwardButterfly, sum8, h4, h5, h6, h7]
  split
  next heven =>
    rw [(Nat.even_iff.2 heven).neg_one_pow]
    ring
  next hodd =>
    rw [(Nat.odd_iff.2 (Nat.mod_two_ne_zero.1 hodd)).neg_one_pow]
    ring

/-- The accumulator as a column of row sums: the factor `T[u][x]` does not depend on `y`. -/
theorem facc_eq_rows (P : Fin 8 → Fin 8 → Int) (u v : Fin 8) :
    facc P u v = sum8 fun x => twiddle u x * sum8 fun y => twiddle v y * P x y := by
  simp only [facc, mul_sum8, mul_assoc]

/-- Transposing the block transposes the accumulator (R77). -/
theorem facc_transpose (P : Fin 8 → Fin 8 → Int) (u v : Fin 8) : facc (fun x y => P y x) u v = facc P v u := by
  rw [facc, sum8_comm]
  exact sum8_congr fun x => sum8_congr fun y => by rw [mul_comm (twiddle u y)]

/-- Settles O29: each pass is a row of sums, and the column pass first is the row pass first on the transpose. -/
theorem forwardPassesComputeTheDoubleSum : Obligations.ForwardPassesComputeTheDoubleSum := by
  have hrows (P : Fin 8 → Fin 8 → Int) (u v : Fin 8) : butterflyFacc P u v = facc P u v := by
    simp only [butterflyFacc, forwardButterflyIsTheSum _ _, facc_eq_rows]
  exact fun P u v => ⟨hrows P u v, (hrows (fun x y => P y x) v u).trans (facc_transpose P v u)⟩

/-! ### Additivity, reflections, flat blocks -/

theorem facc_add (P Q : Fin 8 → Fin 8 → Int) (u v : Fin 8) :
    facc (fun x y => P x y + Q x y) u v = facc P u v + facc Q u v := by
  simp only [facc, mul_add, sum8_add]

/-- Reflecting a row gives the sign of R63 (a) to its sum. -/
theorem sum8_twiddle_mul_rev (v : Fin 8) (a : Fin 8 → Int) :
    (sum8 fun y => twiddle v y * a y.rev) = (-1) ^ v.val * sum8 fun y => twiddle v y * a y := by
  rw [← sum8_rev, mul_sum8]
  exact sum8_congr fun y => by rw [twiddle_rev, Fin.rev_rev, mul_assoc]

theorem facc_reflect_cols (P : Fin 8 → Fin 8 → Int) (u v : Fin 8) :
    facc (fun x y => P x y.rev) u v = (-1) ^ v.val * facc P u v := by
  rw [facc_eq_rows, facc_eq_rows, mul_sum8]
  exact sum8_congr fun x => by rw [sum8_twiddle_mul_rev v (P x), mul_left_comm]

theorem facc_reflect_rows (P : Fin 8 → Fin 8 → Int) (u v : Fin 8) :
    facc (fun x y => P x.rev y) u v = (-1) ^ u.val * facc P u v := by
  rw [← facc_transpose, facc_reflect_cols (fun x y => P y x), facc_transpose]

/-- The rounding is odd (R11), so it keeps an alternating sign. -/
theorem rnd32_neg_one_pow_mul (k : Nat) (a : Int) : rnd32 ((-1) ^ k * a) = (-1) ^ k * rnd32 a := by
  obtain h | h := neg_one_pow_eq_or Int k
  · rw [h, one_mul, one_mul]
  · rw [h, neg_one_mul, neg_one_mul, roundingIsOdd.1]

theorem facc_const (p : Int) (u v : Fin 8) :
    facc (fun _ _ => p) u v = p * sum8 (twiddle u) * sum8 (twiddle v) := by
  rw [facc_eq_rows, sum8_mul, sum8_mul]
  ring

/-- The sums of a flat block cancel in at least one direction everywhere but at the DC position. -/
theorem sum8_twiddle_mul_eq_zero {u v : Fin 8} (h : u ≠ 0 ∨ v ≠ 0) : sum8 (twiddle u) * sum8 (twiddle v) = 0 := by
  obtain hu | hv := h
  · rw [sum8_twiddle_of_ne_zero u hu, zero_mul]
  · rw [sum8_twiddle_of_ne_zero v hv, mul_zero]

/-- Settles O30: `185360^2` is within `1408768` of `8 * 2^32`, so for `p` up to 255 the rounding gives `8 * p`. -/
theorem flatBlockHasOnlyDc : Obligations.FlatBlockHasOnlyDc := by
  refine ⟨sum8_twiddle_zero, sum8_twiddle_of_ne_zero, fun p u v => ⟨facc_const p u v, fun hac => ?_, fun h0 h255 => ?_⟩⟩
  · rw [fdct, facc_const, mul_assoc, sum8_twiddle_mul_eq_zero hac, mul_zero]
    decide
  · have hnear := (roundingIsToNearest.1 (p * 185360 * 185360)).1
    rw [fdct, facc_const, sum8_twiddle_zero]
    omega

/-- Settles O31: the signs come from R63 (a); one pixel of 3 rounds to 0 where one of 6 rounds to 1. -/
theorem forwardSymmetries : Obligations.ForwardSymmetries := by
  refine ⟨fun P Q u v => ⟨?_, facc_add P Q u v, ?_, ?_⟩, ?_⟩
  · rw [fdct, facc_transpose, fdct]
  · rw [fdct, facc_reflect_cols, rnd32_neg_one_pow_mul, fdct]
  · rw [fdct, facc_reflect_rows, rnd32_neg_one_pow_mul, fdct]
  · exact ⟨fun x y => if x = 0 ∧ y = 0 then 3 else 0, fun x y => if x = 0 ∧ y = 0 then 3 else 0, 0, 0, by decide⟩

/-! ### Bounds -/

/-- A row of twiddle words enlarges a magnitude at most 185360 times. -/
theorem abs_sum8_twiddle_mul_le (k : Fin 8) {a : Fin 8 → Int} {m : Int} (ha : ∀ n, |a n| ≤ m) :
    |sum8 fun n => twiddle k n * a n| ≤ 185360 * m :=
  (abs_sum8_mul_le (twiddle k) ha).trans
    (mul_le_mul_of_nonneg_right (sum8_abs_twiddle_le k) ((abs_nonneg _).trans (ha 0)))

theorem abs_facc_le {P : Fin 8 → Fin 8 → Int} {m : Int} (hP : ∀ x y, |P x y| ≤ m) (u v : Fin 8) :
    |facc P u v| ≤ 185360 * (185360 * m) := by
  rw [facc_eq_rows]
  exact abs_sum8_twiddle_mul_le u fun x => abs_sum8_twiddle_mul_le v (hP x)

/-- Twice an intensity less 255 lies within 255 of zero, so by additivity the doubled accumulator is near that of the
flat block of 255: this halves the AC bound (R74). -/
theorem abs_two_mul_facc_sub_le {P : Fin 8 → Fin 8 → Int} (hP : isPixelBlock P) (u v : Fin 8) :
    |2 * facc P u v - facc (fun _ _ => 255) u v| ≤ 8761374048000 := by
  have hcentred : ∀ x y, |2 * P x y - 255| ≤ 255 := fun x y => by
    have := hP x y
    rw [abs_le]
    omega
  have hsplit : facc (fun x y => 2 * P x y - 255) u v + facc (fun _ _ => 255) u v = facc P u v + facc P u v := by
    simp only [← facc_add, sub_add_cancel, two_mul]
  have hbound := abs_facc_le hcentred u v
  rwa [eq_sub_of_add_eq hsplit, ← two_mul] at hbound

theorem facc_255_dc : facc (fun _ _ => 255) 0 0 = 8761374048000 := by
  rw [facc_const, sum8_twiddle_zero]
  norm_num

theorem facc_natAbs_le_of_ac {P : Fin 8 → Fin 8 → Int} (hP : isPixelBlock P) {u v : Fin 8} (hac : u ≠ 0 ∨ v ≠ 0) :
    (facc P u v).natAbs ≤ 4380687024000 := by
  have h := abs_two_mul_facc_sub_le hP u v
  rw [facc_const, mul_assoc, sum8_twiddle_mul_eq_zero hac, abs_le] at h
  omega

theorem facc_bounds {P : Fin 8 → Fin 8 → Int} (hP : isPixelBlock P) (u v : Fin 8) :
    -4380687024000 ≤ facc P u v ∧ facc P u v ≤ 8761374048000 := by
  by_cases hac : u ≠ 0 ∨ v ≠ 0
  · have := facc_natAbs_le_of_ac hP hac
    omega
  · obtain ⟨rfl, rfl⟩ : u = 0 ∧ v = 0 := by simpa using hac
    have h := abs_two_mul_facc_sub_le hP 0 0
    rw [facc_255_dc, abs_le] at h
    omega

theorem fdct_bounds {P : Fin 8 → Fin 8 → Int} (hP : isPixelBlock P) (u v : Fin 8) :
    -1020 ≤ fdct P u v ∧ fdct P u v ≤ 2040 := by
  have hnear := (roundingIsToNearest.1 (facc P u v)).1
  have hacc := facc_bounds hP u v
  rw [fdct]
  omega

theorem fdct_natAbs_le_of_ac {P : Fin 8 → Fin 8 → Int} (hP : isPixelBlock P) {u v : Fin 8} (hac : u ≠ 0 ∨ v ≠ 0) :
    (fdct P u v).natAbs ≤ 1020 := by
  have hnear := (roundingIsToNearest.1 (facc P u v)).1
  have hacc := facc_natAbs_le_of_ac hP hac
  rw [fdct]
  omega

/-- The row pass enlarges an intensity at most 185360 times (R74). -/
theorem forwardButterfly_natAbs_le {P : Fin 8 → Fin 8 → Int} (hP : isPixelBlock P) (x v : Fin 8) :
    (forwardButterfly (P x) v).natAbs ≤ 47266800 := by
  have hpixel : ∀ y, |P x y| ≤ 255 := fun y => by
    have := hP x y
    rw [abs_le]
    omega
  have hbound := abs_sum8_twiddle_mul_le v hpixel
  rw [← forwardButterflyIsTheSum, abs_le] at hbound
  omega

/-- Settles O27: the bounds are those of centred intensities; the three blocks that reach the lower one are summed. -/
theorem forwardBounds : Obligations.ForwardBounds := by
  refine ⟨fun P hP => ⟨forwardButterfly_natAbs_le hP, fun u v => ⟨facc_bounds hP u v, fdct_bounds hP u v, ?_⟩⟩,
    facc_255_dc, by norm_num, by norm_num, ?_⟩
  · exact fdct_natAbs_le_of_ac hP
  · decide

/-! ### The command -/

theorem isPixelBlock_unsignedMatrix (b : Buf 8) : isPixelBlock (unsignedMatrix b) := fun x y => by
  have := (b[lin x y]).isLt
  rw [unsignedMatrix]
  omega

/-- Settles O26: the coefficients fit s12 by R74, so `FCOEF` holds the integers of R70, which the passes give too. -/
theorem fdRunIsTheRoundedDoubleSum : Obligations.FdRunIsTheRoundedDoubleSum := by
  refine ⟨decodeOfEncode .fdRun rfl, fun s h => ⟨_, exec_fdRun h, fun u v => ?_⟩⟩
  obtain ⟨hlow, hhigh⟩ := fdct_bounds (isPixelBlock_unsignedMatrix s.pixi) u v
  obtain ⟨hrows, hcols⟩ := forwardPassesComputeTheDoubleSum (unsignedMatrix s.pixi) u v
  rw [signedMatrix_bufOfMatrix (by decide) (by omega) (by omega), hrows, hcols]
  exact ⟨rfl, rfl, rfl⟩

end Sys2Proof.Machine

/-! PROOF. The inverse transform (spec/43_dct_inverse_butterfly.md): the butterflies against the double sum (R81, R82),
the bounds of the path (R84), DC-only matrices (R85), and the command (R83). -/

namespace Sys2Proof.Machine

/-! ### The butterfly -/

/-- By R63 (a) the even part takes the same value at mirrored positions. -/
theorem evenPart_rev (A : Fin 8 → Int) (n : Fin 8) : evenPart A n.rev = evenPart A n := by
  simp [evenPart, twiddle_rev]

/-- By R63 (a) the odd part takes opposite values at mirrored positions. -/
theorem oddPart_rev (A : Fin 8 → Int) (n : Fin 8) : oddPart A n.rev = -oddPart A n := by
  simp only [oddPart, twiddle_rev]
  norm_num
  ring

/-- Settles O34: at `n` and at `7 - n` alike the butterfly adds the two parts, which hold the eight terms. -/
theorem inverseButterflyIsTheSum : Obligations.InverseButterflyIsTheSum := by
  intro A n
  have hparts : inverseButterfly A n = evenPart A n + oddPart A n := by
    rw [inverseButterfly, evenPart_rev, oddPart_rev, sub_neg_eq_add, ite_self]
  rw [hparts, evenPart, oddPart, sum8]
  ring

/-- The accumulator as a column of row sums: the factor `T[u][x]` does not depend on `v`. -/
theorem iacc_eq_rows (C : Fin 8 → Fin 8 → Int) (x y : Fin 8) :
    iacc C x y = sum8 fun u => twiddle u x * sum8 fun v => twiddle v y * C u v := by
  simp only [iacc, mul_sum8, mul_assoc]

/-- Transposing the coefficients transposes the accumulator (R87). -/
theorem iacc_transpose (C : Fin 8 → Fin 8 → Int) (x y : Fin 8) : iacc (fun u v => C v u) x y = iacc C y x := by
  rw [iacc, sum8_comm]
  exact sum8_congr fun u => sum8_congr fun v => by rw [mul_comm (twiddle v x)]

/-- Settles O35: each pass is a row of sums, and the column pass first is the row pass first on the transpose. -/
theorem inversePassesComputeTheDoubleSum : Obligations.InversePassesComputeTheDoubleSum := by
  have hrows (C : Fin 8 → Fin 8 → Int) (x y : Fin 8) :
      inverseButterfly (fun u => inverseButterfly (C u) y) x = iacc C x y := by
    simp only [inverseButterflyIsTheSum _ _, iacc_eq_rows]
  exact fun C x y => ⟨(hrows (fun u v => C v u) y x).trans (iacc_transpose C y x), hrows C x y⟩

/-! ### Saturation and bounds -/

theorem sat16_bounds (a : Int) : -32768 ≤ sat16 a ∧ sat16 a ≤ 32767 := by
  unfold sat16
  split_ifs <;> omega

theorem sat16_of_fits {a : Int} (hlow : -32768 ≤ a) (hhigh : a ≤ 32767) : sat16 a = a := by
  rw [sat16, if_neg hlow.not_gt, if_neg hhigh.not_gt]

/-- Saturation never changes the clamped intensity (R80). -/
theorem clamp255_sat16 (a : Int) : clamp255 (sat16 a) = clamp255 a := by
  unfold sat16 clamp255
  split_ifs <;> omega

/-- A weighted sum, given a bound on the weights' magnitudes and one on the terms'. -/
theorem abs_sum8_mul_le_mul {w a : Fin 8 → Int} {b m : Int} (hw : (sum8 fun i => |w i|) ≤ b) (ha : ∀ i, |a i| ≤ m) :
    |sum8 fun i => w i * a i| ≤ b * m :=
  (abs_sum8_mul_le w ha).trans (mul_le_mul_of_nonneg_right hw ((abs_nonneg _).trans (ha 0)))

/-- R63 (g): the sum of magnitudes of a position's twiddle words. -/
theorem sum8_abs_twiddle_position_le : ∀ n : Fin 8, (sum8 fun k => |twiddle k n|) ≤ 173136 := by
  decide

/-- A column of twiddle words enlarges a magnitude at most 173136 times. -/
theorem abs_sum8_twiddle_position_mul_le (n : Fin 8) {A : Fin 8 → Int} {m : Int} (hA : ∀ k, |A k| ≤ m) :
    |sum8 fun k => twiddle k n * A k| ≤ 173136 * m :=
  abs_sum8_mul_le_mul (sum8_abs_twiddle_position_le n) hA

theorem abs_iacc_le {C : Fin 8 → Fin 8 → Int} {m : Int} (hC : ∀ u v, |C u v| ≤ m) (x y : Fin 8) :
    |iacc C x y| ≤ 173136 * (173136 * m) := by
  rw [iacc_eq_rows]
  exact abs_sum8_twiddle_position_mul_le x fun u => abs_sum8_twiddle_position_mul_le y (hC u)

theorem idct_bounds (C : Fin 8 → Fin 8 → Int) (x y : Fin 8) : -32768 ≤ idct C x y ∧ idct C x y ≤ 32767 :=
  sat16_bounds _

/-- Settles O33: each pass enlarges the magnitude 2^31 of an s32 at most 173136 times. -/
theorem inverseBounds : Obligations.InverseBounds := by
  refine ⟨fun C hC => ?_, by norm_num⟩
  have hword : ∀ u v, |C u v| ≤ 2 ^ 31 := fun u v => by
    have := hC u v
    rw [abs_le]
    omega
  refine ⟨fun x v => ?_, fun x y => ?_⟩
  · have hpass := abs_sum8_twiddle_position_mul_le x fun u => hword u v
    rw [← inverseButterflyIsTheSum, abs_le] at hpass
    omega
  · have hacc := abs_iacc_le hword x y
    have hnear := (roundingIsToNearest.1 (iacc C x y)).1
    rw [abs_le] at hacc
    exact ⟨by omega, by omega, idct_bounds C x y⟩

/-! ### DC-only matrices -/

theorem twiddle_zero : ∀ n : Fin 8, twiddle 0 n = 23170 := by
  decide

/-- Only the DC term of the double sum remains, and its factors are 23170 everywhere (R85). -/
theorem iacc_dc (c : Int) (x y : Fin 8) :
    iacc (fun u v => if u = 0 ∧ v = 0 then c else 0) x y = c * 536848900 := by
  have hsum : iacc (fun u v => if u = 0 ∧ v = 0 then c else 0) x y = twiddle 0 x * twiddle 0 y * c := by
    simp [iacc, sum8_eq_sum, ite_and]
  rw [hsum, twiddle_zero, twiddle_zero]
  ring

theorem idct_dc (c : Int) (x y : Fin 8) :
    idct (fun u v => if u = 0 ∧ v = 0 then c else 0) x y = sat16 (rnd32 (c * 536848900)) := by
  rw [idct, iacc_dc]

/-- Settles O36: `8 * 536848900` is within `176096` of 2^32, so for `p` up to 255 the rounding gives `p`. -/
theorem dcOnlyMatrixIsFlat : Obligations.DcOnlyMatrixIsFlat := by
  refine ⟨idct_dc, fun p x y h0 h255 => ?_, fun x y => ?_⟩
  · have hnear := (roundingIsToNearest.1 (8 * p * 536848900)).1
    have hround : rnd32 (8 * p * 536848900) = p := by omega
    rw [idct_dc, hround, sat16_of_fits (by omega) (by omega)]
  · rw [idct_dc]
    decide

/-! ### The command -/

/-- Settles O32: saturated numbers fit s16, so `SAMP` holds the integers of R80, which the passes give too. -/
theorem idRunIsTheSaturatedDoubleSum : Obligations.IdRunIsTheSaturatedDoubleSum := by
  refine ⟨decodeOfEncode .idRun rfl, clamp255_sat16, fun s h => ⟨_, exec_idRun h, fun x y => ?_⟩⟩
  obtain ⟨hlow, hhigh⟩ := idct_bounds (signedMatrix s.icoef) x y
  obtain ⟨hcols, hrows⟩ := inversePassesComputeTheDoubleSum (signedMatrix s.icoef) x y
  rw [signedMatrix_bufOfMatrix (by decide) (by omega) (by omega), hcols, hrows]
  exact ⟨rfl, rfl, rfl⟩

end Sys2Proof.Machine

/-! PROOF. Forward then inverse without quantisation (spec/43_dct_inverse_butterfly.md R86): the error has two parts, the
64 forward roundings seen through the inverse basis, and what the table lacks to be orthonormal (R65). -/

namespace Sys2Proof.Machine

/-! ### One dimension: what the table lacks to be orthonormal -/

/-- The exact one-dimensional round trip, the forward sums of a row put through the inverse sum. -/
def roundTrip (a : Fin 8 → Int) (n : Fin 8) : Int :=
  sum8 fun k => twiddle k n * sum8 fun m => twiddle k m * a m

/-- The inner product of two positions' twiddle words, less the 2^32 that an orthonormal table has where they agree. -/
def gramError (n m : Fin 8) : Int :=
  (sum8 fun k => twiddle k n * twiddle k m) - if n = m then 2 ^ 32 else 0

theorem sum8_abs_gramError_le : ∀ n : Fin 8, (sum8 fun m => |gramError n m|) ≤ 210436 := by
  decide

theorem roundTrip_sub_eq (a : Fin 8 → Int) (n : Fin 8) :
    roundTrip a n - 2 ^ 32 * a n = sum8 fun m => gramError n m * a m := by
  have hgram : roundTrip a n = sum8 fun m => (sum8 fun k => twiddle k n * twiddle k m) * a m := by
    simp only [roundTrip, mul_sum8, ← sum8_mul, mul_assoc]
    exact sum8_comm _
  have hdiag : 2 ^ 32 * a n = sum8 fun m => (if n = m then 2 ^ 32 else 0) * a m := by
    simp [sum8_eq_sum]
  rw [hgram, hdiag]
  simp only [sum8_eq_sum, ← Finset.sum_sub_distrib, gramError, sub_mul]

theorem abs_roundTrip_sub_le {a : Fin 8 → Int} {m : Int} (ha : ∀ i, |a i| ≤ m) (n : Fin 8) :
    |roundTrip a n - 2 ^ 32 * a n| ≤ 210436 * m := by
  rw [roundTrip_sub_eq]
  exact abs_sum8_mul_le_mul (sum8_abs_gramError_le n) ha

/-! ### Two dimensions -/

/-- The exact round trip of a block is that of each row, then that of the column of results. -/
theorem iacc_facc (P : Fin 8 → Fin 8 → Int) (x y : Fin 8) :
    iacc (facc P) x y = roundTrip (fun i => roundTrip (P i) y) x := by
  rw [iacc_eq_rows]
  refine sum8_congr fun u => congrArg (twiddle u x * ·) ?_
  simp only [facc_eq_rows, roundTrip, mul_sum8]
  rw [sum8_comm]
  exact sum8_congr fun i => sum8_congr fun v => sum8_congr fun j => mul_left_comm ..

/-- Without rounding the round trip loses less than a fortieth of an intensity (R86): `0.025 * 2^64` in this scale. -/
theorem iacc_facc_error_lt {P : Fin 8 → Fin 8 → Int} (hP : isPixelBlock P) (x y : Fin 8) :
    40 * (iacc (facc P) x y - 2 ^ 64 * P x y).natAbs < 2 ^ 64 := by
  have hpixel : ∀ i j, |P i j| ≤ 255 := fun i j => by
    have := hP i j
    rw [abs_le]
    omega
  have hrow : ∀ i, |roundTrip (P i) y - 2 ^ 32 * P i y| ≤ 210436 * 255 := fun i => abs_roundTrip_sub_le (hpixel i) y
  have hsize : ∀ i, |roundTrip (P i) y| ≤ (2 ^ 32 + 210436) * 255 := fun i => by
    have hi := hrow i
    have := hP i y
    rw [abs_le] at hi ⊢
    omega
  have hcol := abs_roundTrip_sub_le hsize x
  have hx := hrow x
  rw [abs_le] at hcol hx
  rw [iacc_facc]
  omega

/-! ### The forward roundings -/

/-- The accumulator is linear (R87). -/
theorem iacc_mul_sub (c : Int) (C D : Fin 8 → Fin 8 → Int) (x y : Fin 8) :
    iacc (fun u v => c * C u v - D u v) x y = c * iacc C x y - iacc D x y := by
  simp only [iacc, sum8_eq_sum, mul_sub, Finset.sum_sub_distrib, Finset.mul_sum, mul_left_comm]

/-- Each forward rounding is at most a half, 2^31 in this scale. -/
theorem abs_iacc_fdct_sub_le (P : Fin 8 → Fin 8 → Int) (x y : Fin 8) :
    |2 ^ 32 * iacc (fdct P) x y - iacc (facc P) x y| ≤ 173136 * (173136 * 2 ^ 31) := by
  have hround : ∀ u v, |2 ^ 32 * fdct P u v - facc P u v| ≤ 2 ^ 31 := fun u v => by
    have hnear := (roundingIsToNearest.1 (facc P u v)).1
    rw [fdct, abs_le]
    omega
  rw [← iacc_mul_sub]
  exact abs_iacc_le hround x y

/-- The two parts of the error together, before the last rounding (R86). -/
theorem iacc_fdct_error_lt {P : Fin 8 → Fin 8 → Int} (hP : isPixelBlock P) (x y : Fin 8) :
    40 * (iacc (fdct P) x y - 2 ^ 32 * P x y).natAbs < 20 * 173136 ^ 2 + 2 ^ 32 := by
  have hrounding := abs_iacc_fdct_sub_le P x y
  have htable := iacc_facc_error_lt hP x y
  rw [abs_le] at hrounding
  omega

/-- Settles O37: an error below 3.515 becomes at most 4 by the last rounding, and there is nothing to saturate. -/
theorem roundTripIsWithinFour : Obligations.RoundTripIsWithinFour := by
  refine ⟨fun P hP x y => ⟨iacc_fdct_error_lt hP x y, ?_⟩, by norm_num⟩
  have herror := iacc_fdct_error_lt hP x y
  have hnear := (roundingIsToNearest.1 (iacc (fdct P) x y)).1
  have hpixel := hP x y
  have hround : (rnd32 (iacc (fdct P) x y) - P x y).natAbs ≤ 4 := by omega
  rwa [idct, sat16_of_fits (by omega) (by omega)]

end Sys2Proof.Machine

/-! PROOF. The quantization table scaler (spec/44_quantization_table_scaler.md): the divisor as a function of base entry
and factor (R90, R93, R95 to R97), and the two commands (R92, R94), whose results no width cuts by R93. -/

namespace Sys2Proof

theorem encode_qsDiv (cls : ChannelClass) {u v : Nat} (hu : u < 16) (hv : v < 16) :
    encode (.qsDiv cls u v) = BitVec.ofNat 32 (0x40000000 + 256 * cls.bit + 16 * u + v) := by
  have hword : encode (.qsDiv cls u v) =
      BitVec.ofNat 32 0x40000000 ||| place cls.bit 8 1 ||| place u 4 4 ||| place v 0 4 := rfl
  rw [hword, ofNat_or_place cls.bit_lt (by omega), ofNat_or_place hu (by omega), ofNat_or_place hv (by omega)]
  simp

theorem encode_qsBuild (cls : ChannelClass) : encode (.qsBuild cls) = BitVec.ofNat 32 (0x41000000 + cls.bit) := by
  have hword : encode (.qsBuild cls) = BitVec.ofNat 32 0x41000000 ||| place cls.bit 0 1 := rfl
  rw [hword, ofNat_or_place cls.bit_lt (by omega)]
  simp

end Sys2Proof

namespace Sys2Proof.Machine

variable {s : State} {base : BitVec 8} {cf : BitVec 16}

/-! ### Scaling a base entry -/

/-- R90: the eight fraction bits of the factor are those that the division drops. -/
theorem scaleDivisor_eq (base : BitVec 8) (cf : BitVec 16) :
    scaleDivisor base cf = max 1 ((base.toNat * cf.toNat + 128) / 256) := rfl

/-- R93: the product of a u8 and a u16, with the half added, is a u24. -/
theorem scaledProduct_le (base : BitVec 8) (cf : BitVec 16) : base.toNat * cf.toNat + 128 ≤ 16711553 := by
  have hprod : base.toNat * cf.toNat ≤ 255 * 65535 :=
    Nat.mul_le_mul (Nat.le_of_lt_succ base.isLt) (Nat.le_of_lt_succ cf.isLt)
  omega

theorem one_le_scaleDivisor (base : BitVec 8) (cf : BitVec 16) : 1 ≤ scaleDivisor base cf :=
  le_max_left ..

theorem scaleDivisor_le (base : BitVec 8) (cf : BitVec 16) : scaleDivisor base cf ≤ 65279 := by
  have hprod := scaledProduct_le base cf
  rw [scaleDivisor_eq]
  omega

theorem scaleDivisor_mono (base : BitVec 8) {c₁ c₂ : BitVec 16} (h : c₁.toNat ≤ c₂.toNat) :
    scaleDivisor base c₁ ≤ scaleDivisor base c₂ :=
  max_le_max_left 1 (Nat.div_le_div_right (Nat.add_le_add_right (Nat.mul_le_mul_left base.toNat h) 128))

/-- At factor 1.0 the half that is added drops out again (R96). -/
theorem scaleDivisor_one (base : BitVec 8) : scaleDivisor base 0x0100 = if base = 0 then 1 else base.toNat := by
  have hround : (base.toNat * 256 + 128) / 256 = base.toNat := by omega
  have hscale : scaleDivisor base 0x0100 = max 1 base.toNat := congrArg (max 1) hround
  rw [hscale]
  split
  · next h => simp [h]
  · next h =>
    have : base.toNat ≠ 0 := fun h0 => h (BitVec.eq_of_toNat_eq h0)
    omega

/-- A rounded product of 0 is clamped to 1 (R97). -/
theorem scaleDivisor_of_rounds_to_zero (h : (base.toNat * cf.toNat + 128) / 256 = 0) : scaleDivisor base cf = 1 := by
  rw [scaleDivisor_eq, h]
  rfl

theorem scaleDivisor_zero (base : BitVec 8) : scaleDivisor base 0 = 1 :=
  scaleDivisor_of_rounds_to_zero (by simp)

/-! ### The divisor -/

theorem divisor_le (s : State) (cls : ChannelClass) (u v : Fin 8) : divisor s cls u v ≤ 65279 :=
  scaleDivisor_le ..

/-- Settles O40: both bounds are those of scaling any base entry by any factor. -/
theorem divisorRange : Obligations.DivisorRange :=
  fun s cls u v => ⟨one_le_scaleDivisor .., divisor_le s cls u v, scaledProduct_le ..⟩

/-- Settles O41: `CF` is not part of the tables, so the two divisors scale the same base entry. -/
theorem divisorGrowsWithFactor : Obligations.DivisorGrowsWithFactor := by
  intro s c₁ c₂ cls u v h
  cases cls <;> exact scaleDivisor_mono _ h

theorem bufOfRows_lin (rows : List (List Nat)) (a b : Fin 8) :
    (bufOfRows rows)[lin a b] = BitVec.ofNat 8 (entry rows a.val b.val) := by
  show (bufOfRows rows)[(lin a b).val] = _
  rw [bufOfRows, tabulate_getElem, Fin.eta, rowOf_lin, colOf_lin]

/-- The divisors after a reset are the reset tables' entries (R96). -/
theorem divisor_softReset (s : State) (cls : ChannelClass) (u v : Fin 8) :
    divisor (softReset s) cls u v = if (qdef cls)[lin u v] = 0 then 1 else (qdef cls)[lin u v].toNat := by
  rw [divisor, softReset_cf, softReset_qbase, scaleDivisor_one]

/-- Settles O42: the cases of the scaled entry at the factors 1.0 and 0, and the corners of the reset tables. -/
theorem divisorAtFactorsOneAndZero : Obligations.DivisorAtFactorsOneAndZero := by
  refine ⟨fun s cls u v => ⟨fun h => ?_, fun h => ?_, scaleDivisor_of_rounds_to_zero⟩, fun s => ?_⟩
  · rw [divisor, h, scaleDivisor_one]
  · rw [divisor, h, scaleDivisor_zero]
  · simp only [divisor_softReset, qdef, bufOfRows_lin]
    decide

/-! ### The commands -/

theorem exec_qsDiv_legal (h : s.faulted = false) (cls : ChannelClass) {u v : Nat} (hu : u < 8) (hv : v < 8) :
    exec (.qsDiv cls u v) s = .next (setResult (BitVec.ofNat 32 (divisor s cls ⟨u, hu⟩ ⟨v, hv⟩)) s) := by
  rw [exec_qsDiv h, legalIndex_of_lt hu, legalIndex_of_lt hv, toIndex_of_lt hu, toIndex_of_lt hv]
  rfl

/-- Settles O38: `RESULT` holds any divisor whole, and an index above 7 is the table's `InvalidIndex`. -/
theorem qsDivGivesOneDivisor : Obligations.QsDivGivesOneDivisor := by
  intro cls u v s h hu16 hv16
  refine ⟨encode_qsDiv cls hu16 hv16, fun hu hv => ⟨_, exec_qsDiv_legal h cls hu hv, ?_⟩, fun hout => ?_⟩
  · exact Nat.mod_eq_of_lt ((divisor_le s cls _ _).trans_lt (by norm_num))
  · rw [← encode_qsDiv cls hu16 hv16]
    exact exec_of_indexOutOfRange h (by simpa [indexOutOfRange] using hout)

/-- The 16 bits of an element of `DIV` hold any divisor (R93, R94). -/
theorem buildDivisors_div_toNat (cls : ChannelClass) (s : State) (u v : Fin 8) :
    (buildDivisors cls s).div[lin u v].toNat = divisor s cls u v := by
  rw [buildDivisors_div, bufOfMatrix_lin, toNat_ofInt_of_fits ((divisor_le s cls u v).trans_lt (by norm_num))]

/-- `DIV` is read only (R18). -/
theorem writeReg_div (a : BitVec 12) (d : Word) (s : State) : (writeReg a d s).div = s.div := by
  cases hf : s.faulted with
  | true => rw [writeReg_faulted hf]
  | false =>
    cases hr : regAt a with
    | none => rw [writeReg_of_regAt_none hr]
    | some r =>
      obtain ⟨-, ⟨-, hdiv, -⟩, -⟩ := writeLocation_frame r d s
      rw [writeReg_of_regAt hf hr, hdiv]

/-- Settles O39: the elements of `DIV` are the divisors whole, and no register write reaches them. -/
theorem qsBuildGivesAllDivisors : Obligations.QsBuildGivesAllDivisors := by
  intro cls s h
  refine ⟨?_, _, exec_qsBuild h cls, buildDivisors_div_toNat cls s, fun a x => writeReg_div a x _⟩
  rw [← encode_qsBuild]
  exact decodeOfEncode (.qsBuild cls) rfl

end Sys2Proof.Machine

/-! PROOF. The zig-zag order (spec/45_zigzag_reorder.md): the table as the order of the diagonals (R100), the two
lookups (R104, R105), and the two reorderings (R106 to R108), after either of which `SCAN` and `QCO` hold the same values. -/

namespace Sys2Proof

theorem encode_zzFwd {u v : Nat} (hu : u < 8) (hv : v < 8) :
    encode (.zzFwd u v) = BitVec.ofNat 32 (0x50000000 + 8 * u + v) := by
  have hword : encode (.zzFwd u v) = BitVec.ofNat 32 0x50000000 ||| place u 3 3 ||| place v 0 3 := rfl
  rw [hword, ofNat_or_place hu (by omega), ofNat_or_place hv (by omega)]
  simp

theorem encode_zzInv {pos : Nat} (hpos : pos < 64) : encode (.zzInv pos) = BitVec.ofNat 32 (0x51000000 + pos) := by
  have hword : encode (.zzInv pos) = BitVec.ofNat 32 0x51000000 ||| place pos 0 6 := rfl
  rw [hword, ofNat_or_place hpos (by omega)]
  simp

end Sys2Proof

namespace Sys2Proof.Machine

variable {s : State}

/-! ### The order of the table -/

theorem unzigzag_zigzag_eq_lin (u v : Fin 8) : unzigzag (zigzag u v) = lin u v := by
  simpa using unzigzag_zigzag (lin u v)

/-- A number that orders the positions as R100 does: the diagonal first, then the way along it. -/
def diagonalRank (u v : Fin 8) : Nat :=
  8 * (u.val + v.val) + if (u.val + v.val) % 2 = 0 then 7 - u.val else u.val

theorem diagonalRank_lt_iff (u v u' v' : Fin 8) :
    diagonalRank u v < diagonalRank u' v' ↔
      u.val + v < u'.val + v' ∨
      (u.val + v = u'.val + v' ∧ if (u.val + v) % 2 = 0 then u'.val < u else u.val < u') := by
  unfold diagonalRank
  split_ifs <;> omega

/-- Along the scan positions the rank grows, since it grows at each of the 63 steps. -/
theorem diagonalRank_unzigzag_strictMono :
    StrictMono fun j : Fin 64 => diagonalRank (rowOf (unzigzag j)) (colOf (unzigzag j)) :=
  Fin.strictMono_iff_lt_succ.2 (by decide +kernel)

/-- `ZZ` numbers the positions in the order of R100. -/
theorem zigzag_lt_zigzag_iff (u v u' v' : Fin 8) :
    zigzag u v < zigzag u' v' ↔ diagonalRank u v < diagonalRank u' v' := by
  rw [← diagonalRank_unzigzag_strictMono.lt_iff_lt]
  simp only [unzigzag_zigzag_eq_lin, rowOf_lin, colOf_lin]

/-! ### The lookups -/

theorem exec_zzFwd_fin (h : s.faulted = false) (u v : Fin 8) :
    exec (.zzFwd u v) s = .next (setResult (BitVec.ofNat 32 (zigzag u v)) s) := by
  rw [exec_zzFwd h, toIndex_of_lt u.isLt, toIndex_of_lt v.isLt]

theorem exec_zzInv_fin (h : s.faulted = false) (pos : Fin 64) :
    exec (.zzInv pos) s = .next (setResult (BitVec.ofNat 32 (unzigzag pos)) s) := by
  rw [exec_zzInv h, Fin.ofNat_val_eq_self]

/-- Settles O43: the tables undo each other, and the rank of R100 grows along the scan positions. -/
theorem zigzagLookupsAreInverse : Obligations.ZigzagLookupsAreInverse := by
  intro s u v u' v' pos h
  refine ⟨encode_zzFwd u.isLt v.isLt, encode_zzInv pos.isLt, exec_zzFwd_fin h u v,
    (zigzag_lt_zigzag_iff u v u' v').trans (diagonalRank_lt_iff u v u' v'), ?_, _, exec_zzInv_fin h pos, ?_⟩
  · rw [exec_zzInv_fin h, unzigzag_zigzag_eq_lin, lin_val]
    rfl
  · have hq : (BitVec.ofNat 32 (unzigzag pos)).toNat = (unzigzag pos).val := Nat.mod_eq_of_lt (by omega)
    refine ⟨hq, ?_⟩
    have hfwd := exec_zzFwd_fin h (rowOf (unzigzag pos)) (colOf (unzigzag pos))
    rw [zigzag_unzigzag] at hfwd
    rw [hq]
    exact hfwd

/-! ### The reorderings -/

theorem scanBlock_scan_zigzag (s : State) (u v : Fin 8) : (scanBlock s).scan[zigzag u v] = s.qco[lin u v] := by
  rw [scanBlock_scan, scatter_zigzag]
  exact getElem_congr _ (unzigzag_zigzag_eq_lin u v)

theorem unscanBlock_qco_unzigzag (s : State) (j : Fin 64) : (unscanBlock s).qco[unzigzag j] = s.scan[j] := by
  rw [unscanBlock_qco, scatter_unzigzag]
  exact getElem_congr _ (zigzag_unzigzag j)

/-- Settles O44: each reordering is the scatter along its table. -/
theorem scanAndUnscanMoveEveryElement : Obligations.ScanAndUnscanMoveEveryElement :=
  ⟨decodeOfEncode .zzScan rfl, decodeOfEncode .zzUnscan rfl, fun s h =>
    ⟨⟨_, exec_zzScan h, scanBlock_scan_zigzag s⟩, ⟨_, exec_zzUnscan h, unscanBlock_qco_unzigzag s⟩⟩⟩

/-- `SCAN` holds the values of `QCO` in scan order. -/
def ScanHoldsQco (s : State) : Prop := ∀ j : Fin 64, s.scan[j] = s.qco[unzigzag j]

theorem scanHoldsQco_scanBlock (s : State) : ScanHoldsQco (scanBlock s) :=
  scatter_zigzag s.qco s.scan

theorem scanHoldsQco_unscanBlock (s : State) : ScanHoldsQco (unscanBlock s) :=
  fun j => (unscanBlock_qco_unzigzag s j).symm

theorem scanBlock_eq_self (h : ScanHoldsQco s) : scanBlock s = s := by
  have hscan : scatter (fun i => zigzag (rowOf i) (colOf i)) s.qco s.scan = s.scan :=
    buf_ext fun j => by rw [scatter_zigzag, h j]
  rw [scanBlock, hscan]

theorem unscanBlock_eq_self (h : ScanHoldsQco s) : unscanBlock s = s := by
  have hqco : scatter unzigzag s.scan s.qco = s.qco :=
    buf_ext fun i => by
      rw [scatter_unzigzag, h]
      exact getElem_congr _ (unzigzag_zigzag i)
  rw [unscanBlock, hqco]

/-- Settles O45: after either reordering `SCAN` holds the values of `QCO`, and then the other one moves each value to
where it stands already. -/
theorem scanAndUnscanUndoEachOther : Obligations.ScanAndUnscanUndoEachOther := by
  intro s h
  have hscan := scanHoldsQco_scanBlock s
  refine ⟨⟨scanBlock s, exec_zzScan h, ?_, hscan 0, hscan 1, hscan 2, hscan 63, fun u v hac => ?_⟩,
    unscanBlock s, exec_zzUnscan h, ?_⟩
  · rw [exec_zzUnscan ((scanBlock_faulted s).trans h), unscanBlock_eq_self hscan]
  · have hpos : 0 < (zigzag u v).val := Fin.pos_iff_ne_zero.2 hac
    refine ⟨⟨(zigzag u v).val - 1, by omega⟩, rfl, ?_⟩
    exact (getElem_congr_idx (Nat.sub_add_cancel hpos)).trans (scanBlock_scan_zigzag s u v)
  · rw [exec_zzScan ((unscanBlock_faulted s).trans h), scanBlock_eq_self (scanHoldsQco_unscanBlock s)]

end Sys2Proof.Machine

/-! PROOF. The staging of AC values (spec/46_block_codec_engine.md R117, R119): a push is one register write, and
`BC.ACCLR` sends the next one back to `ACIN[0]`. -/

namespace Sys2Proof.Machine

variable {s : State}

/-- A command line outside the fault state: the port answers and the command runs (R22, R57). -/
theorem perform_commandLine {i : Instr} (hi : WellFormed i = true) (h : s.faulted = false) :
    perform (commandLine i) s = exec i (answerH none s) := by
  rw [commandLine, perform_wr_cmd, writeCmd_command (by simpa using h) (decodeOfEncode i hi)]

/-- A write to `ACPUSH` outside the fault state is a push (R17, R117). -/
theorem perform_wr_acpush (d : Word) (h : s.faulted = false) :
    perform (.wr 0x00A d) s = .next (answerH none (pushAc d s)) :=
  perform_write (r := .acpush) nofun d h

/-- Seven bits hold the count whole (R25). -/
theorem pushAc_accnt_toNat (d : Word) (s : State) : (pushAc d s).accnt.toNat = min 127 (s.accnt.toNat + 1) := by
  rw [pushAc_accnt, BitVec.toNat_ofNat]
  omega

/-- Settles O12: the write is a push, which stages one element and counts. -/
theorem acPushFillsTheStagingBuffer : Obligations.AcPushFillsTheStagingBuffer := by
  refine fun s d h => ⟨_, perform_wr_acpush d h, pushAc_accnt_toNat d s, fun i => ?_, rfl⟩
  rw [answerH_acin, pushAc_acin]
  exact stageAc_getElem ..

/-- Settles O51: the push after the clear is the first of a new count. -/
theorem acclrRestartsTheStaging : Obligations.AcclrRestartsTheStaging := by
  refine fun s d h => ⟨decodeOfEncode .bcAcclr rfl, exec_bcAcclr h, ?_⟩
  have hclear : perform (commandLine .bcAcclr) s = .next (clearAccnt (answerH none s)) :=
    (perform_commandLine rfl h).trans (exec_bcAcclr (by simpa using h))
  have hpush := perform_wr_acpush (s := clearAccnt (answerH none s)) d (by simpa using h)
  refine ⟨_, (performAll_cons hclear _).trans (performAll_cons hpush _), rfl, ?_, fun i hi => ?_⟩
  · simp
  · have hpos : i.val ≠ 0 := Fin.val_ne_zero_iff.2 hi
    simp [hpos]

end Sys2Proof.Machine

/-! PROOF. The block codec engine step by step (spec/46_block_codec_engine.md): quantised coefficients are small (R110,
R111), products and clamped samples are stored whole (R112, R113), and the two whole-block commands are their steps in
sequence (R114 to R118). -/

namespace Sys2Proof

theorem encode_bcFwd (cls : ChannelClass) : encode (.bcFwd cls) = BitVec.ofNat 32 (0x63000000 + cls.bit) := by
  have hword : encode (.bcFwd cls) = BitVec.ofNat 32 0x63000000 ||| place cls.bit 0 1 := rfl
  rw [hword, ofNat_or_place cls.bit_lt (by omega)]
  simp

theorem encode_bcInv (cls : ChannelClass) : encode (.bcInv cls) = BitVec.ofNat 32 (0x64000000 + cls.bit) := by
  have hword : encode (.bcInv cls) = BitVec.ofNat 32 0x64000000 ||| place cls.bit 0 1 := rfl
  rw [hword, ofNat_or_place cls.bit_lt (by omega)]
  simp

end Sys2Proof

namespace Sys2Proof.Machine

variable {s : State}

/-! ### Rounded quotients -/

/-- A rounded quotient lies between zero and the dividend (R111). -/
theorem rdiv_between (a : Int) {d : Nat} (hd : 1 ≤ d) :
    (0 ≤ rdiv a d ∧ rdiv a d ≤ a) ∨ (a ≤ rdiv a d ∧ rdiv a d ≤ 0) := by
  have hnat (n : Nat) : 0 ≤ rdiv n d ∧ rdiv n d ≤ n := by
    have hquot : (2 * n + d) / (2 * d) < n + 1 := by
      rw [Nat.div_lt_iff_lt_mul (by omega)]
      have := Nat.mul_le_mul_left (2 * n) hd
      linarith
    rw [rdiv_natCast]
    exact ⟨Int.natCast_nonneg _, Int.ofNat_le.2 (Nat.le_of_lt_succ hquot)⟩
  obtain ⟨n, rfl | rfl⟩ := a.eq_nat_or_neg
  · exact .inl (hnat n)
  · have := hnat n
    rw [rdiv_neg]
    omega

/-- A multiple of the divisor divides without rounding. -/
theorem rdiv_mul_self (q : Int) {d : Nat} (hd : 1 ≤ d) : rdiv (q * d) d = q := by
  have hnat (n : Nat) : rdiv (n * d) d = n := by
    have hquot : (2 * (n * d) + d) / (2 * d) = n := by
      rw [show 2 * (n * d) + d = d + 2 * d * n by ring, Nat.add_mul_div_left _ _ (by omega),
        Nat.div_eq_of_lt (by omega), Nat.zero_add]
    rw [← Nat.cast_mul, rdiv_natCast, hquot]
  obtain ⟨n, rfl | rfl⟩ := q.eq_nat_or_neg
  · exact hnat n
  · rw [neg_mul, rdiv_neg, hnat]

/-! ### BC.QUANT -/

theorem tabulate_getElem_fin {n w : Nat} (f : Fin n → BitVec w) (i : Fin n) : (tabulate f)[i] = f i :=
  tabulate_getElem f i.val i.isLt

/-- A coefficient lies in the range of s12 (R24). -/
theorem fcoef_toInt_bounds (s : State) (i : Fin 64) : -2048 ≤ s.fcoef[i].toInt ∧ s.fcoef[i].toInt ≤ 2047 :=
  ⟨s.fcoef[i].le_toInt, Int.le_of_lt_add_one s.fcoef[i].toInt_lt⟩

/-- The quotient is no larger than the s12 coefficient, so 16 bits do not cut it (R110). -/
theorem quantise_qco_toInt (s : State) (i : Fin 64) :
    (quantise s).qco[i].toInt = rdiv s.fcoef[i].toInt (max 1 s.div[i].toNat) := by
  have hcoef := fcoef_toInt_bounds s i
  have hquot := rdiv_between s.fcoef[i].toInt (le_max_left 1 s.div[i].toNat)
  rw [quantise_qco, tabulate_getElem_fin]
  exact toInt_ofInt_of_fits (by decide) (by omega) (by omega)

/-- Settles O46: the command is the quantisation, whose quotients are stored whole. -/
theorem bcQuantDividesAndRounds : Obligations.BcQuantDividesAndRounds :=
  ⟨decodeOfEncode .bcQuant rfl, fun s h => ⟨_, exec_bcQuant h, quantise_qco_toInt s⟩⟩

/-- The coefficients that 12 bits hold are those of the transform (R73, R74). -/
theorem transformForward_fcoef_toInt (s : State) (u v : Fin 8) :
    (transformForward s).fcoef[lin u v].toInt = fdct (unsignedMatrix s.pixi) u v := by
  have hbounds := fdct_bounds (isPixelBlock_unsignedMatrix s.pixi) u v
  rw [transformForward_fcoef]
  exact signedMatrix_bufOfMatrix (by decide) (by omega) (by omega)

/-- Settles O47: a rounded quotient lies between zero and the dividend, and is a nearest integer (R10). -/
theorem quantisationErrorIsHalfADivisor : Obligations.QuantisationErrorIsHalfADivisor := by
  refine ⟨fun a d hd => ?_, fun s t h ht i => ?_, fun s t u h ht hu i => ?_⟩
  · have := rdiv_between a hd
    omega
  · have hd : 1 ≤ max 1 s.div[i].toNat := le_max_left ..
    have hcoef := fcoef_toInt_bounds s i
    have hquot := rdiv_between s.fcoef[i].toInt hd
    have hnear := (rdiv_nearest s.fcoef[i].toInt hd).1
    rw [exec_bcQuant h] at ht
    rw [← Host.Outcome.next.inj ht, quantise_qco_toInt, mul_comm]
    omega
  · rw [exec_fdRun h] at ht
    obtain rfl := Host.Outcome.next.inj ht
    rw [exec_bcQuant (by simpa using h)] at hu
    have hcoef : -1020 ≤ (transformForward s).fcoef[i].toInt ∧ (transformForward s).fcoef[i].toInt ≤ 2040 := by
      revert i
      refine forall_lin.1 fun a b => ?_
      rw [transformForward_fcoef_toInt]
      exact fdct_bounds (isPixelBlock_unsignedMatrix s.pixi) a b
    have hquot := rdiv_between (transformForward s).fcoef[i].toInt (le_max_left 1 (transformForward s).div[i].toNat)
    rw [← Host.Outcome.next.inj hu, quantise_qco_toInt]
    omega

/-! ### BC.DEQ and BC.CLAMP -/

/-- The product of an s16 and a u16 fits s32 (R112). -/
theorem toInt_ofInt_mul_toNat (q d : BitVec 16) :
    (BitVec.ofInt 32 (q.toInt * (d.toNat : Int))).toInt = q.toInt * (d.toNat : Int) := by
  refine toInt_word_of_natAbs_lt ?_
  have hq : q.toInt.natAbs ≤ 2 ^ 15 := by
    have hlow := q.le_toInt
    have hhigh := q.toInt_lt
    omega
  have hd : d.toNat < 2 ^ 16 := d.isLt
  rw [Int.natAbs_mul, Int.natAbs_natCast]
  calc q.toInt.natAbs * d.toNat ≤ 2 ^ 15 * d.toNat := Nat.mul_le_mul_right _ hq
    _ < 2 ^ 31 := by omega

theorem dequantise_icoef_toInt (s : State) (i : Fin 64) :
    (dequantise s).icoef[i].toInt = s.qco[i].toInt * (s.div[i].toNat : Int) := by
  rw [dequantise_icoef, tabulate_getElem_fin, toInt_ofInt_mul_toNat]

theorem clamp255_bounds (a : Int) : 0 ≤ clamp255 a ∧ clamp255 a ≤ 255 := by
  unfold clamp255
  split_ifs <;> omega

/-- A clamped number fits u8 (R113). -/
theorem clampSamples_pixo_toNat (s : State) (i : Fin 64) :
    ((clampSamples s).pixo[i].toNat : Int) = clamp255 s.samp[i].toInt := by
  obtain ⟨hlow, hhigh⟩ := clamp255_bounds s.samp[i].toInt
  obtain ⟨n, hn⟩ := Int.eq_ofNat_of_zero_le hlow
  rw [clampSamples_pixo, tabulate_getElem_fin, hn, toNat_ofInt_of_fits (by omega)]

/-- Settles O48: products fit 32 bits and clamped numbers 8. -/
theorem deqIsExactAndClampIsInRange : Obligations.DeqIsExactAndClampIsInRange :=
  ⟨decodeOfEncode .bcDeq rfl, decodeOfEncode .bcClamp rfl, fun s h =>
    ⟨⟨_, exec_bcDeq h, dequantise_icoef_toInt s⟩, ⟨_, exec_bcClamp h, clampSamples_pixo_toNat s⟩⟩⟩

/-! ### The whole-block sequences -/

theorem one_le_divisor (s : State) (cls : ChannelClass) (u v : Fin 8) : 1 ≤ divisor s cls u v :=
  one_le_scaleDivisor ..

/-- Settles O49: the sequence of R114 is its steps, none of which leaves a fault, and a divisor is at least 1. -/
theorem bcFwdIsTheStepSequence : Obligations.BcFwdIsTheStepSequence := by
  refine fun cls s h => ⟨encode_bcFwd cls, _, _, _, _, exec_qsBuild h cls, exec_fdRun (by simpa using h),
    exec_bcQuant (by simpa using h), exec_zzScan (by simpa using h), exec_bcFwd h cls, rfl, forall_lin.1 fun u v => ?_⟩
  rw [buildDivisors_div_toNat]
  exact one_le_divisor s cls u v

theorem scanOf_zero (dc : BitVec 16) (ac : Fin 63 → BitVec 16) : (scanOf dc ac)[(0 : Fin 64)] = dc :=
  (tabulate_getElem_fin ..).trans (dif_pos rfl)

theorem scanOf_succ (dc : BitVec 16) (ac : Fin 63 → BitVec 16) (i : Fin 63) : (scanOf dc ac)[i.val + 1] = ac i :=
  (tabulate_getElem ..).trans (dif_neg (Nat.succ_ne_zero i.val))

/-- Settles O50: the check of R118 comes first; then the sequence of R116 is its steps. -/
theorem bcInvIsTheStepSequence : Obligations.BcInvIsTheStepSequence := by
  refine fun cls s h => ⟨encode_bcInv cls, fun hcount => ?_, fun hcount => ?_⟩
  · rw [exec_bcInv h, if_neg hcount, encode_bcInv]
  · have hload : (loadScan s).faulted = false := by simpa using h
    refine ⟨(loadScan s).scan, unscanBlock (loadScan s), _, _, _, _, scanOf_zero .., fun i => scanOf_succ _ _ i,
      exec_zzUnscan hload, exec_qsBuild (by simpa using h) cls, exec_bcDeq (by simpa using h),
      exec_idRun (by simpa using h), exec_bcClamp (by simpa using h), ?_, ?_⟩
    · rw [exec_bcInv h, if_pos hcount]
      rfl
    · apply State.ext <;> simp

end Sys2Proof.Machine

/-! PROOF. What the two whole-block sequences compute (spec/46_block_codec_engine.md R114, R116), position by position,
and what follows for flat blocks (R121) and for a block coded and decoded (R120). -/

namespace Sys2Proof.Machine

variable {s : State}

/-! ### Forward -/

theorem bcForward_div_toNat (cls : ChannelClass) (s : State) (u v : Fin 8) :
    (bcForward cls s).div[lin u v].toNat = divisor s cls u v :=
  buildDivisors_div_toNat cls s u v

theorem bcForward_fcoef_toInt (cls : ChannelClass) (s : State) (u v : Fin 8) :
    (bcForward cls s).fcoef[lin u v].toInt = fdct (unsignedMatrix s.pixi) u v :=
  transformForward_fcoef_toInt (buildDivisors cls s) u v

/-- A built divisor is at least 1, so the guard of R110 does not act. -/
theorem bcForward_qco_toInt (cls : ChannelClass) (s : State) (u v : Fin 8) :
    (bcForward cls s).qco[lin u v].toInt = rdiv (fdct (unsignedMatrix s.pixi) u v) (divisor s cls u v) := by
  have hdiv : max 1 (bcForward cls s).div[lin u v].toNat = divisor s cls u v := by
    rw [bcForward_div_toNat]
    exact max_eq_right (one_le_divisor ..)
  rw [← bcForward_fcoef_toInt cls, ← hdiv]
  exact quantise_qco_toInt (transformForward (buildDivisors cls s)) (lin u v)

theorem bcForward_scan_zigzag (cls : ChannelClass) (s : State) (u v : Fin 8) :
    (bcForward cls s).scan[zigzag u v] = (bcForward cls s).qco[lin u v] :=
  scanBlock_scan_zigzag (quantise (transformForward (buildDivisors cls s))) u v

/-! ### Inverse -/

/-- The dequantised coefficient at a position is its value in `SCAN` times its divisor. -/
theorem bcInverse_icoef_toInt (cls : ChannelClass) (s : State) (u v : Fin 8) :
    (bcInverse cls s).icoef[lin u v].toInt = s.scan[zigzag u v].toInt * (divisor s cls u v : Int) := by
  have hqco : (unscanBlock s).qco[lin u v] = s.scan[zigzag u v] := by
    rw [← unscanBlock_qco_unzigzag]
    exact getElem_congr _ (unzigzag_zigzag_eq_lin u v).symm
  have hdiv : divisor (unscanBlock s) cls u v = divisor s cls u v := divisor_congr (by simp) (by simp) u v
  rw [← hqco, ← hdiv, ← buildDivisors_div_toNat]
  exact dequantise_icoef_toInt (buildDivisors cls (unscanBlock s)) (lin u v)

/-- The pixels are the clamped inverse transform of the dequantised coefficients (R83, R113). -/
theorem bcInverse_pixo_toNat (cls : ChannelClass) (s : State) (x y : Fin 8) :
    ((bcInverse cls s).pixo[lin x y].toNat : Int) = clamp255 (idct (signedMatrix (bcInverse cls s).icoef) x y) := by
  have hbounds := idct_bounds (signedMatrix (bcInverse cls s).icoef) x y
  have hsamp : (bcInverse cls s).samp[lin x y].toInt = idct (signedMatrix (bcInverse cls s).icoef) x y :=
    signedMatrix_bufOfMatrix (m := idct (signedMatrix (bcInverse cls s).icoef)) (by decide) (by omega) (by omega)
  rw [← hsamp]
  exact clampSamples_pixo_toNat (transformInverse (dequantise (buildDivisors cls (unscanBlock s)))) (lin x y)

/-- `BC.INV` with 63 values staged: the loaded block decoded, and the count cleared (R118). -/
theorem exec_bcInv_staged (h : s.faulted = false) (cls : ChannelClass) (hcount : s.accnt.toNat = 63) :
    exec (.bcInv cls) s = .next (clearAccnt (bcInverse cls (loadScan s))) := by
  rw [exec_bcInv h, if_pos hcount]

theorem clamp255_of_fits {a : Int} (hlow : 0 ≤ a) (hhigh : a ≤ 255) : clamp255 a = a := by
  rw [clamp255, if_neg hlow.not_gt, if_neg hhigh.not_gt]

/-- Clamping brings a number no farther from an intensity. -/
theorem clamp255_sub_natAbs_le (a : Int) {p : Int} (hlow : 0 ≤ p) (hhigh : p ≤ 255) :
    (clamp255 a - p).natAbs ≤ (a - p).natAbs := by
  unfold clamp255
  split_ifs <;> omega

/-! ### Flat blocks -/

/-- The DC position alone has scan position 0. -/
theorem zigzag_eq_zero_iff : ∀ u v : Fin 8, zigzag u v = 0 ↔ u = 0 ∧ v = 0 := by
  decide

theorem exists_zigzag_eq (j : Fin 64) : ∃ u v, zigzag u v = j :=
  ⟨_, _, zigzag_unzigzag j⟩

theorem unsignedMatrix_of_flat {b : Buf 8} {p : BitVec 8} (h : ∀ i : Fin 64, b[i] = p) :
    unsignedMatrix b = fun _ _ => (p.toNat : Int) := by
  funext x y
  rw [unsignedMatrix, h]

/-- Eight times an intensity over the DC divisor (R76, R121). -/
theorem bcForward_scan_zero_of_flat (cls : ChannelClass) {p : BitVec 8} (h : ∀ i : Fin 64, s.pixi[i] = p) :
    (bcForward cls s).scan[(0 : Fin 64)].toInt = rdiv (8 * (p.toNat : Int)) (divisor s cls 0 0) := by
  have hdc : fdct (unsignedMatrix s.pixi) 0 0 = 8 * (p.toNat : Int) := by
    rw [unsignedMatrix_of_flat h]
    exact (flatBlockHasOnlyDc.2.2 p.toNat 0 0).2.2 (by omega) (by omega)
  rw [← hdc, ← bcForward_qco_toInt, ← bcForward_scan_zigzag]
  rfl

/-- A flat block has no AC energy to quantise (R76, R121). -/
theorem bcForward_scan_succ_of_flat (cls : ChannelClass) {p : BitVec 8} (h : ∀ i : Fin 64, s.pixi[i] = p) (i : Fin 63) :
    (bcForward cls s).scan[i.succ] = 0 := by
  obtain ⟨u, v, huv⟩ := exists_zigzag_eq i.succ
  have hac : u ≠ 0 ∨ v ≠ 0 := by
    rw [← not_and_or, ← zigzag_eq_zero_iff, huv]
    exact Fin.succ_ne_zero i
  have hcoef : fdct (unsignedMatrix s.pixi) u v = 0 := by
    rw [unsignedMatrix_of_flat h]
    exact (flatBlockHasOnlyDc.2.2 p.toNat u v).2.1 hac
  refine (getElem_congr _ huv.symm).trans (BitVec.eq_of_toInt_eq ?_)
  rw [bcForward_scan_zigzag, bcForward_qco_toInt, hcoef, rdiv_zero]
  rfl

/-- With no AC value staged, the DC coefficient is the only one that is not zero. -/
theorem signedMatrix_icoef_of_dc_only (cls : ChannelClass) (h : ∀ i : Fin 63, s.acin[i] = 0) :
    signedMatrix (bcInverse cls (loadScan s)).icoef =
      fun u v => if u = 0 ∧ v = 0 then s.dcin.toInt * (divisor s cls 0 0 : Int) else 0 := by
  funext u v
  have hdiv : divisor (loadScan s) cls u v = divisor s cls u v := divisor_congr (by simp) (by simp) u v
  rw [signedMatrix, bcInverse_icoef_toInt, hdiv, loadScan_scan]
  split
  next hdc =>
    obtain ⟨rfl, rfl⟩ := hdc
    have hscan : (scanOf s.dcin fun i => s.acin[i])[zigzag 0 0] = s.dcin :=
      (getElem_congr _ ((zigzag_eq_zero_iff 0 0).2 ⟨rfl, rfl⟩)).trans (scanOf_zero ..)
    rw [hscan]
  next hac =>
    obtain ⟨i, hi⟩ := Fin.exists_succ_eq.2 (mt (zigzag_eq_zero_iff u v).1 hac)
    have hscan : (scanOf s.dcin fun i => s.acin[i])[zigzag u v] = 0 :=
      (getElem_congr _ hi.symm).trans ((scanOf_succ ..).trans (h i))
    simp only [hscan, BitVec.ofNat_eq_ofNat, BitVec.toInt_zero, zero_mul]

/-- Settles O52: forward, a flat block has DC energy only (R76); back, a DC-only matrix is flat (R85), and its DC
coefficient is 8 times the intensity again where the divisor divides that. -/
theorem flatBlockThroughTheEngine : Obligations.FlatBlockThroughTheEngine := by
  intro s cls p hf
  refine ⟨fun hflat => ⟨_, exec_bcFwd hf cls, bcForward_scan_zero_of_flat cls hflat, rfl,
    bcForward_scan_succ_of_flat cls hflat⟩, fun hcount hac hdc => ⟨_, exec_bcInv_staged hf cls hcount, ?_⟩⟩
  refine forall_lin.1 fun x y => ?_
  have hpixel := bcInverse_pixo_toNat cls (loadScan s) x y
  rw [signedMatrix_icoef_of_dc_only cls hac] at hpixel
  rw [clearAccnt_pixo]
  refine ⟨?_, fun hdvd => ?_⟩
  · rw [idct_dc, clamp255_sat16] at hpixel
    exact hpixel
  · obtain ⟨q, hq⟩ := hdvd
    have hq' : 8 * (p.toNat : Int) = q * (divisor s cls 0 0 : Int) := by
      rw [mul_comm (q : Int)]
      exact_mod_cast hq
    have hcoef : s.dcin.toInt * (divisor s cls 0 0 : Int) = 8 * (p.toNat : Int) := by
      rw [hdc, hq', rdiv_mul_self _ (one_le_divisor ..)]
    rw [hcoef, dcOnlyMatrixIsFlat.2.1 p.toNat x y (by omega) (by omega)] at hpixel
    rw [clamp255_of_fits (by omega) (by omega)] at hpixel
    exact BitVec.eq_of_toNat_eq (by omega)

/-! ### The round trip -/

/-- A loaded block is the one whose values were fed back in order (R118, R120). -/
theorem scanOf_eq {b : Buf 16} {dc : BitVec 16} {ac : Fin 63 → BitVec 16} (hdc : dc = b[(0 : Fin 64)])
    (hac : ∀ i : Fin 63, ac i = b[i.val + 1]) : scanOf dc ac = b := by
  refine buf_ext fun j => ?_
  cases j using Fin.cases with
  | zero => exact (scanOf_zero dc ac).trans hdc
  | succ i => exact (scanOf_succ dc ac i).trans (hac i)

/-- Decoding a coded block multiplies each quotient by the divisor it was rounded with (R120). -/
theorem icoef_of_coded {u : State} {cls : ChannelClass} (hscan : u.scan = (bcForward cls s).scan) (hcf : u.cf = s.cf)
    (hq : u.qbase cls = s.qbase cls) (a b : Fin 8) :
    (bcInverse cls u).icoef[lin a b].toInt =
      rdiv (fdct (unsignedMatrix s.pixi) a b) (divisor s cls a b) * (divisor s cls a b : Int) := by
  have hval : u.scan[zigzag a b] = (bcForward cls s).qco[lin a b] := by
    rw [hscan, bcForward_scan_zigzag]
  rw [bcInverse_icoef_toInt, hval, bcForward_qco_toInt, divisor_congr hcf hq]

/-- With divisor 1 nothing is lost between the two transforms (R120). -/
theorem icoef_of_coded_of_div_one {u : State} {cls : ChannelClass} (hscan : u.scan = (bcForward cls s).scan)
    (hcf : u.cf = s.cf) (hq : u.qbase cls = s.qbase cls) (hone : ∀ i : Fin 64, (bcForward cls s).div[i] = 1) :
    signedMatrix (bcInverse cls u).icoef = fdct (unsignedMatrix s.pixi) := by
  funext a b
  have hdiv : divisor s cls a b = 1 := by
    rw [← bcForward_div_toNat, hone]
    rfl
  have hquot := rdiv_mul_self (fdct (unsignedMatrix s.pixi) a b) (le_refl 1)
  rw [Nat.cast_one, mul_one] at hquot
  rw [signedMatrix, icoef_of_coded hscan hcf hq, hdiv, hquot, Nat.cast_one, mul_one]

/-- Settles O53: the quotients come back as they were, so the loss is that of rounding them (R10), and none with divisor
1, where the error of the transforms (R86) remains. -/
theorem engineRoundTripError : Obligations.EngineRoundTripError := by
  intro s t u cls hs ht hdc hac hcount hu hcf hq
  rw [exec_bcFwd hs] at ht
  obtain rfl := Host.Outcome.next.inj ht
  have hscan : (loadScan u).scan = (bcForward cls s).scan := scanOf_eq hdc hac
  have hcf' : (loadScan u).cf = s.cf := hcf
  have hq' : (loadScan u).qbase cls = s.qbase cls := by rw [loadScan_qbase, hq]
  refine ⟨_, exec_bcInv_staged hu cls hcount, forall_lin.1 fun a b => ?_, bcInverse_pixo_toNat cls (loadScan u),
    fun hone => forall_lin.1 fun a b => ⟨?_, ?_⟩, fun hzero => forall_lin.1 fun a b => BitVec.eq_of_toNat_eq ?_⟩
  · have hnear := (rdiv_nearest (fdct (unsignedMatrix s.pixi) a b) (one_le_divisor s cls a b)).1
    rw [clearAccnt_icoef, icoef_of_coded hscan hcf' hq', bcForward_fcoef_toInt, bcForward_div_toNat, mul_comm]
    omega
  · rw [bcForward_fcoef_toInt, ← icoef_of_coded_of_div_one hscan hcf' hq' hone]
    rfl
  · have hpixel := bcInverse_pixo_toNat cls (loadScan u) a b
    have hblock := isPixelBlock_unsignedMatrix s.pixi
    rw [icoef_of_coded_of_div_one hscan hcf' hq' hone] at hpixel
    rw [clearAccnt_pixo, hpixel]
    exact (clamp255_sub_natAbs_le _ (hblock a b).1 (hblock a b).2).trans (roundTripIsWithinFour.1 _ hblock a b).2
  · rw [bcForward_div_toNat, divisor, hzero, scaleDivisor_zero]
    rfl

end Sys2Proof.Machine

/-! PROOF. The pass of `IT.DECODE` (R133, R127, R128, R135, R140, R141): block step `n` leaves the pixels of block
`n / 3` of its channel in the output image, decoded from the streams that the pass found. -/

namespace Sys2Proof.Machine

variable {s t : State}

/-! ### Where pixels stand -/

/-- The pixel, row and channel numbers of an image element are unique (R36). -/
theorem pixIndex_inj {cols r c k r' c' k' : Nat} (hc : c < cols) (hc' : c' < cols) (hk : k < 3) (hk' : k' < 3)
    (h : pixIndex cols r c k = pixIndex cols r' c' k') : r = r' ∧ c = c' ∧ k = k' := by
  simp only [pixIndex] at h
  have hpixel : c + cols * r = r' * cols + c' := by
    rw [Nat.mul_comm cols r]
    omega
  have hpixel' : c' + cols * r' = r' * cols + c' := by ring
  have hpos : 0 < cols := Nat.zero_lt_of_lt hc
  obtain ⟨hr, hcol⟩ := (Nat.div_mod_unique hpos).2 ⟨hpixel, hc⟩
  obtain ⟨hr', hcol'⟩ := (Nat.div_mod_unique hpos).2 ⟨hpixel', hc'⟩
  exact ⟨hr.symm.trans hr', hcol.symm.trans hcol', by omega⟩

/-- A block inside the image has its eight pixel columns inside. -/
theorem pixel_columns_le {bc : Nat} (h : bc < s.blockCols) : 8 * bc + 8 ≤ s.cols.toNat := by
  rw [State.blockCols] at h
  omega

/-- No image element belongs to two blocks, nor to two channels (R128). -/
theorem block_of_blockPixel {br bc br' bc' : Nat} {k k' : Fin 3} {i i' : Fin 64} (hbc : bc < s.blockCols)
    (hbc' : bc' < s.blockCols)
    (h : blockPixel s.cols.toNat br bc k i = blockPixel s.cols.toNat br' bc' k' i') : br = br' ∧ bc = bc' ∧ k = k' := by
  have hcols := pixel_columns_le hbc
  have hcols' := pixel_columns_le hbc'
  obtain ⟨hrow, hcol, hchan⟩ := pixIndex_inj (by omega) (by omega) k.isLt k'.isLt h
  exact ⟨by omega, by omega, Fin.ext hchan⟩

theorem sides_eq_of_dimsOk (hdims : dimsOk s = true) :
    s.rows.toNat = 8 * s.blockRows ∧ s.cols.toNat = 8 * s.blockCols := by
  obtain ⟨hrows, hcols, -⟩ := dimsOk_iff.1 hdims
  rw [State.blockRows, State.blockCols]
  omega

/-- Three channels of 64 pixels for each block (R126 to R128). -/
theorem imageElements_eq (hdims : dimsOk s = true) : 3 * s.rows.toNat * s.cols.toNat = 192 * s.blockCount := by
  obtain ⟨hrows, hcols⟩ := sides_eq_of_dimsOk hdims
  rw [hrows, hcols, State.blockCount]
  ring

/-- The pixels of a block inside the image are among its first `3*ROWS*COLS` elements. -/
theorem blockPixel_lt_imageElements (hdims : dimsOk s = true) {br bc : Nat} (hbr : br < s.blockRows)
    (hbc : bc < s.blockCols) (k : Fin 3) (i : Fin 64) :
    blockPixel s.cols.toNat br bc k i < 3 * s.rows.toNat * s.cols.toNat := by
  rw [imageElements_eq hdims]
  exact blockPixel_lt k i (sides_eq_of_dimsOk hdims).2 hbr hbc

/-- Every image element is a block's pixel: the one whose row and column it has. -/
theorem eq_blockPixel (cols a : Nat) :
    a = blockPixel cols (a / 3 / cols / 8) (a / 3 % cols / 8) (Fin.ofNat 3 a)
      (lin (Fin.ofNat 8 (a / 3 / cols)) (Fin.ofNat 8 (a / 3 % cols))) := by
  rw [blockPixel, pixIndex, rowOf_lin, colOf_lin, Fin.val_ofNat, Fin.val_ofNat, Fin.val_ofNat, Nat.div_add_mod,
    Nat.div_add_mod, Nat.mul_comm (a / 3 / cols), Nat.div_add_mod, Nat.mul_comm (a / 3), Nat.div_add_mod]

/-- With good dimensions the blocks cover the first `3*ROWS*COLS` elements (R126 to R128). -/
theorem exists_eq_blockPixel (hdims : dimsOk s = true) {a : Nat} (ha : a < 3 * s.rows.toNat * s.cols.toNat) :
    ∃ br bc k i, br < s.blockRows ∧ bc < s.blockCols ∧ a = blockPixel s.cols.toNat br bc k i := by
  obtain ⟨hrows, hcols⟩ := sides_eq_of_dimsOk hdims
  have hpixel : a / 3 < s.cols.toNat * s.rows.toNat := by
    rw [Nat.mul_assoc, Nat.mul_comm s.rows.toNat] at ha
    omega
  have hrow : a / 3 / s.cols.toNat < s.rows.toNat := Nat.div_lt_of_lt_mul hpixel
  have hcol : a / 3 % s.cols.toNat < s.cols.toNat := Nat.mod_lt _ (Nat.pos_of_mul_pos_right (Nat.zero_lt_of_lt hpixel))
  exact ⟨_, _, _, _, by omega, by omega, eq_blockPixel s.cols.toNat a⟩

/-! ### One block -/

/-- What decoding a block reads, apart from the cursors (R43, R98, R128). -/
structure SameDecodeInputs (t s : State) : Prop where
  dcs : t.dcs = s.dcs
  acs : t.acs = s.acs
  epoch : t.epoch = s.epoch
  cols : t.cols = s.cols
  cf : t.cf = s.cf
  qbase : ∀ cls, t.qbase cls = s.qbase cls

/-- The block buffers that decoding a block writes are the same. -/
def SameInverseBuffers (t d : State) : Prop :=
  t.scan = d.scan ∧ t.qco = d.qco ∧ t.div = d.div ∧ t.icoef = d.icoef ∧ t.samp = d.samp ∧ t.pixo = d.pixo

/-- Channel `k` of block `b` in raster order, decoded from the streams of `s` (R131, R133). -/
def decodedBlock (s : State) (b : Nat) (k : Fin 3) : State :=
  bcInverse (classOf k) { s with scan := scanOf (s.readDcs k b) fun j => s.readAcs k (63 * b + j.val) }

/-- The last block step of a pass decodes channel 2 of the last block (R131). -/
theorem decodedBlock_last (h : 0 < s.blockCount) :
    decodedBlock s ((s.blockCount * 3 - 1) / 3) (Fin.ofNat 3 (s.blockCount * 3 - 1)) =
      bcInverse .chroma { s with
        scan := scanOf (s.readDcs 2 (s.blockCount - 1)) fun j => s.readAcs 2 (63 * (s.blockCount - 1) + j.val) } := by
  have hchan : Fin.ofNat 3 (s.blockCount * 3 - 1) = 2 := Fin.ext (by simp only [Fin.val_ofNat]; omega)
  have hblock : (s.blockCount * 3 - 1) / 3 = s.blockCount - 1 := by omega
  rw [hchan, hblock]
  rfl

/-- The output image holds the pixels of the decoded block `d` as block `b` of channel `k` (R128, R133). -/
def HoldsPixels (s t : State) (k : Fin 3) (b : Nat) (d : State) : Prop :=
  ∀ i : Fin 64, t.readImgo (blockPixel s.cols.toNat (b / s.blockCols) (b % s.blockCols) k i) = d.pixo[i]

theorem sameDecodeInputs_decodeBlock (h : SameDecodeInputs t s) (br bc : Nat) (k : Fin 3) :
    SameDecodeInputs (decodeBlock br bc k t) s where
  dcs := by simpa using h.dcs
  acs := by simpa using h.acs
  epoch := by simpa using h.epoch
  cols := by simpa using h.cols
  cf := by simpa using h.cf
  qbase := by simpa using h.qbase

theorem decodeBlock_dcidx (br bc : Nat) (k : Fin 3) (s : State) :
    (decodeBlock br bc k s).dcidx = (advanceCursors k s).dcidx := by simp [decodeBlock]

theorem decodeBlock_acidx (br bc : Nat) (k : Fin 3) (s : State) :
    (decodeBlock br bc k s).acidx = (advanceCursors k s).acidx := by simp [decodeBlock]

/-- After a block step the buffers hold the block at the cursors, decoded. -/
theorem sameInverseBuffers_decodeBlock (h : SameDecodeInputs t s) (br bc : Nat) {k : Fin 3} {b : Nat}
    (hd : t.dcidx[k].toNat = b) (ha : t.acidx[k].toNat = 63 * b) :
    SameInverseBuffers (decodeBlock br bc k t) (decodedBlock s b k) := by
  have hscan : (advanceCursors k (loadStreams k t)).scan =
      scanOf (s.readDcs k b) fun j => s.readAcs k (63 * b + j.val) := by
    simp only [advanceCursors_scan, loadStreams_scan, hd, ha, State.readDcs_congr h.dcs h.epoch,
      State.readAcs_congr h.acs h.epoch]
  obtain ⟨hqco, hdiv, hicoef, hsamp, hpixo⟩ := bcInverse_congr (cls := classOf k)
    (t := advanceCursors k (loadStreams k t))
    (s := { s with scan := scanOf (s.readDcs k b) fun j => s.readAcs k (63 * b + j.val) })
    hscan h.cf (h.qbase (classOf k))
  simp only [SameInverseBuffers, decodeBlock, decodedBlock, storePixels_scan, storePixels_qco, storePixels_div,
    storePixels_icoef, storePixels_samp, storePixels_pixo, bcInverse_scan]
  exact ⟨hscan, hqco, hdiv, hicoef, hsamp, hpixo⟩

/-- A block step leaves its own pixels in the image. -/
theorem readImgo_decodeBlock_same (br : Nat) {bc : Nat} (k : Fin 3) (h : 8 * bc + 8 ≤ t.cols.toNat) (i : Fin 64) :
    (decodeBlock br bc k t).readImgo (blockPixel t.cols.toNat br bc k i) = (decodeBlock br bc k t).pixo[i] := by
  simpa [decodeBlock] using
    readImgo_storePixels_same (s := bcInverse (classOf k) (advanceCursors k (loadStreams k t))) (br := br) k
      (by simpa using h) i

/-- A block step leaves every other element of the image alone. -/
theorem readImgo_decodeBlock_other {br bc : Nat} (k : Fin 3) (h : 8 * bc + 8 ≤ t.cols.toNat) {a : Nat}
    (ha : ∀ i, a ≠ blockPixel t.cols.toNat br bc k i) : (decodeBlock br bc k t).readImgo a = t.readImgo a := by
  simpa [decodeBlock] using
    readImgo_storePixels_other (s := bcInverse (classOf k) (advanceCursors k (loadStreams k t))) (br := br) k
      (by simpa using h) (by simpa using ha)

/-! ### The pass -/

/-- What holds after `n` block steps of `IT.DECODE` on `s`: the inputs are as before, the image holds the blocks counted
so far and beyond the blocks what it held, and the buffers hold the last block. -/
structure DecodedUpTo (s : State) (n : Nat) (t : State) : Prop where
  inputs : SameDecodeInputs t s
  cursors : CursorsAt n t
  decoded : ∀ l b, b < blocksDone n l → HoldsPixels s t l b (decodedBlock s b l)
  beyond : ∀ a, 3 * s.rows.toNat * s.cols.toNat ≤ a → t.readImgo a = s.readImgo a
  last : 0 < n → SameInverseBuffers t (decodedBlock s ((n - 1) / 3) (Fin.ofNat 3 (n - 1)))

theorem decodedUpTo_zeroCursors (s : State) : DecodedUpTo s 0 (zeroCursors s) where
  inputs := ⟨rfl, rfl, rfl, rfl, rfl, fun _ => rfl⟩
  cursors := cursorsAt_zeroCursors s
  decoded l b h := by simp only [blocksDone] at h; omega
  beyond _ _ := rfl
  last h := absurd h (Nat.lt_irrefl 0)

/-- One more block step: its own block is decoded, the others and what is beyond them are as they were. -/
theorem decodedUpTo_decodeBlock (hdims : dimsOk s = true) {n : Nat} (h : DecodedUpTo s n t)
    (hn : n < s.blockCount * 3) :
    DecodedUpTo s (n + 1) (decodeBlock (n / 3 / s.blockCols) (n / 3 % s.blockCols) (Fin.ofNat 3 n) t) := by
  obtain ⟨-, -, hcap⟩ := dimsOk_iff.1 hdims
  obtain ⟨hd, ha⟩ := h.cursors (Fin.ofNat 3 n)
  rw [blocksDone_current] at hd ha
  obtain ⟨hpos, -⟩ := raster_last (s := s) (by omega)
  have hcol (b : Nat) : b % s.blockCols < s.blockCols := Nat.mod_lt b hpos
  have hrow : n / 3 / s.blockCols < s.blockRows :=
    Nat.div_lt_of_lt_mul (by rw [Nat.mul_comm, ← State.blockCount]; omega)
  have hwidth : 8 * (n / 3 % s.blockCols) + 8 ≤ t.cols.toNat := by
    rw [h.inputs.cols]
    exact pixel_columns_le (hcol _)
  have hsame := sameInverseBuffers_decodeBlock h.inputs (n / 3 / s.blockCols) (n / 3 % s.blockCols) hd ha
  refine ⟨sameDecodeInputs_decodeBlock h.inputs .., cursorsAt_congr (cursorsAt_advanceCursors h.cursors (by omega))
    (decodeBlock_dcidx ..) (decodeBlock_acidx ..), fun l b hb i => ?_, fun a hbeyond => ?_, fun _ => hsame⟩
  · by_cases hcur : l = Fin.ofNat 3 n ∧ b = n / 3
    · obtain ⟨rfl, rfl⟩ := hcur
      obtain ⟨-, -, -, -, -, hpixo⟩ := hsame
      rw [← hpixo, ← h.inputs.cols]
      exact readImgo_decodeBlock_same _ _ hwidth i
    · rw [← h.decoded l b ((lt_blocksDone_succ.1 hb).resolve_right hcur) i]
      refine readImgo_decodeBlock_other _ hwidth fun j hj => hcur ?_
      rw [h.inputs.cols] at hj
      obtain ⟨hr, hc, hk⟩ := block_of_blockPixel (hcol _) (hcol _) hj
      exact ⟨hk, by rw [← Nat.div_add_mod b s.blockCols, hr, hc, Nat.div_add_mod]⟩
  · rw [← h.beyond a hbeyond]
    refine readImgo_decodeBlock_other _ hwidth fun j hj => ?_
    rw [h.inputs.cols] at hj
    exact Nat.not_lt.2 hbeyond (hj ▸ blockPixel_lt_imageElements hdims hrow (hcol _) _ j)

/-- The invariant at the end of the pass. -/
theorem decodedUpTo_decodePass (hdims : dimsOk s = true) :
    DecodedUpTo s (s.blockCount * 3) (runPass decodeBlock (zeroCursors s)) :=
  runPass_induction (s := zeroCursors s) (DecodedUpTo s) (decodedUpTo_zeroCursors s)
    fun _ _ hn h => decodedUpTo_decodeBlock hdims h hn

/-- What `IT.DECODE` never writes. -/
theorem decodePass_frame (s : State) :
    let t := runPass decodeBlock (zeroCursors s)
    t = { s with
      scan := t.scan, qco := t.qco, div := t.div, icoef := t.icoef, samp := t.samp, pixo := t.pixo,
      imgo := t.imgo, dcidx := t.dcidx, acidx := t.acidx } := by
  apply State.ext <;> simp

/-- Settles O55: the invariant of the pass at its end. -/
theorem decodeFillsTheImage : Obligations.DecodeFillsTheImage := by
  refine ⟨fun dc ac => ⟨scanOf_zero dc ac, scanOf_succ dc ac⟩, fun cls s hf hcount => exec_bcInv_staged hf cls hcount,
    fun s hf hdims hlengths => ?_⟩
  have h := decodedUpTo_decodePass hdims
  refine ⟨runPass decodeBlock (zeroCursors s), by rw [exec_itDecode hf, if_pos hdims, if_pos hlengths],
    fun br bc k i hbr hbc => ⟨blockPixel_lt_imageElements hdims hbr hbc k i, ?_⟩,
    fun a ha => exists_eq_blockPixel hdims ha, h.beyond, fun a => State.readImgi_congr (by simp) (by simp) a,
    fun k a => ⟨State.readDcs_congr h.inputs.dcs h.inputs.epoch k a,
      State.readAcs_congr h.inputs.acs h.inputs.epoch k a⟩,
    fun k => ?_, fun hnb => ?_, fun hnb => ?_, decodePass_frame s⟩
  · have hraster : bc + s.blockCols * br = br * s.blockCols + bc := by ring
    obtain ⟨hrow, hcol⟩ := (Nat.div_mod_unique (Nat.zero_lt_of_lt hbc)).2 ⟨hraster, hbc⟩
    have hpixel := h.decoded k (br * s.blockCols + bc) (by rw [blocksDone_mul_three]; exact raster_lt hbr hbc) i
    rw [hrow, hcol] at hpixel
    exact hpixel
  · obtain ⟨hd, ha⟩ := h.cursors k
    rw [blocksDone_mul_three] at hd ha
    exact ⟨hd, ha⟩
  · exact ⟨_, rfl, decodedBlock_last hnb ▸ h.last (by omega)⟩
  · rw [runPass_of_blockCount_eq_zero (s := zeroCursors s) hnb]
    rfl

end Sys2Proof.Machine

/-! PROOF. The fault state (spec/60_exceptions.md): what enters it, what goes on in it and what leaves it. -/

namespace Sys2Proof.Machine

variable {s t : State}

/-! ### Entering the fault state -/

/-- The fields of the word that a fault writes to `STATUS` (R19, R145). -/
theorem faultStatus_fields (k : FaultKind) :
    ((faultStatus k).extractLsb' 4 4).toNat = k.code ∧ field (faultStatus k) 1 3 = 0 ∧
    field (faultStatus k) 8 24 = 0 := by
  cases k <;> decide

theorem raiseFault_errCode (k : FaultKind) (w : Word) (s : State) : (raiseFault k w s).errCode = k.code :=
  (faultStatus_fields k).1

/-- Settles O17: the fields of `STATUS` are those of the kind's word, and nothing but it and `ERRINFO` is written. -/
theorem faultEntryWritesStatusAndErrinfo : Obligations.FaultEntryWritesStatusAndErrinfo := by
  intro k w s
  obtain ⟨-, hlow, hhigh⟩ := faultStatus_fields k
  exact ⟨raiseFault_faulted s k w, raiseFault_errCode k w s, rfl, hlow, hhigh, rfl,
    raiseFault_errCode .invalidDimensions w s, raiseFault_errCode .invalidIndex w s,
    raiseFault_errCode .malformedStream w s, raiseFault_errCode .illegalCommand w s⟩

/-- The lengths are those of the image's blocks in all three channels (R134). -/
theorem lengthsOk_iff : lengthsOk s = true ↔
    ∀ k : Fin 3, s.dclen[k].toNat = s.blockCount ∧ s.aclen[k].toNat = 63 * s.blockCount := by
  simp [lengthsOk]

theorem faulted_congr (h : t.status = s.status) : t.faulted = s.faulted := by
  rw [State.faulted, h, State.faulted]

/-- No command's own effect ends in the fault state (R162). -/
theorem effect_not_faulted (i : Instr) (h : s.faulted = false) : (effect i s).faulted = false := by
  by_cases hi : i = .sysSreset
  · subst hi
    exact softReset_faulted s
  · rw [faulted_congr (effect_keeps_fault_record hi s).1, h]

/-- Settles O19: a command does what the table R162 says, and its own effect where the table gives it no fault. -/
theorem commandFaultsArePrecise : Obligations.CommandFaultsArePrecise := by
  refine ⟨fun s => ⟨dimsOk_iff, lengthsOk_iff⟩, fun i s hf => ⟨fun k hk => ?_, fun hnone => ?_⟩⟩
  · rw [exec_not_faulted i hf, hk, Option.elim_some]
  · exact ⟨effect i s, by rw [exec_not_faulted i hf, hnone, Option.elim_none], effect_not_faulted i hf⟩

/-! ### In the fault state -/

/-- Settles O11: register writes meet the test of `STATUS.FAULT`; reads and memory transactions have none. -/
theorem faultStateRefusesAllButSreset : Obligations.FaultStateRefusesAllButSreset := by
  intro s rest hf
  have hfault : (afterInput rest s).faulted = true := by rwa [afterInput_faulted]
  obtain ⟨hread, -, hmemRead, hmemWrite, -⟩ := stepServesOneTransaction s
  refine ⟨fun w h => ?_, fun a d ha h => ?_, fun a h => hread a rest h, fun sel j h => hmemRead sel j rest h,
    fun sel j d h => hmemWrite sel j d rest h⟩
  · rw [step_transaction h, perform_wr_cmd, writeCmd_faulted (by rwa [answerH_faulted])]
  · rw [step_transaction h, perform_wr_faulted hfault (.inl ha)]

/-! ### Leaving the fault state -/

/-- Of the transactions only the `CMD` write of `SYS.SRESET` can end the fault state (R152, R153). -/
theorem perform_keeps_faulted {tr : Transaction} (hf : s.faulted = true) (hp : perform tr s = .next t)
    (hne : tr ≠ .wr cmdIndex 0x01000000) : t.faulted = true := by
  cases tr with
  | wr a d =>
    have hother : a ≠ cmdIndex ∨ d ≠ 0x01000000 := by
      by_contra! hsame
      exact hne (by rw [hsame.1, hsame.2])
    rw [perform_wr_faulted hf hother] at hp
    rwa [← Host.Outcome.next.inj hp, answerH_faulted]
  | rd a =>
    rw [perform_rd] at hp
    rwa [← Host.Outcome.next.inj hp, answerH_faulted]
  | mw sel j d =>
    rw [perform_mw] at hp
    rwa [← Host.Outcome.next.inj hp, faulted_congr (hostWrite_keeps_fault_record sel j d _).1, answerM_faulted]
  | mr sel j =>
    rw [perform_mr] at hp
    rwa [← Host.Outcome.next.inj hp, answerM_faulted]

/-- Settles O20: of what a step can be, an idle one and every other transaction keep `STATUS.FAULT`. -/
theorem onlyResetsLeaveTheFaultState : Obligations.OnlyResetsLeaveTheFaultState := by
  intro s t hf hstep ht
  obtain ⟨-, ho⟩ | ⟨p, rest, hinbox, ⟨hreset, -⟩ | ⟨-, ho⟩ | ⟨-, ho⟩ | ⟨tr, hreq, ho⟩⟩ := step_cases hstep
  · rw [Host.Outcome.next.inj ho, answerNone_faulted, hf] at ht
    cases ht
  · exact ⟨p, rest, hinbox, .inl hreset⟩
  · rw [Host.Outcome.next.inj ho, answerNone_faulted, afterInput_faulted, hf] at ht
    cases ht
  · cases ho
  · by_cases htr : tr = .wr cmdIndex 0x01000000
    · exact ⟨p, rest, hinbox, .inr (htr ▸ hreq)⟩
    · have hfault : (afterInput rest s).faulted = true := by rwa [afterInput_faulted]
      rw [perform_keeps_faulted hfault ho.symm htr] at ht
      cases ht

end Sys2Proof.Machine

/-! PROOF. The hardware reset and the ports (spec/70_reset_and_hazards.md). -/

namespace Sys2Proof.Machine

variable {s : State} {p : Pins}

/-! ### After a reset -/

/-- No register is part of the storage that a hardware reset loses (R166, R167). -/
theorem registersReset_loseStorage (h : s.registersReset) : (loseStorage s).registersReset := by
  simpa [State.registersReset, readLocation] using h

theorem hardReset_registersReset (s : State) : (hardReset s).registersReset :=
  registersReset_loseStorage (softReset_registersReset s)

/-- The initial state holds the values that a soft reset writes. -/
theorem softReset_reset : softReset State.reset = State.reset := rfl

/-- Settles O15: either reset writes them, and the initial state is one that the soft reset leaves as it is. -/
theorem registersAfterEitherReset : Obligations.RegistersAfterEitherReset :=
  ⟨softReset_reset ▸ softReset_registersReset State.reset,
    fun s => ⟨softReset_registersReset s, hardReset_registersReset s⟩⟩

/-- Settles O59: the initial state lists no element and records no fault, like the state after any hardware reset. -/
theorem resetMeetsTheInvariant : Obligations.ResetMeetsTheInvariant :=
  inv_congr (inv_hardReset State.reset) rfl rfl rfl rfl rfl rfl

/-- Every element of the block buffers holds its free value after a hardware reset (R167). -/
theorem hardReset_buffers (s : State) (i : Fin 64) :
    (hardReset s).pixi[i] = Config.anyValue 8 (s.epoch + 1) .pixi i ∧
    (hardReset s).fcoef[i] = Config.anyValue 12 (s.epoch + 1) .fcoef i ∧
    (hardReset s).div[i] = Config.anyValue 16 (s.epoch + 1) .div i ∧
    (hardReset s).qco[i] = Config.anyValue 16 (s.epoch + 1) .qco i ∧
    (hardReset s).scan[i] = Config.anyValue 16 (s.epoch + 1) .scan i ∧
    (hardReset s).icoef[i] = Config.anyValue 32 (s.epoch + 1) .icoef i ∧
    (hardReset s).samp[i] = Config.anyValue 16 (s.epoch + 1) .samp i ∧
    (hardReset s).pixo[i] = Config.anyValue 8 (s.epoch + 1) .pixo i := by
  simp [hardReset]

theorem hardReset_acin (s : State) (i : Fin 63) :
    (hardReset s).acin[i] = Config.anyValue 16 (s.epoch + 1) .acin i := by
  simp [hardReset]

/-- Every element of the images holds its free value after a hardware reset (R167). -/
theorem hardReset_images (s : State) (a : Nat) :
    (hardReset s).readImgi a = Config.anyValue 8 (s.epoch + 1) (.mem .imgi) a ∧
    (hardReset s).readImgo a = Config.anyValue 8 (s.epoch + 1) (.mem .imgo) a :=
  ⟨rfl, rfl⟩

/-- Every element of the streams holds its free value after a hardware reset (R167). -/
theorem hardReset_streams (s : State) (k : Fin 3) (a : Nat) :
    (hardReset s).readDcs k a = Config.anyValue 16 (s.epoch + 1) (.mem (.dcs k)) a ∧
    (hardReset s).readAcs k a = Config.anyValue 16 (s.epoch + 1) (.mem (.acs k)) a := by
  simp [State.readDcs, State.readAcs, hardReset]

/-! ### The ports -/

/-- Both ports at once are a conflict (R179). -/
theorem request_of_both_ports (hr : p.rstN = true) (hh : p.hValid = true) (hm : p.mValid = true) :
    p.request = .conflict := by
  simp [Pins.request, hr, hh, hm]

/-- While `rst_n` is low the ports are not looked at (R165). -/
theorem request_of_rstN_low (hr : p.rstN = false) : p.request = .reset := by
  simp [Pins.request, hr]

/-- Settles O10: the request read off the pins decides the step. -/
theorem portsCarryTheHostsRequests : Obligations.PortsCarryTheHostsRequests := by
  refine ⟨request_pins, fun s p rest h => ⟨fun hr hh hm => ?_, fun hr => ?_⟩⟩
  · rw [step_cons h, request_of_both_ports hr hh hm]
    rfl
  · have hstep : step s = .next (hardReset (answerNone (afterInput rest s))) := by
      rw [step_cons h, request_of_rstN_low hr]
      rfl
    exact ⟨_, hstep, hardReset_registersReset _, rfl, rfl, hardReset_buffers _, hardReset_acin _,
      hardReset_images _, hardReset_streams _⟩

end Sys2Proof.Machine
